-- ==== Sys2Proof/Word.lean ====
section
/-! DEFINITION. The word types of the XOR-fold hasher (00_scope.md rule R4: every width here is fixed by the spec). -/

namespace Sys2Proof

/-- A byte: 8 bits (R4). -/
abbrev Byte := BitVec 8

/-- A 32-bit word: `LEN`, `SEED`, `RES`, `FLD`, `NRM`, `POS`, `DIGEST` (R4, R12, R13, R15, R16, R17). -/
abbrev Word32 := BitVec 32

/-- A 64-bit word: the accumulator (R4, R11). -/
abbrev Word64 := BitVec 64

end Sys2Proof
end

