-- ==== Sys2Proof/Syntax.lean ====
section
/-! DEFINITION. The operations of the block: the command `HASH` and its nine micro-operations, one constructor per row of
spec/opcode_table.json (30_encoding.md rules R50, R53). -/

namespace Sys2Proof

/-- The command record, format `CMD`: three named fields (R51). `base` is an `AW`-bit address, kept as a natural number because
`AW` is open (log entry 11). -/
structure Command where
  base : Nat
  len : Word32
  seed : Word32
deriving DecidableEq, Repr

/-- The operations (R53). Only `HASH` has operands of its own; a micro-operation works on the working registers. -/
inductive Instr where
  /-- the whole invocation `HASH base, len, seed` (R70) -/
  | hash (base : Nat) (len seed : Word32)
  /-- start an invocation (R72) -/
  | init
  /-- accumulate a full 8-byte group (R80) -/
  | xor8
  /-- accumulate the 4-byte remainder (R81) -/
  | xor4
  /-- accumulate the 2-byte remainder and arm the byte shift (R82) -/
  | xor2
  /-- accumulate the last byte at bit offset `BOFF` (R83) -/
  | xor1
  /-- the 64-to-32-bit fold (R90) -/
  | fold
  /-- the byte-order normalisation of the fold (R91) -/
  | norm
  /-- the seed blend (R92) -/
  | blend
  /-- deliver the digest (R73) -/
  | ret
deriving DecidableEq, Repr

/-- The mnemonics of R58 and of spec/opcode_table.json. -/
def Instr.mnemonic : Instr → String
  | .hash _ _ _ => "HASH"
  | .init => "INIT"
  | .xor8 => "XOR8"
  | .xor4 => "XOR4"
  | .xor2 => "XOR2"
  | .xor1 => "XOR1"
  | .fold => "FOLD"
  | .norm => "NORM"
  | .blend => "BLEND"
  | .ret => "RET"

end Sys2Proof
end

