-- ==== Sys2Proof/WellFormed.lean ====
section
/-! DEFINITION. Which operations are well formed for an address width `aw`: the one check is that `BASE` has `AW` bits (30_encoding.md
rule R51). Every `LEN` and every `SEED` is legal (R56), and a micro-operation has no operand to check. -/

namespace Sys2Proof

/-- `BASE` of a record is an `AW`-bit number (R51). -/
def Command.wf (aw : Nat) (c : Command) : Bool := decide (c.base < 2 ^ aw)

/-- An operation is well formed when its record is (R51, R56). -/
def Instr.wf (aw : Nat) : Instr → Bool
  | .hash base len seed => Command.wf aw ⟨base, len, seed⟩
  | .init => true
  | .xor8 => true
  | .xor4 => true
  | .xor2 => true
  | .xor1 => true
  | .fold => true
  | .norm => true
  | .blend => true
  | .ret => true

end Sys2Proof
end

