-- ==== Sys2Proof/Decode.lean ====
section
/-! DEFINITION. Decoding, in the two senses this hardware has (30_encoding.md rule R50).

* Format `CMD`: a command record, packed as `CMDWORD = {BASE, SEED, LEN}` (R51), is read as a `HASH`; there is no other command.
* Format `LENCTL`: the fields of `LEN` (R52) say which micro-operations run, how often and in what order (R53, R54, R59).

The encoder stands after the decoder. The layout of the packed word in bytes is the model's choice (log entry 8). -/

namespace Sys2Proof

/-! ### Format CMD -/

/-- Why a byte sequence is not a packed command record. No value of the record itself is refused (R56). -/
inductive DecodeError where
  /-- fewer bytes than the record of `64 + AW` bits needs -/
  | truncated
  /-- the last byte holds bits above bit `63 + AW`, which the record does not have (R51) -/
  | strayBits
deriving DecidableEq, Repr

/-- The number whose byte `k` (of weight `256 ^ k`) is the `k`-th of the list. -/
def bytesToNat : List Byte → Nat
  | [] => 0
  | b :: bs => b.toNat + 256 * bytesToNat bs

/-- The `n` least significant bytes of a number, least significant first. -/
def natToBytes : Nat → Nat → List Byte
  | 0, _ => []
  | n + 1, v => BitVec.ofNat 8 v :: natToBytes n (v / 256)

/-- How many bytes hold the `64 + AW` bits of a packed record (R51; log entry 8). -/
def recordBytes (aw : Nat) : Nat := (64 + aw + 7) / 8

/-- The canonical packing `CMDWORD = {BASE[AW-1:0], SEED[31:0], LEN[31:0]}` (R51). -/
def Command.word (c : Command) : Nat := c.base * 2 ^ 64 + c.seed.toNat * 2 ^ 32 + c.len.toNat

/-- The fields of a `CMDWORD`: `LEN` at bits 31:0, `SEED` at bits 63:32, `BASE` above (R51). -/
def Command.ofWord (w : Nat) : Command :=
  ⟨w / 2 ^ 64, BitVec.ofNat 32 w, BitVec.ofNat 32 (w / 2 ^ 32)⟩

/-- Every record selects `HASH` (R50). -/
def Command.toInstr (c : Command) : Instr := .hash c.base c.len c.seed

/-- Reads one packed record from the front of a byte sequence: the operation and the bytes after it. Total; rejects by name. -/
def decode (aw : Nat) (bytes : List Byte) : Except DecodeError (Instr × List Byte) :=
  if bytes.length < recordBytes aw then .error .truncated
  else
    let w := bytesToNat (bytes.take (recordBytes aw))
    if w < 2 ^ (64 + aw) then .ok ((Command.ofWord w).toInstr, bytes.drop (recordBytes aw))
    else .error .strayBits

/-- The bytes of an operation's packed record: `HASH` has one; a micro-operation is selected by bits of `LEN` and has no record of
its own (R50, R53). -/
def encode (aw : Nat) : Instr → Option (List Byte)
  | .hash base len seed => some (natToBytes (recordBytes aw) (Command.word ⟨base, len, seed⟩))
  | .init => none
  | .xor8 => none
  | .xor4 => none
  | .xor2 => none
  | .xor1 => none
  | .fold => none
  | .norm => none
  | .blend => none
  | .ret => none

/-- The operation read from a word of spec/opcode_table.json: the packed record whose bits are `w`, numbered as the table numbers
them, every bit above `nbits` zero. The address width taken is what `nbits` leaves above `SEED`, at least 1 (log entry 9). -/
def decodeTableWord (nbits w : Nat) : Option Instr :=
  let aw := max 1 (nbits - 64)
  match decode aw (natToBytes (recordBytes aw) (w % 2 ^ nbits)) with
  | .ok (i, _) => some i
  | .error _ => none

/-! ### Format LENCTL -/

/-- `G = LEN[31:3]`, the number of full groups (R20, R52). -/
def lenG (len : Word32) : BitVec 29 := len.extractLsb' 3 29

/-- `T4 = LEN[2]` (R20, R52). -/
def lenT4 (len : Word32) : Bool := len.getLsbD 2

/-- `T2 = LEN[1]` (R20, R52). -/
def lenT2 (len : Word32) : Bool := len.getLsbD 1

/-- `T1 = LEN[0]` (R20, R52). -/
def lenT1 (len : Word32) : Bool := len.getLsbD 0

/-- The `mask` column of R53. -/
def Instr.mask : Instr → Word32
  | .hash _ _ _ => 0
  | .init => 0
  | .xor8 => 0
  | .xor4 => 4
  | .xor2 => 2
  | .xor1 => 1
  | .fold => 0
  | .norm => 0
  | .blend => 0
  | .ret => 0

/-- The `match` column of R53. -/
def Instr.matchBits : Instr → Word32
  | .hash _ _ _ => 0
  | .init => 0
  | .xor8 => 0
  | .xor4 => 4
  | .xor2 => 2
  | .xor1 => 1
  | .fold => 0
  | .norm => 0
  | .blend => 0
  | .ret => 0

/-- An operation is enabled when `LEN & mask = match` (R53). -/
def Instr.enabled (i : Instr) (len : Word32) : Bool := decide (len &&& i.mask = i.matchBits)

/-- How many times a micro-operation runs in an invocation of length `len`: the `times run` column of R53. `HASH` is the invocation
itself, not a micro-operation of it. -/
def Instr.timesRun (len : Word32) : Instr → Nat
  | .hash _ _ _ => 0
  | .init => 1
  | .xor8 => (lenG len).toNat
  | .xor4 => (lenT4 len).toNat
  | .xor2 => (lenT2 len).toNat
  | .xor1 => (lenT1 len).toNat
  | .fold => 1
  | .norm => 1
  | .blend => 1
  | .ret => 1

/-- `BULK g` (R59). -/
def bulk (g : Nat) : List Instr := List.replicate g .xor8

/-- `TAILr` for `r = {T4, T2, T1}` (R54, R59). -/
def tail (len : Word32) : List Instr :=
  (if lenT4 len then [.xor4] else []) ++ (if lenT2 len then [.xor2] else []) ++ (if lenT1 len then [.xor1] else [])

/-- `FINISH` (R59). -/
def finish : List Instr := [.fold, .norm, .blend]

/-- The expansion of `HASH base, len, seed`: `INIT; BULK (len div 8); TAIL(len mod 8); FINISH; RET` (R59, R53). -/
def expansion (len : Word32) : List Instr :=
  [.init] ++ bulk (lenG len).toNat ++ tail len ++ finish ++ [.ret]

end Sys2Proof
end

