-- ==== Sys2Proof/Config.lean ====
section
/-! DEFINITION. The two open parameters of the block, `BYTE_ORDER` and `AW` (00_scope.md rule R3, 92_eei_decisions.md D1, D2).

They are carried in the field `params` of State, so that every claim quantifies over them and a test can fix them. The opaque
constants below are the parameters of the one instance `State.reset` stands for: no proof can see their values (log entry 1). -/

namespace Sys2Proof

/-- The native byte order of the block: little- or big-endian, no other (R3, D1). -/
inductive ByteOrder where
  | le
  | be
deriving DecidableEq, Repr, Inhabited

/-- The parameters an instance is built with (R3); `aw` is the width in bits of a byte address, at least 1. -/
structure Params where
  byteOrder : ByteOrder
  aw : Nat
deriving DecidableEq, Repr

/-- `BYTE_ORDER` of the instance behind `State.reset`: left OPEN by the spec (D1), so without a body. -/
opaque Config.byteOrder : ByteOrder

/-- `AW - 1` of the instance behind `State.reset`: `AW` is left OPEN by the spec (D2), so without a body. -/
opaque Config.awPred : Nat

/-- The parameters of the instance behind `State.reset`; `AW >= 1` (R3). -/
def Config.params : Params := ⟨Config.byteOrder, Config.awPred + 1⟩

end Sys2Proof
end

