-- ==== Sys2Proof/Machine/State.lean ====
section
/-! DEFINITION. The state of one instance of the block (10_state.md), its memory, the inputs it gets from outside, its fault and
its refusal, and the state after reset. State is plain data. -/

namespace Sys2Proof.Machine

/-- The memory the block reads (20_memory.md rules R30 to R32): the (address, byte) pairs that exist, addresses strictly rising. An
address that is not listed holds nothing (log entry 4). -/
abbrev Memory := List Host.Cell

/-- A set of addresses, strictly rising: the form of `VALID` (20_memory.md rule R31). -/
abbrev Addrs := List Nat

/-- The caller or another agent changes the readability of one address (70_reset_and_hazards.md rule R144). -/
structure Remap where
  addr : Nat
  /-- whether the address is readable from now on. One that becomes readable is in the `VALID` of the commands accepted from now on (R31); one
  that does not stay readable is answered to no invocation, which faults if it reads it (R41) -/
  readable : Bool
  /-- the byte that is there from now on -/
  byte : Byte
deriving DecidableEq, Repr

/-- The phases of the sequencer, symbolic and in this order (10_state.md rule R18, R61). -/
inductive Phase where
  | idle
  | p8
  | p4
  | p2
  | p1
  | pf
  | pn
  | pb
  | done
deriving DecidableEq, Repr

/-- What the outside does at one step (70_reset_and_hazards.md rules R141, R144; 40_command.md rules R73, R76; 20_memory.md rule R46).
The default is a quiet step: nothing is offered, taken, reset or changed (log entry 5). -/
structure HostInput where
  /-- reset is applied at this step (R141) -/
  reset : Bool := false
  /-- the command record offered at this step (R76) -/
  offer : Option Command := none
  /-- the caller takes the response at this step (R73) -/
  take : Bool := false
  /-- changes of which addresses are readable, at the start of the step, before an acceptance in it (R144). The `VALID` of an invocation in
  progress is fixed (R31), so an address that becomes readable is not in it; a byte of its window that the caller makes unreadable, which the
  caller must not do, is no longer answered (R41; log entry 20) -/
  remap : List Remap := []
  /-- writes by other agents to bytes that exist (R46): the first list lands before the first byte read of this step, the second before
  the second, and so on, since only a byte read is atomic (R36); those beyond the reads land at the end of the step (log entry 15) -/
  writes : List (List (Nat × Byte)) := []
deriving DecidableEq, Repr

/-- The state of one instance. The registers are those of 10_state.md section 2; `params`, `mem`, `readable`, `valid`,
`pending`, `inputs`, `reads` and `responses` are said to be the parameters, the environment and the model's own histories in INVENTORY.md. -/
structure State where
  /-- `BYTE_ORDER` and `AW`: fixed at instantiation, written by nothing (R3, R19; log entry 1) -/
  params : Params
  /-- `PH`, the sequencer's phase (R18) -/
  ph : Phase
  /-- `ACC`, the 64-bit accumulator (R11) -/
  acc : Word64
  /-- `RES`, the running result (R12) -/
  res : Word32
  /-- `POS`, the read position as an offset from `BASE` (R13) -/
  pos : Word32
  /-- `BOFF`, the bit offset of the last byte (R14) -/
  boff : BitVec 5
  /-- `FLD`, the fold (R15) -/
  fld : Word32
  /-- `NRM`, the normalised fold (R15) -/
  nrm : Word32
  /-- `BASE`, the latched address of the first byte, below `2 ^ AW` (R16; log entry 11) -/
  base : Nat
  /-- `LEN`, the latched length (R16) -/
  len : Word32
  /-- `SEED`, the latched seed (R16) -/
  seed : Word32
  /-- `DIGEST`, the response (R17) -/
  digest : Word32
  /-- the model-level fault recorded for the instance, by its address; `none` where there is none (R121, R125, R142 P4; log entry 14) -/
  fault : Option Nat
  /-- the memory the environment answers reads from (R19, R32) -/
  mem : Memory
  /-- the addresses that are readable now: the `VALID` of a command accepted now (R31, R39); no read of another one is answered (R41, R144) -/
  readable : Addrs
  /-- the `VALID` of the invocation in progress: what was readable when its command was accepted, fixed until the next acceptance or a reset
  (R31). It binds no other instance and not the caller. In `IDLE` no step reads it. After a fault it stays and no step reads it until a
  reset: whether an invocation that ended so still fixes `VALID` the spec leaves open, and this is the model's choice (log entry 20) -/
  valid : Addrs
  /-- writes of other agents that have not landed yet: the first list lands before the next byte read (R36, R46; log entry 15). Between
  steps there are none -/
  pending : List (List (Nat × Byte))
  /-- what the outside does at the coming steps, the next step first; past its end every step is quiet (log entry 5) -/
  inputs : List HostInput
  /-- the addresses read since the last acceptance, oldest first: a history that no operation reads (R37; log entry 13) -/
  reads : List Nat
  /-- the digests handed to the caller so far, oldest first: a history that no operation reads (R73; log entry 13) -/
  responses : List Word32
deriving DecidableEq, Repr

/-- Why the model stops. -/
inductive Fault where
  /-- Raised by `State.memRead` for the micro-operations that read memory: `addr` is the lowest address of the access that is outside
  `VALID`, or in it and made unreadable meanwhile by the caller (R41, R121, R123, R144); raised again by every later step until a reset (R121, R125). The hardware detects
  nothing and the source calls the behaviour undefined, so no value is returned.
  Safe: the model stops where the chip would do something unspecified. -/
  | outOfBuffer (addr : Nat)
deriving DecidableEq, Repr

/-- Why the model gives no meaning. The block itself refuses nothing (R56, R121). -/
inductive Refusal where
  /-- Raised by a refused arm of `exec`, if there is one: the operation has no meaning yet. Safe: nothing is said of it. -/
  | notModelled (mnemonic : String)
deriving DecidableEq, Repr

/-- An instance with parameters `p` right after reset (R22): `PH = IDLE`. The spec leaves every other register unspecified; the zeros
are the model's (log entry 2). Nothing is in memory, no fault is recorded, nothing comes from outside, nothing has been
read or answered. -/
def State.resetWith (p : Params) : State where
  params := p
  ph := .idle
  acc := 0
  res := 0
  pos := 0
  boff := 0
  fld := 0
  nrm := 0
  base := 0
  len := 0
  seed := 0
  digest := 0
  fault := none
  mem := []
  readable := []
  valid := []
  pending := []
  inputs := []
  reads := []
  responses := []

/-- The machine right after reset, for parameters nothing is known of (R3, R22; log entries 1 and 2). -/
def State.reset : State := State.resetWith Config.params

end Sys2Proof.Machine
end

