-- ==== Sys2Proof/Machine/Operands.lean ====
section
/-! DEFINITION. The operand forms and the data paths: the effective address (20_memory.md rule R40), the unaligned byte-load mux
`LDMUX` (R33), byte lanes, the fold and the byte-order normaliser (42_finalize.md rules R90, R91). -/

namespace Sys2Proof.Machine

/-- The effective address `EA = BASE + POS`, in natural numbers (R40). -/
def State.ea (s : State) : Nat := s.base + s.pos.toNat

/-- Lane `j` of a value is bits `8j+7` to `8j`; lane 0 is the least significant byte (00_scope.md section 5). -/
def lane {w : Nat} (v : BitVec w) (j : Nat) : Byte := v.extractLsb' (8 * j) 8

/-- The 64-bit value whose lane `k` is the `k`-th byte of the list. -/
def packLanes : List Byte → Word64
  | [] => 0
  | b :: bs => (packLanes bs <<< 8) ||| b.setWidth 64

/-- What `LDMUX` assembles from bytes at ascending addresses, zero-extended to 64 bits (R33, R34): for `LE` byte `k` is lane `k`, for
`BE` byte `k` of `n` is lane `n - 1 - k`. -/
def assemble (bo : ByteOrder) (bytes : List Byte) : Word64 :=
  match bo with
  | .le => packLanes bytes
  | .be => packLanes bytes.reverse

/-- The 64-to-32-bit fold: the low half XORed with the high half (R90). -/
def foldHalves (v : Word64) : Word32 := v.extractLsb' 0 32 ^^^ v.extractLsb' 32 32

/-- Lane `j` of the result is lane `3 - j` of the operand (00_scope.md section 5). -/
def bswap32 (v : Word32) : Word32 := lane v 0 ++ lane v 1 ++ lane v 2 ++ lane v 3

/-- Native to big-endian order: the bytes reversed for `LE`, the value itself for `BE` (R91). -/
def toBe32 (bo : ByteOrder) (v : Word32) : Word32 :=
  match bo with
  | .le => bswap32 v
  | .be => v

end Sys2Proof.Machine
end

