-- ==== Sys2Proof/Machine/Flags.lean ====
section
/-! DEFINITION. The block has no status flags and no condition codes (10_state.md rule R20). Its control decisions are the predicates
of the latched `LEN` and one comparison of `POS` with it; its only flag-like state is `BOFF` (R14, R20). -/

namespace Sys2Proof.Machine

/-- `POS[31:3] = G`: all full groups are done (40_command.md rule R71, 92_eei_decisions.md D6). -/
def groupsDone (pos len : Word32) : Bool := decide (pos.extractLsb' 3 29 = lenG len)

/-- The value `XOR2` gives `BOFF` (R14, R82). -/
def boffArmed : BitVec 5 := 16

/-- The spelling of `XOR1` that shows the `BOFF` it sees, `XOR1.0` or `XOR1.16` (30_encoding.md rule R58). -/
def xor1Spelling (boff : BitVec 5) : String := if boff = boffArmed then "XOR1.16" else "XOR1.0"

end Sys2Proof.Machine
end

