-- ==== Sys2Proof/Machine/Ops.lean ====
section
/-! DEFINITION. The named operations over memory and registers that the meanings share: memory as a finite map, `MemRead`
(20_memory.md rule R32), one accumulate step over it, acceptance of a command, the reset event, and sequencing of outcomes.

TAKING AN EXCEPTION: the block has none, nor a return from one (60_exceptions.md rules R120, R124, R125), so there is no such
operation; the one abnormal outcome is the model-level fault that `accumulate` answers with when a read leaves `VALID` or
meets what the caller has made unreadable (R121, R144). -/

namespace Sys2Proof.Machine

/-- The outcome of one operation of this machine. -/
abbrev Out := Host.Outcome State Fault Refusal

/-- Goes on with `f` when the outcome is a next state, stops with the outcome otherwise. -/
def andThen (o : Out) (f : State → Out) : Out :=
  match o with
  | .next s => f s
  | .fault r => .fault r
  | .refused r => .refused r

/-! ### Memory -/

/-- The byte an address holds, or nothing where it is not listed. -/
def Memory.read : Memory → Nat → Option Byte
  | [], _ => none
  | (k, b) :: m, a => if a = k then some b else Memory.read m a

/-- Puts a byte at an address; the addresses stay strictly rising. -/
def Memory.write : Memory → Nat → Byte → Memory
  | [], a, b => [(a, b)]
  | (k, c) :: m, a, b =>
    if a < k then (a, b) :: (k, c) :: m
    else if a = k then (a, b) :: m
    else (k, c) :: Memory.write m a b

/-- The canonical form: addresses strictly rising. (An unlisted address reads as nothing, so no entry can equal what an unlisted
address reads as.) -/
abbrev Memory.wf (m : Memory) : Prop := m.Pairwise fun x y => x.1 < y.1

/-- Puts another byte at an address that holds one; an address that holds none stays so. -/
def Memory.overwrite : Memory → Nat → Byte → Memory
  | [], _, _ => []
  | (k, c) :: m, a, b => if a = k then (a, b) :: m else (k, c) :: Memory.overwrite m a b

/-- Writes by other agents, in order: they change bytes and not which addresses hold one (R46). -/
def Memory.overwrites (m : Memory) : List (Nat × Byte) → Memory
  | [] => m
  | (a, b) :: es => Memory.overwrites (Memory.overwrite m a b) es

/-- The bytes after the remappings of one step, in order (R144). -/
def Memory.changes (m : Memory) : List Remap → Memory
  | [] => m
  | x :: es => Memory.changes (Memory.write m x.addr x.byte) es

/-! ### Sets of addresses -/

/-- Adds an address; the addresses stay strictly rising. -/
def Addrs.insert : Addrs → Nat → Addrs
  | [], a => [a]
  | k :: r, a => if a < k then a :: k :: r else if a = k then k :: r else k :: Addrs.insert r a

/-- Takes an address out. -/
def Addrs.remove (r : Addrs) (a : Nat) : Addrs := r.filter fun k => decide (k ≠ a)

/-- The canonical form: addresses strictly rising. -/
abbrev Addrs.wf (r : Addrs) : Prop := r.Pairwise fun x y => x < y

/-- The readable addresses after the remappings of one step, in order (R144). -/
def Addrs.changes (r : Addrs) : List Remap → Addrs
  | [] => r
  | x :: es => Addrs.changes (if x.readable then Addrs.insert r x.addr else Addrs.remove r x.addr) es

/-! ### Reads -/

/-- The address is in the `VALID` of the invocation in progress (R31); an address of `2 ^ AW` or more is in none (R30, R40). -/
abbrev State.inValid (s : State) (a : Nat) : Prop := a < 2 ^ s.params.aw ∧ a ∈ s.valid

/-- A read of the address is answered: it is in `VALID`, and the caller has not made it unreadable meanwhile (R41, R144; log entry 20). -/
abbrev State.canRead (s : State) (a : Nat) : Prop := s.inValid a ∧ a ∈ s.readable

/-- One byte read (R32): what memory holds at `a` when the read is answered; nothing when it is the fault of R41. -/
def State.readByte (s : State) (a : Nat) : Option Byte :=
  if s.canRead a then Memory.read s.mem a else none

/-- The state in which the writes of other agents before the next `n` byte reads have landed (R36, R46). -/
def State.landed (s : State) (n : Nat) : State :=
  { s with mem := Memory.overwrites s.mem (s.pending.take n).flatten, pending := s.pending.drop n }

/-- `MemRead(addr, n)` (R32): `n` single byte reads at ascending addresses, each of the byte that is there at its moment (R36), or the
lowest address whose read is not answered (R41, R144). -/
def State.memRead (s : State) : Nat → Nat → Except Nat (List Byte)
  | _, 0 => .ok []
  | a, n + 1 =>
    match (s.landed 1).readByte a with
    | none => .error a
    | some b =>
      match State.memRead (s.landed 1) (a + 1) n with
      | .error x => .error x
      | .ok bs => .ok (b :: bs)

/-- What `XOR8`, `XOR4`, `XOR2` and `XOR1` share (R80 to R83): read `n` bytes at `EA`, XOR the value `place` makes of them into `ACC`,
advance `POS` by `n`; what other agents wrote before those byte reads has landed. A read that is not answered ends in the fault, with
nothing written (R41). -/
def accumulate (n : Nat) (place : List Byte → Word64) (s : State) : Out :=
  match s.memRead s.ea n with
  | .error a => .fault (.outOfBuffer a)
  | .ok bytes =>
    .next { s.landed n with
      acc := s.acc ^^^ place bytes
      pos := s.pos + BitVec.ofNat 32 n
      reads := s.reads ++ List.range' s.ea n }

/-! ### Acceptance, reset, inputs -/

/-- Acceptance of a command: `BASE`, `LEN` and `SEED` are latched (R16, R71), and what is readable now is the invocation's `VALID` (R31;
log entry 20). `BASE` keeps its `AW` bits (log entry 11); the history of reads starts anew (log entry 13). -/
def State.accept (s : State) (c : Command) : State :=
  { s with base := c.base % 2 ^ s.params.aw, len := c.len, seed := c.seed, valid := s.readable, reads := [] }

/-- The reset event (R141): the registers are as after reset, whatever the instance was doing, and a recorded fault is cleared (R125); the
parameters, the memory and what is outside the block stay (log entry 3). -/
def State.resetEvent (s : State) : State :=
  { State.resetWith s.params with
    mem := s.mem, readable := s.readable, pending := s.pending, inputs := s.inputs, responses := s.responses }

/-- What the outside does at this step; quiet past the end of the list (log entry 5). -/
def State.input (s : State) : HostInput := s.inputs.headD {}

/-- The end of a step: every write of other agents that has not landed lands (R46). -/
def State.settle (s : State) : State :=
  { s with mem := Memory.overwrites s.mem s.pending.flatten, pending := [] }

/-- The state that a step starts from: its input is used up, its remappings are made, whatever the phase (R144), and the writes of other agents
in it are about to land (R46). The `VALID` of an invocation in progress stays (R31), but what is unreadable now is not answered to it (R41,
R144; log entry 20). -/
def State.begin (s : State) : State :=
  { s.settle with
    inputs := s.inputs.tail
    mem := Memory.changes s.settle.mem s.input.remap
    readable := Addrs.changes s.readable s.input.remap
    pending := s.input.writes }

/-- The state after a step that ended in `OutOfBuffer(a)` (R121): the fault is recorded; `PH` and the registers stay as they were, and what
the outside did in that step has happened. -/
def State.recordFault (s : State) (a : Nat) : State := State.settle { s.begin with fault := some a }

end Sys2Proof.Machine
end

