-- ==== Sys2Proof/Machine/Accumulate.lean ====
section
/-! DEFINITION. The four micro-operations that read the buffer (41_accumulate.md rules R80 to R83). -/

namespace Sys2Proof.Machine

/-- `XOR8` (R80): `ACC <- ACC ^ LOAD8(BASE + POS)`, `POS <- POS + 8`. -/
def execXor8 (s : State) : Out := accumulate 8 (assemble s.params.byteOrder) s

/-- `XOR4` (R81): `ACC <- ACC ^ zext_64(LOAD4(BASE + POS))`, `POS <- POS + 4`. -/
def execXor4 (s : State) : Out := accumulate 4 (assemble s.params.byteOrder) s

/-- `XOR2` (R82): `ACC <- ACC ^ zext_64(LOAD2(BASE + POS))`, `POS <- POS + 2`, `BOFF <- 16`. -/
def execXor2 (s : State) : Out :=
  andThen (accumulate 2 (assemble s.params.byteOrder) s) fun t => .next { t with boff := boffArmed }

/-- `XOR1` (R83): `ACC <- ACC ^ (zext_64(LOAD1(BASE + POS)) << BOFF)`, `POS <- POS + 1`. -/
def execXor1 (s : State) : Out :=
  accumulate 1 (fun bytes => assemble s.params.byteOrder bytes <<< s.boff.toNat) s

end Sys2Proof.Machine
end

