-- ==== Sys2Proof/Machine/Finalize.lean ====
section
/-! DEFINITION. The three micro-operations that turn the accumulator into the digest (42_finalize.md rules R90 to R92). -/

namespace Sys2Proof.Machine

/-- `FOLD` (R90): `FLD <- ACC[31:0] ^ ACC[63:32]`. -/
def execFold (s : State) : Out := .next { s with fld := foldHalves s.acc }

/-- `NORM` (R91): `NRM <- to_be32(FLD)`. -/
def execNorm (s : State) : Out := .next { s with nrm := toBe32 s.params.byteOrder s.fld }

/-- `BLEND` (R92): `RES <- RES ^ NRM`. -/
def execBlend (s : State) : Out := .next { s with res := s.res ^^^ s.nrm }

end Sys2Proof.Machine
end

