-- ==== Sys2Proof/Machine/Command.lean ====
section
/-! DEFINITION. The command `HASH` as a whole and the micro-operations that open and close it (40_command.md rules R70, R72, R73). -/

namespace Sys2Proof.Machine

/-- `INIT` (R72): `ACC <- 0`, `RES <- SEED`, `POS <- 0`, `BOFF <- 0`. -/
def execInit (s : State) : Out := .next { s with acc := 0, res := s.seed, pos := 0, boff := 0 }

/-- `RET` (R73): `DIGEST <- RES`, `PH <- IDLE`; the response is handed to the caller. That the other registers keep what they held is the
model's own: they are stale then, and nothing is said of them (R147, U6; log entry 19). -/
def execRet (s : State) : Out :=
  .next { s with digest := s.res, ph := .idle, responses := s.responses ++ [s.res] }

/-- `BULK g` (R59): `XOR8` `g` times. -/
def execBulk : Nat → State → Out
  | 0, s => .next s
  | g + 1, s => andThen (execXor8 s) (execBulk g)

/-- `f` when the enabling bit of `LEN` is set, nothing otherwise (R53). -/
def gated (enable : Bool) (f : State → Out) (s : State) : Out := if enable then f s else .next s

/-- `TAILr` (R54, R59): the remainder micro-operations that the low bits of the latched `LEN` enable, in order. -/
def execTail (s : State) : Out :=
  andThen (andThen (gated (lenT4 s.len) execXor4 s) (gated (lenT2 s.len) execXor2)) (gated (lenT1 s.len) execXor1)

/-- `FINISH` (R59): `FOLD`, `NORM`, `BLEND`. -/
def execFinish (s : State) : Out := andThen (andThen (execFold s) execNorm) execBlend

/-- The invocation of the latched command: `INIT; BULK (len div 8); TAIL(len mod 8); FINISH; RET` (R59, R70). -/
def invocation (s : State) : Out :=
  andThen (andThen (andThen (andThen (execInit s) (execBulk (lenG s.len).toNat)) execTail) execFinish) execRet

/-- `HASH base, len, seed` as a whole (R70): in `IDLE`, with no fault recorded (R142 P4), the command is latched and its invocation runs
to the delivery of the digest; while the instance is busy or faulted the command has no effect (R76). The sequencer's steps compute the
same (R74; log entry 7); what the working registers hold afterwards is the model's own (log entry 19). -/
def execHash (base : Nat) (len seed : Word32) (s : State) : Out :=
  if s.ph = .idle ∧ s.fault = none then invocation (s.accept ⟨base, len, seed⟩) else .next s

end Sys2Proof.Machine
end

