-- ==== Sys2Proof/Machine/Dispatch.lean ====
section
/-! DEFINITION. The one match from an operation to its meaning. -/

namespace Sys2Proof.Machine

def exec (i : Instr) (s : State) : Host.Outcome State Fault Refusal :=
  match i with
  -- the command (40_command.md)
  | .hash base len seed => Sys2Proof.Machine.execHash base len seed s
  | .init => Sys2Proof.Machine.execInit s
  -- the accumulator (41_accumulate.md)
  | .xor8 => Sys2Proof.Machine.execXor8 s
  | .xor4 => Sys2Proof.Machine.execXor4 s
  | .xor2 => Sys2Proof.Machine.execXor2 s
  | .xor1 => Sys2Proof.Machine.execXor1 s
  -- fold, normalise, blend (42_finalize.md)
  | .fold => Sys2Proof.Machine.execFold s
  | .norm => Sys2Proof.Machine.execNorm s
  | .blend => Sys2Proof.Machine.execBlend s
  -- the response (40_command.md)
  | .ret => Sys2Proof.Machine.execRet s

end Sys2Proof.Machine
end

