-- ==== Sys2Proof/Machine/Sequencer.lean ====
section
/-! DEFINITION. The sequencer (40_command.md rule R71): which micro-operation a phase selects, the phase after it, and one row of the
table as an operation on the state. -/

namespace Sys2Proof.Machine

/-- The micro-operation a row of R71 performs, if it performs one. `offered`: a command is offered; `taken`: the caller takes the
response. -/
def selectOp (ph : Phase) (pos len : Word32) (offered taken : Bool) : Option Instr :=
  match ph with
  | .idle => if offered then some .init else none
  | .p8 => if groupsDone pos len then none else some .xor8
  | .p4 => if lenT4 len then some .xor4 else none
  | .p2 => if lenT2 len then some .xor2 else none
  | .p1 => if lenT1 len then some .xor1 else none
  | .pf => some .fold
  | .pn => some .norm
  | .pb => some .blend
  | .done => if taken then some .ret else none

/-- The `PH after` column of R71. -/
def phaseAfter (ph : Phase) (pos len : Word32) (offered taken : Bool) : Phase :=
  match ph with
  | .idle => if offered then .p8 else .idle
  | .p8 => if groupsDone pos len then .p4 else .p8
  | .p4 => .p2
  | .p2 => .p1
  | .p1 => .pf
  | .pf => .pn
  | .pn => .pb
  | .pb => .done
  | .done => if taken then .idle else .done

/-- An offered command is latched in `IDLE` and has no effect in any other phase (R71, R76). -/
def State.latchOffer (s : State) (offer : Option Command) : State :=
  match s.ph, offer with
  | .idle, some c => s.accept c
  | _, _ => s

/-- One row of R71 from a state whose input `e` is already used up: the offer is latched, the selected micro-operation is performed,
`PH` advances. A row that performs none changes `PH` only; "no step" is a row that changes nothing (R121; log entry 6). -/
def row (e : HostInput) (s : State) : Out :=
  match selectOp s.ph s.pos s.len e.offer.isSome e.take with
  | none => .next { s with ph := phaseAfter s.ph s.pos s.len e.offer.isSome e.take }
  | some i =>
    andThen (exec i (s.latchOffer e.offer)) fun t =>
      .next { t with ph := phaseAfter s.ph s.pos s.len e.offer.isSome e.take }

/-- One step with the input `e`: reset overrides everything (R141), and it is the only way on from a recorded fault (R125); without it a
recorded fault answers again (R121); otherwise the step is the row of R71. -/
def stepWith (e : HostInput) (s : State) : Out :=
  if e.reset then .next s.resetEvent
  else
    match s.fault with
    | some a => .fault (.outOfBuffer a)
    | none => row e s

/-- The entry a step's row makes in a micro-operation trace: the spelling, and the address where it reads one (R58). -/
def traceEntry (e : HostInput) (s : State) : Option (String × Option Nat) :=
  match selectOp s.ph s.pos s.len e.offer.isSome e.take with
  | some .xor8 => some ("XOR8", some s.ea)
  | some .xor4 => some ("XOR4", some s.ea)
  | some .xor2 => some ("XOR2", some s.ea)
  | some .xor1 => some (xor1Spelling s.boff, some s.ea)
  | some i => some (i.mnemonic, none)
  | none => none

/-- A list of operations one after another: the reading of a pseudo-operation's expansion (R59). -/
def runOps : List Instr → State → Out
  | [], s => .next s
  | i :: is, s => andThen (exec i s) (runOps is)

end Sys2Proof.Machine
end

