-- ==== Sys2Proof/Machine/Step.lean ====
section
/-! DEFINITION. One step of the block: the input of this step is used up, then either the reset event or one row of the sequencer's table
happens, then what is left of other agents' writes lands (40_command.md rule R71, 70_reset_and_hazards.md rule R141). -/

namespace Sys2Proof.Machine

/-- One step. -/
def step (s : State) : Host.Outcome State Fault Refusal :=
  andThen (stepWith s.input s.begin) fun t => .next t.settle

/-- `s` in `IDLE`, no fault recorded, with the command read from a table word offered at the next step: the block fetches nothing, so an
offer is what "the next instruction" is (R18, R71; log entry 10). -/
def State.withFetchWord (s : State) (nbits w : Nat) : State :=
  { s with
    ph := .idle
    fault := none
    inputs :=
      { offer := match decodeTableWord nbits w with
          | some (.hash base len seed) => some ⟨base, len, seed⟩
          | _ => none } :: s.inputs }

end Sys2Proof.Machine
end

