-- ==== Sys2Proof/Machine/Run.lean ====
section
/-! DEFINITION. A run that goes on past a fault: `step` says what a step's outcome is (60_exceptions.md rule R121), `State.advance` says in
which state the instance is afterwards, so that a reset can follow a fault (R125). -/

namespace Sys2Proof.Machine

/-- The state after one step, whatever its outcome: the next state; the state with the fault recorded (R121, R125); a refusal, which no
step answers with, would change nothing. -/
def State.advance (s : State) : State :=
  match step s with
  | .next t => t
  | .fault (.outOfBuffer a) => s.recordFault a
  | .refused _ => s

/-- `k` steps, going on past a fault. -/
def State.advances : Nat → State → State
  | 0, s => s
  | k + 1, s => State.advances k s.advance

end Sys2Proof.Machine
end

