-- ==== Sys2Proof/Machine/System.lean ====
section
/-! DEFINITION. Several instances over one memory (60_exceptions.md rule R127, 20_memory.md rule R45): replication, nothing shared but
the memory they read. Which instance moves next is given from outside (log entry 18). -/

namespace Sys2Proof.Machine

/-- Several instances and the one memory they read: its bytes, and which addresses are readable. The fields `mem` and `readable` of an
instance are what that memory was when it last moved; its `valid` is its own (R31) and binds no other instance, after a fault either (log
entry 20). -/
structure System where
  mem : Memory
  readable : Addrs
  instances : List State
deriving DecidableEq, Repr

/-- An instance over the shared memory: as it moves next. -/
def System.mover (sys : System) (s : State) : State := { s with mem := sys.mem, readable := sys.readable }

/-- Instance `k` takes one step; nothing where there is no such instance. What its input does to memory is done to the shared memory, and
touches no other instance's `VALID` (R31, R144). An instance whose step ends in a fault has it recorded and stops no other (R121, R127). -/
def System.stepAt (sys : System) (k : Nat) : Option System :=
  match sys.instances[k]? with
  | none => none
  | some s =>
    some ⟨(sys.mover s).advance.mem, (sys.mover s).advance.readable, sys.instances.set k (sys.mover s).advance⟩

/-- The instances move in the order of a schedule; where it names no instance, nothing happens. -/
def System.run : List Nat → System → System
  | [], sys => sys
  | k :: ks, sys => System.run ks ((sys.stepAt k).getD sys)

end Sys2Proof.Machine
end

