-- ==== Sys2Proof/Machine/HashFunction.lean ====
section
/-! DEFINITION. The normative function of the command (40_command.md rule R70), over a memory `M` that gives every address a byte.
No meaning calls it: the claims compare the machine with it. `LOADn` stands here as the sum of R33, not as the machine's mux. -/

namespace Sys2Proof.Machine

/-- `LOADn(a)` as the sum of R33: byte `k` of `n` has weight `2^(8k)` for `LE` and `2^(8(n-1-k))` for `BE`. -/
def loadVal (bo : ByteOrder) (M : Nat → Byte) (a n : Nat) : Nat :=
  ((List.range n).map fun k =>
    (M (a + k)).toNat * 2 ^ (8 * (match bo with | .le => k | .be => n - 1 - k))).sum

/-- `zext_64(LOADn(a))`: the same natural number in 64 bits (R33). -/
def loadWord (bo : ByteOrder) (M : Nat → Byte) (a n : Nat) : Word64 := BitVec.ofNat 64 (loadVal bo M a n)

/-- Step 2 of R70, `n` times, from the variables `ACC` and `POS`. -/
def hashBulk (bo : ByteOrder) (M : Nat → Byte) (base : Nat) : Nat → Word64 → Nat → Word64 × Nat
  | 0, acc, pos => (acc, pos)
  | n + 1, acc, pos => hashBulk bo M base n (acc ^^^ loadWord bo M (base + pos) 8) (pos + 8)

/-- `ACC` after steps 1 to 6 of R70. -/
def hashAcc (bo : ByteOrder) (M : Nat → Byte) (base : Nat) (len : Word32) : Word64 :=
  let (acc, pos) := hashBulk bo M base (len.toNat / 8) 0 0
  let (acc, pos) := if len.getLsbD 2 then (acc ^^^ loadWord bo M (base + pos) 4, pos + 4) else (acc, pos)
  let (acc, pos, boff) :=
    if len.getLsbD 1 then (acc ^^^ loadWord bo M (base + pos) 2, pos + 2, 16) else (acc, pos, 0)
  if len.getLsbD 0 then acc ^^^ (loadWord bo M (base + pos) 1 <<< boff) else acc

/-- `hash(M, base, len, seed)` (R70): steps 7 to 9 on that accumulator; the seed enters by a XOR and is not normalised (R95). -/
def hashFunction (bo : ByteOrder) (M : Nat → Byte) (base : Nat) (len seed : Word32) : Word32 :=
  seed ^^^ toBe32 bo (foldHalves (hashAcc bo M base len))

end Sys2Proof.Machine
end

