-- ==== Sys2Proof/Machine/Lanes.lean ====
section
/-! DEFINITION. Where each buffer byte lands: in a lane of `ACC` (41_accumulate.md rule R84) and in a lane of the digest
(42_finalize.md rule R93). Tables transcribed for the claims; no meaning uses them. -/

namespace Sys2Proof.Machine

/-- The table of R84: the `ACC` lanes of the remainder bytes `t = 0, 1, ...` for the remainder length `r`. -/
def accTailLanes (bo : ByteOrder) (r : Nat) : List Nat :=
  match bo, r with
  | .le, 1 => [0]
  | .le, 2 => [0, 1]
  | .le, 3 => [0, 1, 2]
  | .le, 4 => [0, 1, 2, 3]
  | .le, 5 => [0, 1, 2, 3, 0]
  | .le, 6 => [0, 1, 2, 3, 0, 1]
  | .le, 7 => [0, 1, 2, 3, 0, 1, 2]
  | .be, 1 => [0]
  | .be, 2 => [1, 0]
  | .be, 3 => [1, 0, 2]
  | .be, 4 => [3, 2, 1, 0]
  | .be, 5 => [3, 2, 1, 0, 0]
  | .be, 6 => [3, 2, 1, 0, 1, 0]
  | .be, 7 => [3, 2, 1, 0, 1, 0, 2]
  | _, _ => []

/-- The `ACC` lane of the byte at offset `p < len` (R84). -/
def accLane (bo : ByteOrder) (len p : Nat) : Nat :=
  if p < 8 * (len / 8) then
    match bo with
    | .le => p % 8
    | .be => 7 - p % 8
  else (accTailLanes bo (len % 8)).getD (p - 8 * (len / 8)) 0

/-- The table of R93: the digest lanes of the remainder bytes. -/
def digestTailLanes (bo : ByteOrder) (r : Nat) : List Nat :=
  match bo, r with
  | .le, 1 => [3]
  | .le, 2 => [3, 2]
  | .le, 3 => [3, 2, 1]
  | .le, 4 => [3, 2, 1, 0]
  | .le, 5 => [3, 2, 1, 0, 3]
  | .le, 6 => [3, 2, 1, 0, 3, 2]
  | .le, 7 => [3, 2, 1, 0, 3, 2, 1]
  | .be, 1 => [0]
  | .be, 2 => [1, 0]
  | .be, 3 => [1, 0, 2]
  | .be, 4 => [3, 2, 1, 0]
  | .be, 5 => [3, 2, 1, 0, 0]
  | .be, 6 => [3, 2, 1, 0, 1, 0]
  | .be, 7 => [3, 2, 1, 0, 1, 0, 2]
  | _, _ => []

/-- The digest lane of the byte at offset `p < len` (R93). -/
def digestLane (bo : ByteOrder) (len p : Nat) : Nat :=
  if p < 8 * (len / 8) then 3 - p % 4
  else (digestTailLanes bo (len % 8)).getD (p - 8 * (len / 8)) 0

/-- The compact form of R93: all bytes below `q = 4 * (len div 4)` in both orders, then the last `len mod 4` bytes. -/
def digestLaneCompact (bo : ByteOrder) (len p : Nat) : Nat :=
  if p < 4 * (len / 4) then 3 - p % 4
  else
    match bo with
    | .le => 3 - (p - 4 * (len / 4))
    | .be =>
      match len % 4 with
      | 1 => [0].getD (p - 4 * (len / 4)) 0
      | 2 => [1, 0].getD (p - 4 * (len / 4)) 0
      | 3 => [1, 0, 2].getD (p - 4 * (len / 4)) 0
      | _ => 0

/-- The XOR of `f 0`, ..., `f (n - 1)`. -/
def xorOver {w : Nat} (f : Nat → BitVec w) : Nat → BitVec w
  | 0 => 0
  | n + 1 => xorOver f n ^^^ f n

end Sys2Proof.Machine
end

