-- ==== Sys2Proof/Safety.lean ====
section
/-! DEFINITION. The terms the claims use: runs of several steps, the launch premises of 70_reset_and_hazards.md rule R142, and the
invariant of 10_state.md rule R23. -/

namespace Sys2Proof.Machine

/-- `k` steps, stopping at the first fault. -/
def steps : Nat → State → Out
  | 0, s => .next s
  | k + 1, s => andThen (step s) (steps k)

/-- The next `n` byte reads, at the addresses from `a` up, are answered with the bytes of `M`, each at its moment (R31, R32, R36).
Where no write of another agent is pending, that is what memory holds. -/
def State.holds (s : State) (M : Nat → Byte) (a n : Nat) : Prop :=
  ∀ k, k < n → (s.landed (k + 1)).readByte (a + k) = some (M (a + k))

/-- The launch premises of R142 that are about the instance and its memory: `IDLE` with no fault recorded (P4), a `BASE` of `AW` bits (R16)
and a window that does not pass the end of the address space (P3), whose bytes are readable when the command is offered, so that its `VALID`
has them, and are found as those of `M` (P1, P5; with writes of others pending, the oracle reading of R46). P2 is about the inputs of the
run; P6 is that `byteOrder` of the instance is used in the function compared with. -/
def State.launch (s : State) (M : Nat → Byte) (c : Command) : Prop :=
  s.ph = .idle ∧ s.fault = none ∧ c.wf s.params.aw = true ∧ c.base + c.len.toNat ≤ 2 ^ s.params.aw ∧
    (s.accept c).holds M c.base c.len.toNat

/-- No reset among the first `n` inputs. -/
def State.noReset (s : State) (n : Nat) : Prop := ∀ e ∈ s.inputs.take n, e.reset = false

/-- The address is in the window of the command (R31). -/
abbrev inWindow (c : Command) (a : Nat) : Prop := c.base ≤ a ∧ a < c.base + c.len.toNat

/-- What the caller must not do meanwhile (R144, P2 of R142), for the inputs after the first: none of those among the first `n` writes or
remaps a byte of the window. Outside the window they may do anything. -/
def State.undisturbed (s : State) (c : Command) (n : Nat) : Prop :=
  ∀ e ∈ (s.inputs.take n).tail, (∀ x ∈ e.writes.flatten, ¬ inWindow c x.1) ∧ ∀ x ∈ e.remap, ¬ inWindow c x.addr

/-- The outside leaves the memory alone in the next step. -/
def State.silent (s : State) : Prop := s.pending = [] ∧ s.input.remap = [] ∧ s.input.writes = []

/-- What one input does to memory by the end of its step: its remappings, then its writes (R46, R144). -/
def Memory.after (m : Memory) (e : HostInput) : Memory := Memory.overwrites (Memory.changes m e.remap) e.writes.flatten

/-- The memory that the byte read with index `j` in step `k` of a run meets: all that the inputs of the steps before did, then the
remappings of that step and its writes before that read (R36, R46, R144). It does not depend on the block, which never writes (R38). -/
def State.memAt (s : State) (k j : Nat) : Memory :=
  let e := s.inputs.getD k {}
  Memory.overwrites (Memory.changes ((s.inputs.take k).foldl Memory.after s.settle.mem) e.remap) (e.writes.take (j + 1)).flatten

/-- The step, counted from the acceptance as step 0, at which a run reads the byte at offset `p` of a window of `len` bytes (R71). -/
def readStep (len p : Nat) : Nat :=
  if p < 8 * (len / 8) then 1 + p / 8
  else if p < 8 * (len / 8) + 4 * ((len / 4) % 2) then len / 8 + 2
  else if p < 8 * (len / 8) + 4 * ((len / 4) % 2) + 2 * ((len / 2) % 2) then len / 8 + 3
  else len / 8 + 4

/-- The index of that byte read among those of its step (R32, R37). -/
def readIndex (len p : Nat) : Nat :=
  if p < 8 * (len / 8) then p % 8
  else if p < 8 * (len / 8) + 4 * ((len / 4) % 2) then p - 8 * (len / 8)
  else if p < 8 * (len / 8) + 4 * ((len / 4) % 2) + 2 * ((len / 2) % 2) then p - (8 * (len / 8) + 4 * ((len / 4) % 2))
  else 0

/-- The addresses that are readable in step `k` of a run: all that the inputs of the steps before and the remappings of that step have left
(R144). -/
def State.readableAt (s : State) (k : Nat) : Addrs := (s.inputs.take (k + 1)).foldl (fun r e => Addrs.changes r e.remap) s.readable

/-- In a run whose first step accepts `c`, the byte read at offset `p` of the window is answered: its address is in the `VALID` that is taken at
the acceptance (R31), and is readable in the step that reads it (R144). -/
def State.answers (s : State) (c : Command) (p : Nat) : Prop :=
  c.base + p < 2 ^ s.params.aw ∧ c.base + p ∈ s.readableAt 0 ∧ c.base + p ∈ s.readableAt (readStep c.len.toNat p)

/-- The number of steps from the acceptance to `DONE`: `G + 8` (R71, R146). -/
def stepsToDone (len : Word32) : Nat := len.toNat / 8 + 8

/-- The offset that `POS` has on entry to a phase after `P8` (R23 c). -/
def posOnEntry (len : Word32) : Phase → Nat
  | .idle => 0
  | .p8 => 0
  | .p4 => 8 * (lenG len).toNat
  | .p2 => 8 * (lenG len).toNat + 4 * (lenT4 len).toNat
  | .p1 => 8 * (lenG len).toNat + 4 * (lenT4 len).toNat + 2 * (lenT2 len).toNat
  | .pf => len.toNat
  | .pn => len.toNat
  | .pb => len.toNat
  | .done => len.toNat

/-- What `BOFF` is in a phase: 0 until `XOR2` may have run, then `16 * T2` (R14, R20). -/
def boffIn (len : Word32) : Phase → BitVec 5
  | .idle => 0
  | .p8 => 0
  | .p4 => 0
  | .p2 => 0
  | .p1 => if lenT2 len then 16 else 0
  | .pf => if lenT2 len then 16 else 0
  | .pn => if lenT2 len then 16 else 0
  | .pb => if lenT2 len then 16 else 0
  | .done => if lenT2 len then 16 else 0

/-- What holds while an invocation is in progress (R23 a, b, c, e; R13, R15, R16, R20, R37). -/
structure State.Busy (s : State) : Prop where
  /-- `BASE` has `AW` bits (R16) -/
  base_lt : s.base < 2 ^ s.params.aw
  /-- (a) and R20 -/
  boff_eq : s.boff = boffIn s.len s.ph
  /-- (b) -/
  pos_p8 : s.ph = .p8 → s.pos.toNat % 8 = 0 ∧ s.pos.toNat ≤ 8 * (lenG s.len).toNat
  /-- (c) -/
  pos_entry : s.ph ≠ .p8 → s.pos.toNat = posOnEntry s.len s.ph
  /-- the bytes read so far are the window's first `POS` bytes, each once, ascending (R37) -/
  reads_eq : s.reads = List.range' s.base s.pos.toNat
  /-- (e) -/
  res_seed : s.ph ≠ .done → s.res = s.seed
  /-- `FLD` is the fold of `ACC` once `FOLD` has run (R90) -/
  fld_eq : s.ph = .pn ∨ s.ph = .pb ∨ s.ph = .done → s.fld = foldHalves s.acc
  /-- `NRM` is the normalised fold once `NORM` has run (R91) -/
  nrm_eq : s.ph = .pb ∨ s.ph = .done → s.nrm = toBe32 s.params.byteOrder s.fld
  /-- `RES` is the digest once `BLEND` has run (R92) -/
  res_done : s.ph = .done → s.res = s.seed ^^^ s.nrm

/-- What holds while the fault `OutOfBuffer(a)` is recorded, as long as it lasts: the instance is in a phase that reads, and `a` is an address
of its window from `POS` on (R41, R121). That its read was not answered is a fact of the moment of the fault, since the caller may make the
address readable later (`Obligations.StepOutcomes`, `Obligations.AdvanceKeepsInvariant`). -/
structure State.Faulted (s : State) (a : Nat) : Prop where
  ph_reads : s.ph ∈ [.p8, .p4, .p2, .p1]
  in_window : s.base + s.pos.toNat ≤ a ∧ a < s.base + s.len.toNat

/-- The invariant of every step: `AW >= 1` (R3), the memory and the sets of addresses in canonical form, a byte at every readable address and
at every address of `VALID` (R31), no write of another agent left over, R23 while an invocation is in progress, and what a recorded
fault says. In `IDLE` the registers may hold anything (R10, R22, R26). -/
structure State.Inv (s : State) : Prop where
  aw_pos : 1 ≤ s.params.aw
  mem_wf : Memory.wf s.mem
  readable_wf : Addrs.wf s.readable
  valid_wf : Addrs.wf s.valid
  readable_held : ∀ a ∈ s.readable, (Memory.read s.mem a).isSome = true
  valid_held : ∀ a ∈ s.valid, (Memory.read s.mem a).isSome = true
  settled : s.pending = []
  busy : s.ph ≠ .idle → s.Busy
  faulted : ∀ a, s.fault = some a → s.Faulted a

end Sys2Proof.Machine
end

