-- ==== Sys2Proof/Certificates/Slice0/Obligations.lean ====
section
/-! DEFINITION. The statements for the provers. Each docstring names the rule of spec/ it formalises; `Sys2Proof/Tests/Slice0.lean`
holds a witness `witness_<Name>` for each statement with hypotheses. -/

open Sys2Proof Sys2Proof.Machine

/-! ### The command record and the control word (30_encoding.md) -/

/-- Decoding the packed record of a well-formed command gives the command back, whatever follows it (R51; the byte layout is the
model's, log entry 8). -/
def Obligations.DecodeOfEncode : Prop :=
  ∀ (aw base : Nat) (len seed : Word32) (rest : List Byte), (Instr.hash base len seed).wf aw = true →
    ∃ bs, encode aw (.hash base len seed) = some bs ∧ bs.length = recordBytes aw ∧
      decode aw (bs ++ rest) = .ok (.hash base len seed, rest)

/-- Whatever decodes is a well-formed `HASH`, and its bytes are that command's packed record: each record has one meaning (R50, R51; the
byte layout is the model's, log entry 8). -/
def Obligations.EncodeOfDecode : Prop :=
  ∀ (aw : Nat) (bytes : List Byte) (i : Instr) (rest : List Byte), decode aw bytes = .ok (i, rest) →
    i.wf aw = true ∧ (∃ base len seed, i = .hash base len seed) ∧
      ∃ bs, encode aw i = some bs ∧ bytes = bs ++ rest

/-- Every word of `64 + AW` bits decodes: `LEN` is its bits 31:0, `SEED` its bits 63:32, `BASE` its bits from 64 up (R51, R56). -/
def Obligations.EveryRecordDecodes : Prop :=
  ∀ (aw w : Nat) (rest : List Byte), w < 2 ^ (64 + aw) →
    ∃ base len seed, decode aw (natToBytes (recordBytes aw) w ++ rest) = .ok (.hash base len seed, rest) ∧
      (∀ k, k < 32 → len.getLsbD k = w.testBit k) ∧ (∀ k, k < 32 → seed.getLsbD k = w.testBit (32 + k)) ∧
      (∀ k, base.testBit k = w.testBit (64 + k))

/-- The five command words of the programs P1, P2 and P3 of 95_test_vectors.md, for `AW = 16`: `CMDWORD` from R51, decoded to the commands
they are written for (the byte layout is the model's, log entry 8). -/
def Obligations.ProgramWordsDecode : Prop :=
  decode 16 (natToBytes 10 0x20001234567800000003) = .ok (.hash 0x2000 3 0x12345678, []) ∧
    decode 16 (natToBytes 10 0x10030000000100000011) = .ok (.hash 0x1003 17 1, []) ∧
    decode 16 (natToBytes 10 0x4000CAFEBABE00000008) = .ok (.hash 0x4000 8 0xCAFEBABE, []) ∧
    decode 16 (natToBytes 10 0x4008CEFABEB200000004) = .ok (.hash 0x4008 4 0xCEFABEB2, []) ∧
    decode 16 (natToBytes 10 0x4000CAFEBABE0000000C) = .ok (.hash 0x4000 12 0xCAFEBABE, [])

/-- A word of the opcode table is read as the `HASH` whose `LEN` is its low 32 bits, whatever its width: every record selects `HASH` and
no micro-operation has a word of its own (R50, R53; log entry 9). -/
def Obligations.TableWordIsHash : Prop :=
  ∀ nbits w : Nat, w < 2 ^ nbits →
    decodeTableWord nbits w = some (.hash (w / 2 ^ 64) (BitVec.ofNat 32 w) (BitVec.ofNat 32 (w / 2 ^ 32)))

/-- The fields of `LEN` are its quotient and remainder by 8 (R52): `G = LEN div 8` and `4*T4 + 2*T2 + T1 = LEN mod 8`. -/
def Obligations.LenFieldsAreQuotientAndRemainder : Prop :=
  ∀ len : Word32, (lenG len).toNat = len.toNat / 8 ∧
    4 * (lenT4 len).toNat + 2 * (lenT2 len).toNat + (lenT1 len).toNat = len.toNat % 8 ∧
    (lenG len).toNat ≤ 536870911

/-- The eight remainder cases of R54, with the `BOFF` that `XOR1` sees. -/
def Obligations.RemainderCases : Prop :=
  ∀ len : Word32,
    (len.toNat % 8 = 0 → tail len = []) ∧
    (len.toNat % 8 = 1 → tail len = [.xor1] ∧ boffIn len .p1 = 0) ∧
    (len.toNat % 8 = 2 → tail len = [.xor2]) ∧
    (len.toNat % 8 = 3 → tail len = [.xor2, .xor1] ∧ boffIn len .p1 = 16) ∧
    (len.toNat % 8 = 4 → tail len = [.xor4]) ∧
    (len.toNat % 8 = 5 → tail len = [.xor4, .xor1] ∧ boffIn len .p1 = 0) ∧
    (len.toNat % 8 = 6 → tail len = [.xor4, .xor2]) ∧
    (len.toNat % 8 = 7 → tail len = [.xor4, .xor2, .xor1] ∧ boffIn len .p1 = 16)

/-- The number of micro-operations of an invocation, and the enabling bits of the remainder ones (R53). -/
def Obligations.MicroOperationCount : Prop :=
  ∀ len : Word32,
    (expansion len).length = 5 + (lenG len).toNat + (lenT4 len).toNat + (lenT2 len).toNat + (lenT1 len).toNat ∧
    ∀ i ∈ [Instr.xor4, .xor2, .xor1], (i ∈ expansion len ↔ len &&& i.mask = i.matchBits)

/-! ### The micro-operations, each with its frame (40_command.md, 41_accumulate.md, 42_finalize.md)

The premise `holds` of the reading ones is that each byte read finds the byte `M` has at its address, at the moment of that read (R36, R46).
`s.landed n` is `s` with the writes of OTHER agents before the next `n` byte reads done; where none is pending it is `s` (log entry 15). -/

/-- `INIT` always completes (R72): `ACC` 0, `RES` the latched seed, `POS` 0, `BOFF` 0; nothing else changes, no byte of memory does. -/
def Obligations.InitCompletes : Prop :=
  ∀ s : State, ∃ t, exec .init s = .next t ∧ t.acc = 0 ∧ t.res = s.seed ∧ t.pos = 0 ∧ t.boff = 0 ∧
    t = { s with acc := t.acc, res := t.res, pos := t.pos, boff := t.boff } ∧ ∀ a, Memory.read t.mem a = Memory.read s.mem a

/-- `XOR8` completes when the 8 bytes at `EA` are readable (R80): all lanes take the loaded group, `POS` advances by 8; nothing but `ACC`,
`POS` and the history of reads changes, and no byte of memory does that no other agent writes (`landed`: log entry 15). -/
def Obligations.Xor8Completes : Prop :=
  ∀ (s : State) (M : Nat → Byte), s.holds M s.ea 8 →
    ∃ t, exec .xor8 s = .next t ∧ t.acc = s.acc ^^^ loadWord s.params.byteOrder M s.ea 8 ∧ t.pos = s.pos + 8 ∧
      t.reads = s.reads ++ List.range' s.ea 8 ∧
      t = { s.landed 8 with acc := t.acc, pos := t.pos, reads := t.reads } ∧
      ∀ a, (∀ x ∈ s.pending.flatten, x.1 ≠ a) → Memory.read t.mem a = Memory.read s.mem a

/-- `XOR4` completes when the 4 bytes at `EA` are readable (R81): `ACC[31:0]` takes the zero-extended value, `ACC[63:32]` is unchanged,
`POS` advances by 4; nothing else but the history of reads changes, and no byte of memory does that no other agent writes (`landed`: log entry
15). -/
def Obligations.Xor4Completes : Prop :=
  ∀ (s : State) (M : Nat → Byte), s.holds M s.ea 4 →
    ∃ t, exec .xor4 s = .next t ∧ t.acc = s.acc ^^^ loadWord s.params.byteOrder M s.ea 4 ∧
      t.acc.extractLsb' 32 32 = s.acc.extractLsb' 32 32 ∧ t.pos = s.pos + 4 ∧
      t.reads = s.reads ++ List.range' s.ea 4 ∧
      t = { s.landed 4 with acc := t.acc, pos := t.pos, reads := t.reads } ∧
      ∀ a, (∀ x ∈ s.pending.flatten, x.1 ≠ a) → Memory.read t.mem a = Memory.read s.mem a

/-- `XOR2` completes when the 2 bytes at `EA` are readable (R82): only `ACC[15:0]` takes the value, `POS` advances by 2, `BOFF` is 16 after;
nothing else but the history of reads changes, and no byte of memory does that no other agent writes (`landed`: log entry 15). -/
def Obligations.Xor2Completes : Prop :=
  ∀ (s : State) (M : Nat → Byte), s.holds M s.ea 2 →
    ∃ t, exec .xor2 s = .next t ∧ t.acc = s.acc ^^^ loadWord s.params.byteOrder M s.ea 2 ∧
      t.acc.extractLsb' 16 48 = s.acc.extractLsb' 16 48 ∧ t.pos = s.pos + 2 ∧ t.boff = 16 ∧
      t.reads = s.reads ++ List.range' s.ea 2 ∧
      t = { s.landed 2 with acc := t.acc, pos := t.pos, boff := t.boff, reads := t.reads } ∧
      ∀ a, (∀ x ∈ s.pending.flatten, x.1 ≠ a) → Memory.read t.mem a = Memory.read s.mem a

/-- `XOR1` completes when the byte at `EA` is readable (R83): with `BOFF` 0 it lands in lane 0, with `BOFF` 16 in lane 2, in both byte orders,
and no other lane changes; `POS` advances by 1; nothing else but the history of reads changes, and no byte of memory does that no other agent
writes (`landed`: log entry 15). -/
def Obligations.Xor1Completes : Prop :=
  ∀ (s : State) (M : Nat → Byte), s.holds M s.ea 1 →
    ∃ t, exec .xor1 s = .next t ∧
      (s.boff = 0 → ∀ j, j < 8 → lane t.acc j = if j = 0 then lane s.acc j ^^^ M s.ea else lane s.acc j) ∧
      (s.boff = 16 → ∀ j, j < 8 → lane t.acc j = if j = 2 then lane s.acc j ^^^ M s.ea else lane s.acc j) ∧
      t.pos = s.pos + 1 ∧ t.reads = s.reads ++ [s.ea] ∧
      t = { s.landed 1 with acc := t.acc, pos := t.pos, reads := t.reads } ∧
      ∀ a, (∀ x ∈ s.pending.flatten, x.1 ≠ a) → Memory.read t.mem a = Memory.read s.mem a

/-- `FOLD` always completes (R90): lane `j` of `FLD` is lane `j` of `ACC` XOR lane `j + 4` of `ACC`, and the fold is XOR-linear; nothing but
`FLD` changes, `ACC` does not. -/
def Obligations.FoldCompletes : Prop :=
  (∀ s : State, ∃ t, exec .fold s = .next t ∧
    (∀ j, j < 4 → lane t.fld j = lane s.acc j ^^^ lane s.acc (j + 4)) ∧
    t = { s with fld := t.fld } ∧ ∀ a, Memory.read t.mem a = Memory.read s.mem a) ∧
  ∀ u v : Word64, foldHalves (u ^^^ v) = foldHalves u ^^^ foldHalves v

/-- `NORM` always completes (R91): lane `j` of `NRM` is lane `3 - j` of `FLD` for `LE` and lane `j` for `BE`; the conversion is its own
inverse and XOR-linear; nothing but `NRM` changes. -/
def Obligations.NormCompletes : Prop :=
  (∀ s : State, ∃ t, exec .norm s = .next t ∧
    (s.params.byteOrder = .le → ∀ j, j < 4 → lane t.nrm j = lane s.fld (3 - j)) ∧
    (s.params.byteOrder = .be → t.nrm = s.fld) ∧
    t = { s with nrm := t.nrm } ∧ ∀ a, Memory.read t.mem a = Memory.read s.mem a) ∧
  ∀ (bo : ByteOrder) (u v : Word32),
    toBe32 bo (toBe32 bo u) = u ∧ toBe32 bo (u ^^^ v) = toBe32 bo u ^^^ toBe32 bo v

/-- `BLEND` always completes (R92): `RES` takes `RES ^ NRM`, which in phase `PB` of an invocation is `SEED ^ to_be32(FLD)`; nothing but
`RES` changes. -/
def Obligations.BlendCompletes : Prop :=
  ∀ s : State, ∃ t, exec .blend s = .next t ∧ t.res = s.res ^^^ s.nrm ∧
    (s.Inv → s.ph = .pb → t.res = s.seed ^^^ toBe32 s.params.byteOrder s.fld) ∧
    t = { s with res := t.res } ∧ ∀ a, Memory.read t.mem a = Memory.read s.mem a

/-- `RET` always completes (R73): `DIGEST` is `RES`, `PH` is `IDLE`, the caller gets the 32 bits of `RES` once; nothing else changes. That the
other registers keep what they held is the model's own: the spec calls them stale then (log entry 19). -/
def Obligations.RetCompletes : Prop :=
  ∀ s : State, ∃ t, exec .ret s = .next t ∧ t.digest = s.res ∧ t.ph = .idle ∧ t.responses = s.responses ++ [s.res] ∧
    t = { s with digest := t.digest, ph := t.ph, responses := t.responses } ∧ ∀ a, Memory.read t.mem a = Memory.read s.mem a

/-- Which micro-operations write which register: the `written by` column of 10_state.md section 2 and the rules R16, R17; none writes
the parameters, the inputs, a recorded fault, which addresses are readable or `VALID`, and in memory nothing happens but that writes of others
land (log entry 15). -/
def Obligations.RegistersAreWrittenByTheTable : Prop :=
  ∀ (i : Instr) (s t : State), (∀ b l d, i ≠ .hash b l d) → exec i s = .next t →
    (t.acc ≠ s.acc → i ∈ [.init, .xor8, .xor4, .xor2, .xor1]) ∧ (t.res ≠ s.res → i ∈ [.init, .blend]) ∧
    (t.pos ≠ s.pos → i ∈ [.init, .xor8, .xor4, .xor2, .xor1]) ∧ (t.boff ≠ s.boff → i ∈ [.init, .xor2]) ∧
    (t.fld ≠ s.fld → i = .fold) ∧ (t.nrm ≠ s.nrm → i = .norm) ∧ (t.digest ≠ s.digest → i = .ret) ∧ (t.ph ≠ s.ph → i = .ret) ∧
    t.base = s.base ∧ t.len = s.len ∧ t.seed = s.seed ∧ t.fault = s.fault ∧ t.params = s.params ∧ t.inputs = s.inputs ∧
    t.readable = s.readable ∧ t.valid = s.valid ∧
    ∃ n, n ≤ 8 ∧ t.mem = (s.landed n).mem ∧ t.pending = (s.landed n).pending

/-! ### Reads, faults (20_memory.md, 60_exceptions.md) -/

/-- `LOADn` for `n <= 8` readable bytes is the sum of R33, a number of `8n` bits, zero-extended. -/
def Obligations.LoadIsTheSum : Prop :=
  ∀ (s : State) (M : Nat → Byte) (a n : Nat), n ≤ 8 → s.holds M a n →
    ∃ bytes, s.memRead a n = .ok bytes ∧ bytes = (List.range n).map (fun k => M (a + k)) ∧
      (assemble s.params.byteOrder bytes).toNat = loadVal s.params.byteOrder M a n ∧
      loadVal s.params.byteOrder M a n < 2 ^ (8 * n)

/-- The reading micro-operations fault exactly when a byte they read is outside `VALID`, or in it and made unreadable meanwhile by the caller
(R144; log entry 20), and name the lowest such address (R41, R123); every readable address holds a byte under the invariant, and that premise
suffices. -/
def Obligations.ReadFaultsAtLowestAddress : Prop :=
  ∀ x ∈ [(Instr.xor8, 8), (.xor4, 4), (.xor2, 2), (.xor1, 1)], ∀ (s : State) (a : Nat),
    (exec x.1 s = .fault (.outOfBuffer a) ↔
      ∃ k, k < x.2 ∧ a = s.ea + k ∧ s.readByte a = none ∧ ∀ j, j < k → s.readByte (s.ea + j) ≠ none) ∧
    ((∀ y ∈ s.readable, (Memory.read s.mem y).isSome = true) →
      (exec x.1 s = .fault (.outOfBuffer a) ↔
        ∃ k, k < x.2 ∧ a = s.ea + k ∧ ¬ (s.inValid a ∧ a ∈ s.readable) ∧ ∀ j, j < k → s.inValid (s.ea + j) ∧ s.ea + j ∈ s.readable))

/-- Of the three outcomes that R121 lists for a step, `fault OutOfBuffer` occurs without a reset only: where that fault is recorded already, or
in a phase that reads, at an address whose read is not answered after the remappings of that step, outside `VALID` or unmapped meanwhile
(R144; log entry 20); under the invariant the address is in the window of the command in progress. Nothing is refused (R56). The other two, the next state of R71 and no step, are both a next state here: that no step is one is the model's choice
(log entry 6). -/
def Obligations.StepOutcomes : Prop :=
  ∀ s : State,
    (∀ r, step s ≠ .refused r) ∧ (∀ i r, exec i s ≠ .refused r) ∧
    ∀ a, step s = .fault (.outOfBuffer a) →
      s.input.reset = false ∧
        (s.fault = some a ∨ (s.fault = none ∧ s.ph ∈ [.p8, .p4, .p2, .p1] ∧ s.begin.readByte a = none)) ∧
        (s.Inv → s.ph ∈ [.p8, .p4, .p2, .p1] ∧ (s.fault = none → ¬ (s.inValid a ∧ a ∈ s.begin.readable)) ∧ s.base + s.pos.toNat ≤ a ∧ a < s.base + s.len.toNat)

/-- The block never writes memory (R38): a step changes memory, and which addresses are readable, as the inputs say and in no other way, an
operation changes nothing in it but that writes of other agents land, and the parameters stay (R3, R19). That changes of memory come as
inputs of steps, and how they land, is the model's (log entries 5, 15 and 20). -/
def Obligations.MemoryIsNeverWritten : Prop :=
  ∀ s t : State,
    (step s = .next t → t.mem = Memory.overwrites s.begin.mem s.begin.pending.flatten ∧ t.readable = s.begin.readable ∧
      t.params = s.params ∧
      ∀ a, (∀ x ∈ s.input.remap, x.addr ≠ a) → (∀ x ∈ s.pending.flatten, x.1 ≠ a) → (∀ x ∈ s.input.writes.flatten, x.1 ≠ a) →
        Memory.read t.mem a = Memory.read s.mem a ∧ (a ∈ t.readable ↔ a ∈ s.readable)) ∧
    ∀ i, exec i s = .next t → (∃ n, t.mem = (s.landed n).mem ∧ t.pending = (s.landed n).pending) ∧ t.readable = s.readable ∧
      t.params = s.params ∧ ∀ a, (∀ x ∈ s.pending.flatten, x.1 ≠ a) → Memory.read t.mem a = Memory.read s.mem a

/-! ### The sequencer (40_command.md, 70_reset_and_hazards.md) -/

/-- A step runs the operation the state selects, where no fault is recorded: in `IDLE` a record that decodes to a well-formed `HASH` and is
offered is latched, with what is readable then as its `VALID` (R31; log entry 20), and `INIT` runs; in every other phase the
micro-operation of R71's row runs, and `PH` advances as the row says; a row that performs none (`P8` with `POS[31:3] = G`, `P4`,
`P2`, `P1` with their bit of `LEN` clear, and no step, log entry 6) changes `PH` as it says and keeps every register. `begin` uses up the step's input, `settle` lets the rest of other agents' writes land (log entries 5 and 15). A table
word placed by `withFetchWord` is such an offer (log entry 10). -/
def Obligations.StepRunsSelectedOperation : Prop :=
  (∀ (s : State) (bytes rest : List Byte) (base : Nat) (len seed : Word32), s.input.reset = false → s.fault = none → s.ph = .idle →
    decode s.params.aw bytes = .ok (.hash base len seed, rest) → s.input.offer = some ⟨base, len, seed⟩ →
    step s = andThen (exec .init { s.begin with base := base, len := len, seed := seed, valid := s.begin.readable, reads := [] })
      fun t => .next (State.settle { t with ph := .p8 })) ∧
  (∀ (s : State) (i : Instr), s.input.reset = false → s.fault = none → s.ph ≠ .idle →
    selectOp s.ph s.pos s.len s.input.offer.isSome s.input.take = some i →
    step s = andThen (exec i s.begin)
      fun t => .next (State.settle { t with ph := phaseAfter s.ph s.pos s.len s.input.offer.isSome s.input.take })) ∧
  (∀ s : State, s.input.reset = false → s.fault = none →
    selectOp s.ph s.pos s.len s.input.offer.isSome s.input.take = none →
    step s = .next (State.settle { s.begin with ph := phaseAfter s.ph s.pos s.len s.input.offer.isSome s.input.take })) ∧
  ∀ (s : State) (nbits w base : Nat) (len seed : Word32), decodeTableWord nbits w = some (.hash base len seed) →
    base < 2 ^ s.params.aw →
    step (s.withFetchWord nbits w) =
      andThen (exec .init
          { s.settle with ph := .idle, fault := none, base := base, len := len, seed := seed, valid := s.readable, reads := [] })
        fun t => .next (State.settle { t with ph := .p8 })

/-- The rows of R71 outside `IDLE`: which micro-operation each phase selects under which condition, and the phase after it. -/
def Obligations.SequencerRows : Prop :=
  ∀ (pos len : Word32) (o k : Bool),
    (pos.extractLsb' 3 29 ≠ lenG len → selectOp .p8 pos len o k = some .xor8 ∧ phaseAfter .p8 pos len o k = .p8) ∧
    (pos.extractLsb' 3 29 = lenG len → selectOp .p8 pos len o k = none ∧ phaseAfter .p8 pos len o k = .p4) ∧
    (selectOp .p4 pos len o k = (if len.getLsbD 2 then some .xor4 else none) ∧ phaseAfter .p4 pos len o k = .p2) ∧
    (selectOp .p2 pos len o k = (if len.getLsbD 1 then some .xor2 else none) ∧ phaseAfter .p2 pos len o k = .p1) ∧
    (selectOp .p1 pos len o k = (if len.getLsbD 0 then some .xor1 else none) ∧ phaseAfter .p1 pos len o k = .pf) ∧
    (selectOp .pf pos len o k = some .fold ∧ phaseAfter .pf pos len o k = .pn) ∧
    (selectOp .pn pos len o k = some .norm ∧ phaseAfter .pn pos len o k = .pb) ∧
    (selectOp .pb pos len o k = some .blend ∧ phaseAfter .pb pos len o k = .done) ∧
    (selectOp .done pos len o true = some .ret ∧ phaseAfter .done pos len o true = .idle) ∧
    (selectOp .done pos len o false = none ∧ phaseAfter .done pos len o false = .done)

/-- No step (R121): in `IDLE` with nothing offered and in `DONE` with the response not taken, the block stays as it is. That this is a next
state which uses up the input is the model's (log entry 6). -/
def Obligations.IdleAndDoneWait : Prop :=
  ∀ s : State, s.input.reset = false → s.fault = none →
    (s.ph = .idle ∧ s.input.offer = none) ∨ (s.ph = .done ∧ s.input.take = false) → step s = .next s.begin.settle

/-- An offer made while the instance is busy has no effect (R76), an offer in the step of `RET` among them (R123); the command `HASH`
itself has none then, nor while a fault is recorded (R142 P4; log entry 7). -/
def Obligations.BusyOfferHasNoEffect : Prop :=
  (∀ (s : State) (e : HostInput) (rest : List HostInput) (o : Option Command), s.ph ≠ .idle →
    step { s with inputs := { e with offer := o } :: rest } = step { s with inputs := { e with offer := none } :: rest }) ∧
  ∀ s : State, s.ph ≠ .idle ∨ s.fault ≠ none → ∀ b l d, exec (.hash b l d) s = .next s

/-- The reset event (R141): `PH = IDLE` and no fault recorded (R125), whatever the instance was doing, no digest is delivered, and what is
outside the block stays (the model's choice, log entry 3). Of the registers nothing is said (R22). -/
def Obligations.ResetAbandons : Prop :=
  ∀ s : State, s.input.reset = true →
    ∃ t, step s = .next t ∧ t.ph = .idle ∧ t.fault = none ∧ t.responses = s.responses ∧ t.params = s.params ∧
      t.mem = Memory.overwrites s.begin.mem s.begin.pending.flatten ∧ t.readable = s.begin.readable ∧ t.inputs = s.inputs.tail

/-- Reset leaves `PH = IDLE` (R22) and the invariant, for every instance with `AW >= 1` (R3) and for the one behind `State.reset`. That the
memory lists nothing is the model's choice (log entry 4). -/
def Obligations.ResetState : Prop :=
  (∀ p : Params, 1 ≤ p.aw → (State.resetWith p).ph = .idle ∧ (State.resetWith p).Inv) ∧
    State.reset.ph = .idle ∧ State.reset.Inv

/-- The invariant of R23, with the canonical form of memory (log entry 4) and the history of reads (log entry 13), is kept by every step, from
every state that meets it; without a reset at that step, (d) `ACC[63:32]` changes in
`P8` and on acceptance only, `XOR2` and `XOR1` change the lanes R23 names, and (f) `BASE`, `LEN` and `SEED` do not change outside `IDLE`. -/
def Obligations.StepKeepsInvariant : Prop :=
  ∀ s t : State, s.Inv → step s = .next t →
    t.Inv ∧
    (s.input.reset = false → s.ph ≠ .idle →
      t.base = s.base ∧ t.len = s.len ∧ t.seed = s.seed ∧
      (s.ph ≠ .p8 → t.acc.extractLsb' 32 32 = s.acc.extractLsb' 32 32) ∧
      (s.ph = .p2 → ∀ j, 2 ≤ j → j < 8 → lane t.acc j = lane s.acc j) ∧
      (s.ph = .p1 → ∀ j, j < 8 → j ≠ (if s.boff = 16 then 2 else 0) → lane t.acc j = lane s.acc j) ∧
      (s.ph ∈ [.pf, .pn, .pb, .done] → t.acc = s.acc))

/-! ### The command as a whole (40_command.md R70, R74 to R76) -/

/-- `HASH` completes under the launch premises (R70): the digest is the normative function of the window's bytes, exactly the window's bytes
were read, each once and ascending (R37), the response is handed over once, the instance is `IDLE`; the parameters, the inputs and every
byte of memory that no other agent writes do not change. That a command runs whole in one application of `exec` is the model's (log entry
7), the histories of reads and of responses too (log entry 13), and so is how others' writes land (log entry 15). What `ACC`, `RES`, `FLD`,
`NRM`, `BOFF`, `POS`, `BASE`, `LEN` and `SEED` hold after `RET` IS THE MODEL'S OWN CHOICE (log entry 19): the spec calls them stale and gives no
claim about them (R147, 93_implementation_defined.md U6). -/
def Obligations.HashCompletes : Prop :=
  ∀ (s : State) (c : Command) (M : Nat → Byte), s.launch M c →
    ∃ t, exec (.hash c.base c.len c.seed) s = .next t ∧
      t.digest = hashFunction s.params.byteOrder M c.base c.len c.seed ∧
      t.acc = hashAcc s.params.byteOrder M c.base c.len ∧ t.fld = foldHalves t.acc ∧ t.nrm = toBe32 s.params.byteOrder t.fld ∧
      t.boff = boffIn c.len .done ∧ t.res = t.digest ∧ t.ph = .idle ∧ t.pos = c.len ∧
      t.len = c.len ∧ t.seed = c.seed ∧
      t.base = c.base ∧ t.reads = List.range' c.base c.len.toNat ∧ t.responses = s.responses ++ [t.digest] ∧
      t.fault = none ∧ t.params = s.params ∧ t.inputs = s.inputs ∧ t.readable = s.readable ∧
      t.mem = (s.landed c.len.toNat).mem ∧ t.pending = (s.landed c.len.toNat).pending ∧
      ∀ a, (∀ x ∈ s.pending.flatten, x.1 ≠ a) → Memory.read t.mem a = Memory.read s.mem a

/-- `HASH` of a window that leaves `VALID`, which is what is readable when the command is accepted (R31; that it is taken then is the model's,
log entry 20), faults at its lowest address outside `VALID`, and delivers nothing (R41, R121). That a command runs whole in one application
of `exec` is the model's (log entry 7). -/
def Obligations.HashFaultsOutsideValid : Prop :=
  ∀ (s : State) (c : Command) (k : Nat), s.ph = .idle → s.fault = none → c.wf s.params.aw = true → k < c.len.toNat →
    (s.accept c).readByte (c.base + k) = none → (∀ j, j < k → (s.accept c).readByte (c.base + j) ≠ none) →
    exec (.hash c.base c.len c.seed) s = .fault (.outOfBuffer (c.base + k))

/-- Zero length (R75, R102): the digest is the seed, whatever `BASE`, the memory and the registers are; nothing is read. `ACC`, `FLD` and `NRM`
are 0, and `RES` is the seed, when the invocation has come to `RET`; after `RET` nothing is said of them (R147). -/
def Obligations.ZeroLengthGivesSeed : Prop :=
  (∀ (s : State) (base : Nat) (seed : Word32), s.ph = .idle → s.fault = none →
    (∃ t, exec (.hash base 0 seed) s = .next t ∧ t.digest = seed ∧ t.reads = []) ∧
    ∃ u, runOps (expansion 0).dropLast (s.accept ⟨base, 0, seed⟩) = .next u ∧
      u.acc = 0 ∧ u.fld = 0 ∧ u.nrm = 0 ∧ u.res = seed ∧ u.reads = []) ∧
  ∀ (bo : ByteOrder) (M : Nat → Byte) (base : Nat) (seed : Word32), hashFunction bo M base 0 seed = seed

/-- `HASH` in `IDLE` is its expansion `INIT; BULK (len div 8); TAIL(len mod 8); FINISH; RET` run on the latched command (R59). -/
def Obligations.HashIsItsExpansion : Prop :=
  ∀ (s : State) (c : Command), s.ph = .idle → s.fault = none →
    exec (.hash c.base c.len c.seed) s =
      runOps (([.init] ++ List.replicate (c.len.toNat / 8) .xor8 ++ tail c.len) ++ [.fold, .norm, .blend] ++ [.ret])
        (s.accept c)

/-- Agreement (R74), as states: `G + 9` steps that begin with the offer and end with the caller taking the response, with no reset and no
change of memory between, do what `HASH` does, faults included. The caller's offers and takings in between do not matter. The list of
inputs is the model's (log entry 5), so is `exec` of a whole command (log entry 7), and so is what the registers hold
after `RET`, in both alike (log entry 19). -/
def Obligations.StepsAgreeWithHash : Prop :=
  ∀ (s : State) (c : Command), s.ph = .idle → s.fault = none → s.silent → s.input.offer = some c →
    s.noReset (stepsToDone c.len + 1) → (∀ e ∈ s.inputs.take (stepsToDone c.len + 1), e.remap = [] ∧ e.writes = []) →
    (s.inputs.getD (stepsToDone c.len) {}).take = true →
    steps (stepsToDone c.len + 1) s =
      andThen (exec (.hash c.base c.len c.seed) s) fun t =>
        .next { t with inputs := s.inputs.drop (stepsToDone c.len + 1) }

/-- The run of an accepted command under the launch premises (R71, R74, R142, R146): after `G + 8` steps, and not before, the instance is in
`DONE` with `RES` the digest, `POS = LEN`, and exactly the window's bytes read; memory outside the window may be written, made readable
and made unreadable meanwhile (R144).
The list of inputs and the histories are the model's (log entries 5 and 13), that a read is answered in the step that makes it is PRESUMED
(log entry 16), and that `DIGEST` keeps its content until the next delivery is the model's (log entry 19). -/
def Obligations.RunReachesDone : Prop :=
  ∀ (s : State) (c : Command) (M : Nat → Byte), s.input.offer = some c → s.begin.settle.launch M c →
    s.noReset (stepsToDone c.len) → s.undisturbed c (stepsToDone c.len) →
    (∃ t, steps (stepsToDone c.len) s = .next t ∧ t.ph = .done ∧
      t.res = hashFunction s.params.byteOrder M c.base c.len c.seed ∧ t.pos = c.len ∧ t.reads = List.range' c.base c.len.toNat ∧
      t.digest = s.digest ∧ t.responses = s.responses) ∧
    ∀ k, k < stepsToDone c.len → ∃ u, steps k s = .next u ∧ u.ph ≠ .done

/-- The oracle reading (R46): whatever other agents do to memory, between steps or between two byte reads of one load (R36), if every window
byte is readable when the command is accepted, so that its `VALID` has it (R31; log entry 20), and still in the step in which R71 reads it, and
the read of each window byte `p`, at its moment in that step, finds the byte `M` has there, the run reaches `DONE` with the digest of `M`. No premise that
the window is immutable. The list of inputs and how writes land are the model's (log entries 5 and 15), and that a read is answered in the step that makes it is PRESUMED (log entry 16). -/
def Obligations.RunHashesTheBytesRead : Prop :=
  ∀ (s : State) (c : Command) (M : Nat → Byte), s.ph = .idle → s.fault = none → s.input.offer = some c →
    c.base + c.len.toNat ≤ 2 ^ s.params.aw → s.noReset (stepsToDone c.len) →
    (∀ p, p < c.len.toNat → s.answers c p ∧
      Memory.read (s.memAt (readStep c.len.toNat p) (readIndex c.len.toNat p)) (c.base + p) = some (M (c.base + p))) →
    ∃ t, steps (stepsToDone c.len) s = .next t ∧ t.ph = .done ∧
      t.res = hashFunction s.params.byteOrder M c.base c.len c.seed ∧ t.pos = c.len

/-- Purity (R100, R10, R26): two instances of the same byte order, with anything in their registers, whose reads find the same bytes at
whatever addresses (each at its moment, log entry 15), deliver the same digest for the same `LEN` and `SEED`. -/
def Obligations.DigestDependsOnWindowOnly : Prop :=
  ∀ (s s' t t' : State) (c c' : Command), s.ph = .idle → s'.ph = .idle → s.fault = none → s'.fault = none →
    s.params.byteOrder = s'.params.byteOrder →
    c.wf s.params.aw = true → c'.wf s'.params.aw = true → c.len = c'.len → c.seed = c'.seed →
    (∀ k, k < c.len.toNat →
      ((s.accept c).landed (k + 1)).readByte (c.base + k) = ((s'.accept c').landed (k + 1)).readByte (c'.base + k)) →
    exec (.hash c.base c.len c.seed) s = .next t → exec (.hash c'.base c'.len c'.seed) s' = .next t' →
    t.digest = t'.digest

/-- Several instances over one memory (R127, R45): where the inputs of two instances change no memory, their steps commute, faults
included. How instances are put together and which one moves is the model's choice (log entry 18). -/
def Obligations.InstancesDoNotInteract : Prop :=
  ∀ (sys : System) (j k : Nat), j ≠ k →
    (∀ s, sys.instances[j]? = some s → s.silent) → (∀ s, sys.instances[k]? = some s → s.silent) →
    (sys.stepAt j).bind (fun u => u.stepAt k) = (sys.stepAt k).bind (fun u => u.stepAt j)

/-! ### Lanes and laws of the function (41_accumulate.md, 42_finalize.md, 43_properties.md) -/

/-- The closed form of the accumulator by lanes (R84, R85): lane `j` is the XOR of the bytes that R84 places there. -/
def Obligations.AccumulatorLanes : Prop :=
  ∀ (bo : ByteOrder) (M : Nat → Byte) (base : Nat) (len : Word32) (j : Nat), j < 8 →
    lane (hashAcc bo M base len) j =
      xorOver (fun p => if accLane bo len.toNat p = j then M (base + p) else 0) len.toNat

/-- The lanes of the digest (R93): lane `j` is that of the seed XORed with the bytes that R93 places there; the table and the compact form
are the same. -/
def Obligations.DigestLanes : Prop :=
  (∀ (bo : ByteOrder) (M : Nat → Byte) (base : Nat) (len seed : Word32) (j : Nat), j < 4 →
    lane (hashFunction bo M base len seed) j =
      lane seed j ^^^ xorOver (fun p => if digestLane bo len.toNat p = j then M (base + p) else 0) len.toNat) ∧
  ∀ (bo : ByteOrder) (len p : Nat), p < len → digestLane bo len p = digestLaneCompact bo len p

/-- The closed form for `LE` (R94). -/
def Obligations.LittleEndianClosedForm : Prop :=
  ∀ (M : Nat → Byte) (base : Nat) (len seed : Word32),
    hashFunction .le M base len seed =
      seed ^^^ xorOver (fun p => (M (base + p)).setWidth 32 <<< (8 * (3 - p % 4))) len.toNat

/-- Seed linearity (R101), of the command: two invocations on one state that differ in the seed only deliver digests that differ by the
seeds' XOR, and the digest is a bijection of the seed. -/
def Obligations.SeedLinearity : Prop :=
  (∀ (s t t' : State) (base : Nat) (len d d' : Word32), s.ph = .idle → s.fault = none →
    exec (.hash base len d) s = .next t → exec (.hash base len d') s = .next t' → t.digest ^^^ t'.digest = d ^^^ d') ∧
  ∀ (bo : ByteOrder) (M : Nat → Byte) (base : Nat) (len : Word32),
    (∀ d, hashFunction bo M base len d = hashFunction bo M base len 0 ^^^ d) ∧ Function.Bijective (hashFunction bo M base len)

/-- XOR-linearity in the data (R103). -/
def Obligations.DataLinearity : Prop :=
  ∀ (bo : ByteOrder) (M₁ M₂ : Nat → Byte) (base : Nat) (len d₁ d₂ : Word32),
    hashFunction bo (fun a => M₁ a ^^^ M₂ a) base len (d₁ ^^^ d₂) =
        hashFunction bo M₁ base len d₁ ^^^ hashFunction bo M₂ base len d₂ ∧
    hashFunction bo (fun _ => 0) base len 0 = 0

/-- Splitting at a multiple of 4 (R104), both equations for both byte orders; and a split that is not a multiple of 4 at which the first
fails. -/
def Obligations.SplittingAtMultiplesOfFour : Prop :=
  (∀ (bo : ByteOrder) (M : Nat → Byte) (base : Nat) (len k d d₁ d₂ : Word32), k.toNat % 4 = 0 → k.toNat ≤ len.toNat →
    hashFunction bo M base len d =
      hashFunction bo M base k d₁ ^^^ hashFunction bo M (base + k.toNat) (len - k) d₂ ^^^ d ^^^ d₁ ^^^ d₂ ∧
    hashFunction bo M base len d = hashFunction bo M (base + k.toNat) (len - k) (hashFunction bo M base k d)) ∧
  ∀ bo : ByteOrder, ∃ (M : Nat → Byte) (base : Nat) (len k : Word32), k.toNat % 4 ≠ 0 ∧ k.toNat ≤ len.toNat ∧
    hashFunction bo M base len 0 ≠ hashFunction bo M base k 0 ^^^ hashFunction bo M (base + k.toNat) (len - k) 0

/-- Sensitivity (R105): flipping bit `i` of the byte at offset `p` of the window flips exactly bit `8 * lane(p) + i` of the digest, for every
seed and both byte orders. -/
def Obligations.OneBitFlipsOneBit : Prop :=
  ∀ (bo : ByteOrder) (M : Nat → Byte) (base : Nat) (len seed : Word32) (p i : Nat), p < len.toNat → i < 8 →
    hashFunction bo (fun a => if a = base + p then M a ^^^ (1 <<< i) else M a) base len seed =
      hashFunction bo M base len seed ^^^ (1 <<< (8 * digestLane bo len.toNat p + i)) ∧
    8 * digestLane bo len.toNat p + i < 32

/-- Dependence on the byte order (R106): none when `LEN mod 4 = 0` or the last `LEN mod 4` bytes are zero; some buffer otherwise. -/
def Obligations.ByteOrderMattersOffMultiplesOfFour : Prop :=
  (∀ (M : Nat → Byte) (base : Nat) (len seed : Word32),
    (∀ p, 4 * (len.toNat / 4) ≤ p → p < len.toNat → M (base + p) = 0) →
    hashFunction .le M base len seed = hashFunction .be M base len seed) ∧
  ∀ (base : Nat) (len seed : Word32), len.toNat % 4 ≠ 0 → ∃ M, hashFunction .le M base len seed ≠ hashFunction .be M base len seed

/-- Collisions (R107): permuting the aligned 4-byte words, swapping two bytes at offsets congruent mod 4 among them, inserting four zero
bytes at a multiple of 4, and clearing two equal aligned words do not change the digest. -/
def Obligations.CollisionsAreReproduced : Prop :=
  ∀ (bo : ByteOrder) (M M' : Nat → Byte) (base : Nat) (len seed : Word32),
    (∀ σ : Equiv.Perm (Fin (len.toNat / 4)),
      (∀ (i : Fin (len.toNat / 4)) (k : Nat), k < 4 → M' (base + 4 * i + k) = M (base + 4 * (σ i : Nat) + k)) →
      (∀ p, 4 * (len.toNat / 4) ≤ p → p < len.toNat → M' (base + p) = M (base + p)) →
      hashFunction bo M' base len seed = hashFunction bo M base len seed) ∧
    (∀ p q, p < 4 * (len.toNat / 4) → q < 4 * (len.toNat / 4) → p % 4 = q % 4 →
      hashFunction bo (fun a => if a = base + p then M (base + q) else if a = base + q then M (base + p) else M a) base len seed =
        hashFunction bo M base len seed) ∧
    (∀ k : Nat, k % 4 = 0 → k ≤ len.toNat → len.toNat + 4 < 2 ^ 32 →
      hashFunction bo (fun a => if a < base + k then M a else if a < base + k + 4 then 0 else M (a - 4)) base (len + 4) seed =
        hashFunction bo M base len seed) ∧
    (∀ i j, i < j → j < len.toNat / 4 → (∀ k, k < 4 → M (base + 4 * i + k) = M (base + 4 * j + k)) →
      hashFunction bo (fun a => if (base + 4 * i ≤ a ∧ a < base + 4 * i + 4) ∨ (base + 4 * j ≤ a ∧ a < base + 4 * j + 4) then 0 else M a)
        base len seed = hashFunction bo M base len seed)

/-! ### VALID, byte reads, recorded faults, instances that fault (20_memory.md R31, R36; 60_exceptions.md R121, R125, R127) -/

/-- `VALID` is fixed for an invocation (R31): it is what is readable when the command is accepted (the first clause: a step that accepts), and
no step of a busy instance without a reset, no micro-operation, and no move of another instance changes it, whatever the caller and other
agents meanwhile do to memory and make readable or not (R144); under the invariant the byte reads that are answered are those in `VALID` that
the caller has not made unreadable (R41). That `VALID` is taken at acceptance, and that readability counts at the moment of a read, is the
model's (log entry 20). -/
def Obligations.ValidIsFixedForAnInvocation : Prop :=
  (∀ (s t : State) (c : Command), s.ph = .idle → s.input.reset = false → s.input.offer = some c → step s = .next t →
    t.valid = Addrs.changes s.readable s.input.remap) ∧
  (∀ s t : State, s.ph ≠ .idle → s.input.reset = false → step s = .next t →
    t.valid = s.valid ∧ (s.Inv → ∀ a, (t.readByte a).isSome = true ↔ s.inValid a ∧ a ∈ t.readable)) ∧
  (∀ (i : Instr) (s t : State), (∀ b l d, i ≠ .hash b l d) → exec i s = .next t → t.valid = s.valid) ∧
  ∀ (sys sys' : System) (j k : Nat) (s : State), sys.instances[j]? = some s → j ≠ k → (sys.mover s).Inv → sys.stepAt k = some sys' →
    sys'.instances[j]? = some s ∧ ∀ a, ((sys'.mover s).readByte a).isSome = true ↔ s.inValid a ∧ a ∈ sys'.readable

/-- A load is `n` byte reads, each of the byte that is there at its moment, and nothing more is promised (R36): exactly those bytes are
answered, and a load can answer bytes that memory never held together. How writes land is the model's (log entry 15). -/
def Obligations.LoadsAreByteReads : Prop :=
  (∀ (s : State) (a n : Nat) (bytes : List Byte), s.memRead a n = .ok bytes ↔
    bytes.length = n ∧ ∀ k, k < n → (s.landed (k + 1)).readByte (a + k) = bytes[k]?) ∧
  ∃ (s : State) (a : Nat) (bytes : List Byte), s.memRead a 2 = .ok bytes ∧
    ∀ n, [(s.landed n).readByte a, (s.landed n).readByte (a + 1)] ≠ bytes.map some

/-- A fault lasts until a reset (R121, R125): after a step that ended in `OutOfBuffer(a)`, however many steps without a reset follow, the fault
is recorded, `PH`, every register and its `VALID` are as they were, no digest is delivered and every further step ends in that fault; a
reset then brings the instance back to `IDLE` with no fault recorded. How a fault is recorded, and that the registers and `VALID` stay, is
the model's (log entries 14 and 20). -/
def Obligations.FaultLastsUntilReset : Prop :=
  ∀ (s : State) (a n : Nat), step s = .fault (.outOfBuffer a) → s.noReset (n + 1) →
    s.advances (n + 1) = { s with
      fault := some a, inputs := s.inputs.drop (n + 1), mem := (s.advances (n + 1)).mem,
      readable := (s.advances (n + 1)).readable, pending := [] } ∧
    ((s.inputs.getD (n + 1) {}).reset = false → step (s.advances (n + 1)) = .fault (.outOfBuffer a)) ∧
    ((s.inputs.getD (n + 1) {}).reset = true →
      ∃ t, step (s.advances (n + 1)) = .next t ∧ t.ph = .idle ∧ t.fault = none ∧ t.responses = s.responses)

/-- The invariant holds after a step that ended in a fault too: a recorded fault names an address in the window of the command in progress,
and where the step has recorded it, that address is outside `VALID` or unreadable (R41, R121, R144; log entries 14 and 20). -/
def Obligations.AdvanceKeepsInvariant : Prop :=
  ∀ s : State, s.Inv → s.advance.Inv ∧ ∀ a, step s = .fault (.outOfBuffer a) →
    s.advance.Faulted a ∧ (s.fault = none → ¬ (s.advance.inValid a ∧ a ∈ s.advance.readable))

/-- Instances do not stop one another (R127): an instance of a system can always move, the others stay as they are, and where its step ends
in `OutOfBuffer(a)` that fault is recorded for it alone. How instances are put together is the model's (log entry 18). -/
def Obligations.FaultStopsNoOtherInstance : Prop :=
  ∀ (sys : System) (k : Nat) (s : State), sys.instances[k]? = some s →
    ∃ sys' t, sys.stepAt k = some sys' ∧ sys'.instances[k]? = some t ∧ sys'.mem = t.mem ∧ sys'.readable = t.readable ∧
      sys'.instances.length = sys.instances.length ∧ (∀ j, j ≠ k → sys'.instances[j]? = sys.instances[j]?) ∧
      (∀ u, step (sys.mover s) = .next u → t = u) ∧
      ∀ a, step (sys.mover s) = .fault (.outOfBuffer a) → t.fault = some a ∧ t.ph = s.ph ∧ t.responses = s.responses

/-- The outside may do anything to memory while an invocation is in progress (R144), and a command accepted later sees it: after a step or a
fault of an instance in any phase, exactly what the input's remappings say is readable, and each remapped address holds the byte that the
last remapping of it gives, unless the writes of that step name it. The form of remappings is the model's (log entries 5 and 20). -/
def Obligations.RemappingsTakeEffectInEveryPhase : Prop :=
  ∀ (s : State) (before after : List Remap) (x : Remap), s.input.remap = before ++ x :: after → (∀ y ∈ after, y.addr ≠ x.addr) →
    (x.addr ∈ s.advance.readable ↔ x.readable = true) ∧
    ((∀ y ∈ s.input.writes.flatten, y.1 ≠ x.addr) → Memory.read s.advance.mem x.addr = some x.byte)

/-- Every move of every instance keeps the invariant of each instance over the shared memory (R127, R45; how instances are put together is
the model's, log entry 18). -/
def Obligations.SystemKeepsInvariant : Prop :=
  ∀ (sys sys' : System) (k : Nat), (∀ s ∈ sys.instances, (sys.mover s).Inv) → sys.stepAt k = some sys' →
    ∀ s ∈ sys'.instances, (sys'.mover s).Inv

/-- The interleaving of instances affects no digest (R127, R100). `W` holds the windows of the commands of instance `k`, that of the
invocation in progress and those that are offered. Where the inputs of the other instances neither write nor remap an address of `W`,
but do anything to memory outside it (R144), instance `k` is, after any schedule, in every register, in `PH`, in its fault and in the digests
it has delivered what it is where it alone moves. What the inputs of `k` itself do to memory may be anything, making its own buffer readable
before it offers a command on it included. How instances are put together is the model's (log entry 18). -/
def Obligations.InterleavingAffectsNoDigest : Prop :=
  ∀ (W : Nat → Prop) (sys : System) (sched : List Nat) (k : Nat) (s : State), sys.instances[k]? = some s → (sys.mover s).Inv →
    (s.ph ≠ .idle → ∀ i, i < s.len.toNat → W (s.base + i)) →
    (∀ e ∈ s.inputs, ∀ c, e.offer = some c → ∀ i, i < c.len.toNat → W (c.base % 2 ^ s.params.aw + i)) →
    (∀ j t, j ≠ k → sys.instances[j]? = some t → (∀ x ∈ t.pending.flatten, ¬ W x.1) ∧
      ∀ e ∈ t.inputs, (∀ x ∈ e.writes.flatten, ¬ W x.1) ∧ ∀ x ∈ e.remap, ¬ W x.addr) →
    ∃ u v, (sys.run sched).instances[k]? = some u ∧ (sys.run (sched.filter fun i => decide (i = k))).instances[k]? = some v ∧
      u = { v with mem := u.mem, readable := u.readable, valid := u.valid }

/-- The caller who breaks P1 (R144, R41): in a run whose first step accepts a command, if the byte at offset `p` of the window is the first
that is not in the `VALID` taken then or is not readable in the step in which R71 reads it, unmapped meanwhile for instance, then that step
ends in `OutOfBuffer` of its address, and every step before it completes without a digest. Whatever else is done to memory and whatever is
made readable again before a byte is read does not matter (log entries 5 and 20). -/
def Obligations.RunFaultsAtUnreadableByte : Prop :=
  ∀ (s : State) (c : Command) (p : Nat), s.Inv → s.ph = .idle → s.fault = none → s.input.offer = some c → c.wf s.params.aw = true →
    s.noReset (stepsToDone c.len) → p < c.len.toNat → ¬ s.answers c p → (∀ q, q < p → s.answers c q) →
    steps (readStep c.len.toNat p + 1) s = .fault (.outOfBuffer (c.base + p)) ∧
      ∀ k, k ≤ readStep c.len.toNat p → ∃ u, steps k s = .next u ∧ u.ph ≠ .done ∧ u.responses = s.responses
end

