-- ==== Sys2Proof/Laws/Lanes.lean ====
section
/-! SUPPORT. XOR over a range, and the load mux as such a XOR: each byte of a load lands in one lane (R33). The laws of the whole
operation rest on these. -/

namespace Sys2Proof.Machine

/-! ### XOR over a range -/

theorem xorOver_congr {w : Nat} {f g : Nat → BitVec w} {n : Nat} (h : ∀ k, k < n → f k = g k) : xorOver f n = xorOver g n := by
  induction n with
  | zero => rfl
  | succ n ih => rw [xorOver, xorOver, ih fun k hk => h k (by omega), h n (by omega)]

theorem xorOver_add {w : Nat} (f : Nat → BitVec w) (m n : Nat) :
    xorOver f (m + n) = xorOver f m ^^^ xorOver (fun k => f (m + k)) n := by
  induction n with
  | zero => simp [xorOver]
  | succ n ih => rw [← Nat.add_assoc, xorOver, ih, xorOver, BitVec.xor_assoc]

theorem xorOver_xor {w : Nat} (f g : Nat → BitVec w) (n : Nat) :
    xorOver (fun k => f k ^^^ g k) n = xorOver f n ^^^ xorOver g n := by
  induction n with
  | zero => simp [xorOver]
  | succ n ih => simp only [xorOver, ih]; ac_rfl

theorem xorOver_zero {w n : Nat} : xorOver (fun _ => (0 : BitVec w)) n = 0 := by
  induction n with
  | zero => rfl
  | succ n ih => rw [xorOver, ih, BitVec.xor_self]; rfl

/-- A XOR-linear map passes through. -/
theorem xorOver_map {v w : Nat} (L : BitVec v → BitVec w) (h0 : L 0 = 0) (hx : ∀ a b, L (a ^^^ b) = L a ^^^ L b)
    (f : Nat → BitVec v) (n : Nat) : L (xorOver f n) = xorOver (fun k => L (f k)) n := by
  induction n with
  | zero => exact h0
  | succ n ih => rw [xorOver, hx, ih, xorOver]

/-- One term that may be nonzero. -/
theorem xorOver_single {w n q : Nat} (v : BitVec w) (hq : q < n) : xorOver (fun k => if k = q then v else 0) n = v := by
  induction n with
  | zero => omega
  | succ n ih =>
    rw [xorOver]
    by_cases h : q = n
    · subst h
      rw [xorOver_congr (g := fun _ => 0) fun k hk => by simp [show k ≠ q by omega], xorOver_zero]
      simp
    · rw [ih (by omega)]
      simp [show n ≠ q by omega]

/-! ### The load mux -/

theorem packLanes_cons (b : Byte) (bs : List Byte) : packLanes (b :: bs) = (packLanes bs <<< 8) ^^^ b.setWidth 64 := by
  apply BitVec.eq_of_getLsbD_eq
  intro i hi
  simp only [packLanes, BitVec.getLsbD_or, BitVec.getLsbD_xor, BitVec.getLsbD_shiftLeft, BitVec.getLsbD_setWidth]
  by_cases h : i < 8
  · simp [h]
  · have : b.getLsbD i = false := BitVec.getLsbD_of_ge b i (by omega)
    simp [this]

theorem packLanes_append_singleton (bs : List Byte) (b : Byte) :
    packLanes (bs ++ [b]) = packLanes bs ^^^ (b.setWidth 64 <<< (8 * bs.length)) := by
  induction bs with
  | nil => simp [packLanes]
  | cons c bs ih =>
    rw [List.cons_append, packLanes_cons, packLanes_cons, ih, BitVec.shiftLeft_xor_distrib, ← BitVec.shiftLeft_add,
      List.length_cons, Nat.mul_add_one]
    ac_rfl

/-- `LDMUX` for `LE`: byte `k` lands in lane `k`. -/
theorem assemble_le_eq_xorOver (f : Nat → Byte) (n : Nat) :
    assemble .le ((List.range n).map f) = xorOver (fun k => (f k).setWidth 64 <<< (8 * k)) n := by
  induction n with
  | zero => rfl
  | succ n ih =>
    simp only [assemble] at ih ⊢
    rw [List.range_succ, List.map_append, List.map_singleton, packLanes_append_singleton, ih, xorOver]
    simp

/-- `LDMUX` for `BE`: byte `k` of `n` lands in lane `n - 1 - k`. -/
theorem assemble_be_eq_xorOver (f : Nat → Byte) (n : Nat) :
    assemble .be ((List.range n).map f) = xorOver (fun k => (f k).setWidth 64 <<< (8 * (n - 1 - k))) n := by
  induction n with
  | zero => rfl
  | succ n ih =>
    simp only [assemble] at ih ⊢
    rw [List.range_succ, List.map_append, List.map_singleton, List.reverse_append, List.reverse_singleton,
      List.singleton_append, packLanes_cons, ih, xorOver,
      xorOver_map (fun v : Word64 => v <<< 8) (by simp) (fun a b => BitVec.shiftLeft_xor_distrib a b 8)]
    congr 1
    · apply xorOver_congr
      intro k hk
      rw [← BitVec.shiftLeft_add]
      congr 1
      omega
    · simp

/-- A value assembled from at most 8 bytes, as a number: the lanes carry their weights and nothing overflows. -/
theorem packLanes_toNat {bs : List Byte} (h : bs.length ≤ 8) :
    (packLanes bs).toNat = bytesToNat bs ∧ bytesToNat bs < 2 ^ (8 * bs.length) := by
  induction bs with
  | nil => simp [packLanes, bytesToNat]
  | cons b bs ih =>
    simp only [List.length_cons] at h
    obtain ⟨hv, hlt⟩ := ih (by omega)
    have hb := b.isLt
    have hpow : (2 : Nat) ^ (8 * (bs.length + 1)) = 256 * 2 ^ (8 * bs.length) := by
      rw [Nat.mul_add_one, Nat.pow_add, Nat.mul_comm]
    have h56 : (2 : Nat) ^ (8 * bs.length) ≤ 2 ^ 56 := Nat.pow_le_pow_right (by omega) (by omega)
    simp only [packLanes, bytesToNat, List.length_cons, hpow]
    refine ⟨?_, by omega⟩
    rw [BitVec.toNat_or, BitVec.toNat_shiftLeft, BitVec.toNat_setWidth, hv, Nat.mod_eq_of_lt (show b.toNat < 2 ^ 64 by omega),
      Nat.mod_eq_of_lt (by rw [Nat.shiftLeft_eq]; omega), ← Nat.shiftLeft_add_eq_or_of_lt hb, Nat.shiftLeft_eq]
    omega

end Sys2Proof.Machine
end

