-- ==== Sys2Proof/Laws/Memory.lean ====
section
/-! SUPPORT. The laws of memory as a finite map: reading after a change, and every change keeps the canonical form. -/

namespace Sys2Proof.Machine

/-- Every listed address of `m` is at least `lo`. -/
def Memory.above (lo : Nat) (m : Memory) : Prop := ∀ x ∈ m, lo ≤ x.1

theorem Memory.read_none_of_above {m : Memory} {lo a : Nat} (h : Memory.above lo m) (ha : a < lo) : Memory.read m a = none := by
  induction m with
  | nil => rfl
  | cons x m ih =>
    obtain ⟨k, b⟩ := x
    have hk : lo ≤ k := h (k, b) (by simp)
    have : a ≠ k := by omega
    simp only [Memory.read, this, if_false]
    exact ih fun y hy => h y (by simp [hy])

theorem Memory.wf_tail_above {x : Host.Cell} {m : Memory} (h : Memory.wf (x :: m)) : Memory.above (x.1 + 1) m :=
  fun y hy => (List.pairwise_cons.mp h).1 y hy

/-! ### Reading after a change -/

theorem Memory.read_write_same (m : Memory) (a : Nat) (b : Byte) : Memory.read (Memory.write m a b) a = some b := by
  induction m with
  | nil => simp [Memory.write, Memory.read]
  | cons x m ih =>
    obtain ⟨k, c⟩ := x
    unfold Memory.write
    split
    · simp [Memory.read]
    · split
      · simp [Memory.read]
      · simp [Memory.read, *]

theorem Memory.read_write_other {m : Memory} {a a' : Nat} (b : Byte) (h : a' ≠ a) :
    Memory.read (Memory.write m a b) a' = Memory.read m a' := by
  induction m with
  | nil => simp [Memory.write, Memory.read, h]
  | cons x m ih =>
    obtain ⟨k, c⟩ := x
    unfold Memory.write
    split
    · simp [Memory.read, h]
    · split
      · subst_vars; simp [Memory.read, h]
      · simp [Memory.read, ih]

/-- Remappings leave every address they do not name as it was. -/
theorem Memory.read_changes_other {es : List Remap} {a : Nat} :
    ∀ m : Memory, (∀ x ∈ es, x.addr ≠ a) → Memory.read (Memory.changes m es) a = Memory.read m a := by
  induction es with
  | nil => intro m _; rfl
  | cons x es ih =>
    intro m h
    rw [Memory.changes, ih _ fun y hy => h y (by simp [hy])]
    exact Memory.read_write_other x.byte (h x (by simp)).symm

theorem Memory.isSome_write {m : Memory} {a : Nat} (h : (Memory.read m a).isSome = true) (k : Nat) (b : Byte) :
    (Memory.read (Memory.write m k b) a).isSome = true := by
  by_cases hk : a = k
  · rw [hk, Memory.read_write_same]; rfl
  · rw [Memory.read_write_other b hk, h]

/-- An address that holds a byte goes on holding one. -/
theorem Memory.isSome_changes {a : Nat} (es : List Remap) :
    ∀ {m : Memory}, (Memory.read m a).isSome = true → (Memory.read (Memory.changes m es) a).isSome = true := by
  induction es with
  | nil => intro m h; exact h
  | cons x es ih => intro m h; exact ih (Memory.isSome_write h x.addr x.byte)

/-! ### Writes of other agents -/

theorem Memory.read_overwrite (m : Memory) (a a' : Nat) (b : Byte) :
    Memory.read (Memory.overwrite m a b) a' = if a' = a then (Memory.read m a').map fun _ => b else Memory.read m a' := by
  induction m with
  | nil => simp [Memory.overwrite, Memory.read]
  | cons x m ih =>
    obtain ⟨k, c⟩ := x
    unfold Memory.overwrite
    split
    · subst_vars
      by_cases h : a' = k <;> simp [Memory.read, h]
    · rename_i hk
      by_cases h : a' = k
      · subst h
        simp [Memory.read, Ne.symm hk]
      · simp only [Memory.read, h, if_false, ih]

/-- Writes leave every address they do not name as it was. -/
theorem Memory.read_overwrites_other {es : List (Nat × Byte)} {a : Nat} :
    ∀ m : Memory, (∀ x ∈ es, x.1 ≠ a) → Memory.read (Memory.overwrites m es) a = Memory.read m a := by
  induction es with
  | nil => intro m _; rfl
  | cons x es ih =>
    intro m h
    rw [Memory.overwrites, ih _ fun y hy => h y (by simp [hy]), Memory.read_overwrite, if_neg (h x (by simp)).symm]

/-- Writes keep which addresses hold a byte. -/
theorem Memory.isSome_overwrites (es : List (Nat × Byte)) (a : Nat) :
    ∀ m : Memory, (Memory.read (Memory.overwrites m es) a).isSome = (Memory.read m a).isSome := by
  induction es with
  | nil => intro m; rfl
  | cons x es ih =>
    intro m
    rw [Memory.overwrites, ih, Memory.read_overwrite]
    split <;> simp

theorem Memory.overwrites_append (es fs : List (Nat × Byte)) :
    ∀ m : Memory, Memory.overwrites m (es ++ fs) = Memory.overwrites (Memory.overwrites m es) fs := by
  induction es with
  | nil => intro m; rfl
  | cons x es ih => intro m; exact ih _

/-! ### The canonical form is kept -/

theorem Memory.write_above {m : Memory} {lo a : Nat} {b : Byte} (h : Memory.above lo m) (ha : lo ≤ a) :
    Memory.above lo (Memory.write m a b) := by
  induction m with
  | nil => intro x hx; simp only [Memory.write, List.mem_singleton] at hx; simp [hx, ha]
  | cons y m ih =>
    obtain ⟨k, c⟩ := y
    have hk : lo ≤ k := h (k, c) (by simp)
    have hm : Memory.above lo m := fun z hz => h z (by simp [hz])
    unfold Memory.write
    split
    · intro x hx; simp only [List.mem_cons] at hx
      rcases hx with rfl | rfl | hx
      exacts [ha, hk, hm x hx]
    · split
      · intro x hx; simp only [List.mem_cons] at hx
        rcases hx with rfl | hx
        exacts [ha, hm x hx]
      · intro x hx; simp only [List.mem_cons] at hx
        rcases hx with rfl | hx
        exacts [hk, ih hm x hx]

/-- A write keeps the canonical form. -/
theorem Memory.write_wf {m : Memory} (hm : Memory.wf m) (a : Nat) (b : Byte) : Memory.wf (Memory.write m a b) := by
  induction m with
  | nil => simp [Memory.write]
  | cons y m ih =>
    obtain ⟨k, c⟩ := y
    have hk := Memory.wf_tail_above hm
    have ht := (List.pairwise_cons.mp hm).2
    unfold Memory.write
    split
    · refine List.pairwise_cons.mpr ⟨?_, hm⟩
      intro x hx
      rcases List.mem_cons.mp hx with rfl | hx
      · assumption
      · have := hk x hx; simp only at *; omega
    · split
      · subst_vars; exact List.pairwise_cons.mpr ⟨fun x hx => hk x hx, ht⟩
      · refine List.pairwise_cons.mpr ⟨?_, ih ht⟩
        exact fun x hx => Memory.write_above hk (by simp only; omega) x hx

/-- The remappings of a step keep the canonical form. -/
theorem Memory.changes_wf (es : List Remap) : ∀ {m : Memory}, Memory.wf m → Memory.wf (Memory.changes m es) := by
  induction es with
  | nil => intro m hm; exact hm
  | cons x es ih => intro m hm; exact ih (Memory.write_wf hm x.addr x.byte)

theorem Memory.overwrite_keys (m : Memory) (a : Nat) (b : Byte) : (Memory.overwrite m a b).map Prod.fst = m.map Prod.fst := by
  induction m with
  | nil => rfl
  | cons x m ih =>
    obtain ⟨k, c⟩ := x
    unfold Memory.overwrite
    split
    · simp [*]
    · simp [ih]

theorem Memory.wf_iff_keys {m : Memory} : Memory.wf m ↔ (m.map Prod.fst).Pairwise (· < ·) := List.pairwise_map.symm

/-- Writes of other agents keep the canonical form. -/
theorem Memory.overwrites_wf (es : List (Nat × Byte)) : ∀ {m : Memory}, Memory.wf m → Memory.wf (Memory.overwrites m es) := by
  induction es with
  | nil => intro m hm; exact hm
  | cons x es ih =>
    intro m hm
    exact ih (Memory.wf_iff_keys.mpr (by rw [Memory.overwrite_keys]; exact Memory.wf_iff_keys.mp hm))

/-! ### Sets of addresses -/

@[simp] theorem Addrs.mem_insert {r : Addrs} {a x : Nat} : x ∈ Addrs.insert r a ↔ x = a ∨ x ∈ r := by
  induction r with
  | nil => simp [Addrs.insert]
  | cons k r ih =>
    unfold Addrs.insert
    split
    · simp
    · split
      · subst_vars; simp
      · simp only [List.mem_cons, ih]; tauto

@[simp] theorem Addrs.mem_remove {r : Addrs} {a x : Nat} : x ∈ Addrs.remove r a ↔ x ∈ r ∧ x ≠ a := by simp [Addrs.remove]

theorem Addrs.insert_wf {r : Addrs} (h : Addrs.wf r) (a : Nat) : Addrs.wf (Addrs.insert r a) := by
  induction r with
  | nil => simp [Addrs.insert]
  | cons k r ih =>
    have hk := List.pairwise_cons.mp h
    unfold Addrs.insert
    split
    · refine List.pairwise_cons.mpr ⟨?_, h⟩
      intro x hx
      rcases List.mem_cons.mp hx with rfl | hx
      · assumption
      · have := hk.1 x hx; omega
    · split
      · exact h
      · refine List.pairwise_cons.mpr ⟨?_, ih hk.2⟩
        intro x hx
        rcases Addrs.mem_insert.mp hx with rfl | hx
        · omega
        · exact hk.1 x hx

theorem Addrs.remove_wf {r : Addrs} (h : Addrs.wf r) (a : Nat) : Addrs.wf (Addrs.remove r a) := List.Pairwise.filter _ h

/-- The remappings of a step keep the canonical form. -/
theorem Addrs.changes_wf (es : List Remap) : ∀ {r : Addrs}, Addrs.wf r → Addrs.wf (Addrs.changes r es) := by
  induction es with
  | nil => intro r h; exact h
  | cons x es ih =>
    intro r h
    refine ih ?_
    split
    · exact Addrs.insert_wf h _
    · exact Addrs.remove_wf h _

/-- Remappings leave every address they do not name as readable as it was. -/
theorem Addrs.mem_changes_other {es : List Remap} {a : Nat} :
    ∀ r : Addrs, (∀ x ∈ es, x.addr ≠ a) → (a ∈ Addrs.changes r es ↔ a ∈ r) := by
  induction es with
  | nil => intro r _; rfl
  | cons x es ih =>
    intro r h
    have hx := (h x (by simp)).symm
    rw [Addrs.changes, ih _ fun y hy => h y (by simp [hy])]
    split <;> simp [hx]

/-- Every address that is readable after a step's remappings holds a byte, if that was so before. -/
theorem Addrs.changes_held (es : List Remap) : ∀ {r : Addrs} {m : Memory}, (∀ a ∈ r, (Memory.read m a).isSome = true) →
    ∀ a ∈ Addrs.changes r es, (Memory.read (Memory.changes m es) a).isSome = true := by
  induction es with
  | nil => intro r m h; exact h
  | cons x es ih =>
    intro r m h
    refine ih fun a ha => ?_
    split at ha
    · rcases Addrs.mem_insert.mp ha with rfl | ha
      · rw [Memory.read_write_same]; rfl
      · exact Memory.isSome_write (h a ha) _ _
    · exact Memory.isSome_write (h a (Addrs.mem_remove.mp ha).1) _ _

/-- The memory after reset is in canonical form. -/
theorem State.reset_mem_wf : Memory.wf State.reset.mem := List.Pairwise.nil

end Sys2Proof.Machine
end

