-- ==== Sys2Proof/Laws/State.lean ====
section
/-! SUPPORT. What each update of the state leaves in each field: one lemma a field, true by rfl, so that no later proof unfolds an
update. -/

namespace Sys2Proof.Machine

/-! ### Acceptance of a command -/

@[simp] theorem State.accept_params (s : State) (c : Command) : (s.accept c).params = s.params := rfl
@[simp] theorem State.accept_ph (s : State) (c : Command) : (s.accept c).ph = s.ph := rfl
@[simp] theorem State.accept_acc (s : State) (c : Command) : (s.accept c).acc = s.acc := rfl
@[simp] theorem State.accept_res (s : State) (c : Command) : (s.accept c).res = s.res := rfl
@[simp] theorem State.accept_pos (s : State) (c : Command) : (s.accept c).pos = s.pos := rfl
@[simp] theorem State.accept_boff (s : State) (c : Command) : (s.accept c).boff = s.boff := rfl
@[simp] theorem State.accept_fld (s : State) (c : Command) : (s.accept c).fld = s.fld := rfl
@[simp] theorem State.accept_nrm (s : State) (c : Command) : (s.accept c).nrm = s.nrm := rfl
@[simp] theorem State.accept_base (s : State) (c : Command) : (s.accept c).base = c.base % 2 ^ s.params.aw := rfl
@[simp] theorem State.accept_len (s : State) (c : Command) : (s.accept c).len = c.len := rfl
@[simp] theorem State.accept_seed (s : State) (c : Command) : (s.accept c).seed = c.seed := rfl
@[simp] theorem State.accept_digest (s : State) (c : Command) : (s.accept c).digest = s.digest := rfl
@[simp] theorem State.accept_fault (s : State) (c : Command) : (s.accept c).fault = s.fault := rfl
@[simp] theorem State.accept_mem (s : State) (c : Command) : (s.accept c).mem = s.mem := rfl
@[simp] theorem State.accept_readable (s : State) (c : Command) : (s.accept c).readable = s.readable := rfl
@[simp] theorem State.accept_valid (s : State) (c : Command) : (s.accept c).valid = s.readable := rfl
@[simp] theorem State.accept_pending (s : State) (c : Command) : (s.accept c).pending = s.pending := rfl
@[simp] theorem State.accept_inputs (s : State) (c : Command) : (s.accept c).inputs = s.inputs := rfl
@[simp] theorem State.accept_reads (s : State) (c : Command) : (s.accept c).reads = [] := rfl
@[simp] theorem State.accept_responses (s : State) (c : Command) : (s.accept c).responses = s.responses := rfl

/-! ### The state a step starts from -/

@[simp] theorem State.begin_params (s : State) : (s.begin).params = s.params := rfl
@[simp] theorem State.begin_ph (s : State) : (s.begin).ph = s.ph := rfl
@[simp] theorem State.begin_acc (s : State) : (s.begin).acc = s.acc := rfl
@[simp] theorem State.begin_res (s : State) : (s.begin).res = s.res := rfl
@[simp] theorem State.begin_pos (s : State) : (s.begin).pos = s.pos := rfl
@[simp] theorem State.begin_boff (s : State) : (s.begin).boff = s.boff := rfl
@[simp] theorem State.begin_fld (s : State) : (s.begin).fld = s.fld := rfl
@[simp] theorem State.begin_nrm (s : State) : (s.begin).nrm = s.nrm := rfl
@[simp] theorem State.begin_base (s : State) : (s.begin).base = s.base := rfl
@[simp] theorem State.begin_len (s : State) : (s.begin).len = s.len := rfl
@[simp] theorem State.begin_seed (s : State) : (s.begin).seed = s.seed := rfl
@[simp] theorem State.begin_digest (s : State) : (s.begin).digest = s.digest := rfl
@[simp] theorem State.begin_fault (s : State) : (s.begin).fault = s.fault := rfl
@[simp] theorem State.begin_mem (s : State) : (s.begin).mem = Memory.changes s.settle.mem s.input.remap := rfl
@[simp] theorem State.begin_readable (s : State) : (s.begin).readable = Addrs.changes s.readable s.input.remap := rfl
@[simp] theorem State.begin_valid (s : State) : (s.begin).valid = s.valid := rfl
@[simp] theorem State.begin_pending (s : State) : (s.begin).pending = s.input.writes := rfl
@[simp] theorem State.begin_inputs (s : State) : (s.begin).inputs = s.inputs.tail := rfl
@[simp] theorem State.begin_reads (s : State) : (s.begin).reads = s.reads := rfl
@[simp] theorem State.begin_responses (s : State) : (s.begin).responses = s.responses := rfl

/-! ### Writes of other agents that land before byte reads -/

@[simp] theorem State.landed_params (s : State) (n : Nat) : (s.landed n).params = s.params := rfl
@[simp] theorem State.landed_ph (s : State) (n : Nat) : (s.landed n).ph = s.ph := rfl
@[simp] theorem State.landed_acc (s : State) (n : Nat) : (s.landed n).acc = s.acc := rfl
@[simp] theorem State.landed_res (s : State) (n : Nat) : (s.landed n).res = s.res := rfl
@[simp] theorem State.landed_pos (s : State) (n : Nat) : (s.landed n).pos = s.pos := rfl
@[simp] theorem State.landed_boff (s : State) (n : Nat) : (s.landed n).boff = s.boff := rfl
@[simp] theorem State.landed_fld (s : State) (n : Nat) : (s.landed n).fld = s.fld := rfl
@[simp] theorem State.landed_nrm (s : State) (n : Nat) : (s.landed n).nrm = s.nrm := rfl
@[simp] theorem State.landed_base (s : State) (n : Nat) : (s.landed n).base = s.base := rfl
@[simp] theorem State.landed_len (s : State) (n : Nat) : (s.landed n).len = s.len := rfl
@[simp] theorem State.landed_seed (s : State) (n : Nat) : (s.landed n).seed = s.seed := rfl
@[simp] theorem State.landed_digest (s : State) (n : Nat) : (s.landed n).digest = s.digest := rfl
@[simp] theorem State.landed_fault (s : State) (n : Nat) : (s.landed n).fault = s.fault := rfl
@[simp] theorem State.landed_mem (s : State) (n : Nat) : (s.landed n).mem = Memory.overwrites s.mem (s.pending.take n).flatten := rfl
@[simp] theorem State.landed_readable (s : State) (n : Nat) : (s.landed n).readable = s.readable := rfl
@[simp] theorem State.landed_valid (s : State) (n : Nat) : (s.landed n).valid = s.valid := rfl
@[simp] theorem State.landed_pending (s : State) (n : Nat) : (s.landed n).pending = s.pending.drop n := rfl
@[simp] theorem State.landed_inputs (s : State) (n : Nat) : (s.landed n).inputs = s.inputs := rfl
@[simp] theorem State.landed_reads (s : State) (n : Nat) : (s.landed n).reads = s.reads := rfl
@[simp] theorem State.landed_responses (s : State) (n : Nat) : (s.landed n).responses = s.responses := rfl

/-! ### The end of a step -/

@[simp] theorem State.settle_params (s : State) : (s.settle).params = s.params := rfl
@[simp] theorem State.settle_ph (s : State) : (s.settle).ph = s.ph := rfl
@[simp] theorem State.settle_acc (s : State) : (s.settle).acc = s.acc := rfl
@[simp] theorem State.settle_res (s : State) : (s.settle).res = s.res := rfl
@[simp] theorem State.settle_pos (s : State) : (s.settle).pos = s.pos := rfl
@[simp] theorem State.settle_boff (s : State) : (s.settle).boff = s.boff := rfl
@[simp] theorem State.settle_fld (s : State) : (s.settle).fld = s.fld := rfl
@[simp] theorem State.settle_nrm (s : State) : (s.settle).nrm = s.nrm := rfl
@[simp] theorem State.settle_base (s : State) : (s.settle).base = s.base := rfl
@[simp] theorem State.settle_len (s : State) : (s.settle).len = s.len := rfl
@[simp] theorem State.settle_seed (s : State) : (s.settle).seed = s.seed := rfl
@[simp] theorem State.settle_digest (s : State) : (s.settle).digest = s.digest := rfl
@[simp] theorem State.settle_fault (s : State) : (s.settle).fault = s.fault := rfl
@[simp] theorem State.settle_mem (s : State) : (s.settle).mem = Memory.overwrites s.mem s.pending.flatten := rfl
@[simp] theorem State.settle_readable (s : State) : (s.settle).readable = s.readable := rfl
@[simp] theorem State.settle_valid (s : State) : (s.settle).valid = s.valid := rfl
@[simp] theorem State.settle_pending (s : State) : (s.settle).pending = [] := rfl
@[simp] theorem State.settle_inputs (s : State) : (s.settle).inputs = s.inputs := rfl
@[simp] theorem State.settle_reads (s : State) : (s.settle).reads = s.reads := rfl
@[simp] theorem State.settle_responses (s : State) : (s.settle).responses = s.responses := rfl

/-! ### The reset event -/

@[simp] theorem State.resetEvent_params (s : State) : (s.resetEvent).params = s.params := rfl
@[simp] theorem State.resetEvent_ph (s : State) : (s.resetEvent).ph = .idle := rfl
@[simp] theorem State.resetEvent_acc (s : State) : (s.resetEvent).acc = 0 := rfl
@[simp] theorem State.resetEvent_res (s : State) : (s.resetEvent).res = 0 := rfl
@[simp] theorem State.resetEvent_pos (s : State) : (s.resetEvent).pos = 0 := rfl
@[simp] theorem State.resetEvent_boff (s : State) : (s.resetEvent).boff = 0 := rfl
@[simp] theorem State.resetEvent_fld (s : State) : (s.resetEvent).fld = 0 := rfl
@[simp] theorem State.resetEvent_nrm (s : State) : (s.resetEvent).nrm = 0 := rfl
@[simp] theorem State.resetEvent_base (s : State) : (s.resetEvent).base = 0 := rfl
@[simp] theorem State.resetEvent_len (s : State) : (s.resetEvent).len = 0 := rfl
@[simp] theorem State.resetEvent_seed (s : State) : (s.resetEvent).seed = 0 := rfl
@[simp] theorem State.resetEvent_digest (s : State) : (s.resetEvent).digest = 0 := rfl
@[simp] theorem State.resetEvent_fault (s : State) : (s.resetEvent).fault = none := rfl
@[simp] theorem State.resetEvent_mem (s : State) : (s.resetEvent).mem = s.mem := rfl
@[simp] theorem State.resetEvent_readable (s : State) : (s.resetEvent).readable = s.readable := rfl
@[simp] theorem State.resetEvent_valid (s : State) : (s.resetEvent).valid = [] := rfl
@[simp] theorem State.resetEvent_pending (s : State) : (s.resetEvent).pending = s.pending := rfl
@[simp] theorem State.resetEvent_inputs (s : State) : (s.resetEvent).inputs = s.inputs := rfl
@[simp] theorem State.resetEvent_reads (s : State) : (s.resetEvent).reads = [] := rfl
@[simp] theorem State.resetEvent_responses (s : State) : (s.resetEvent).responses = s.responses := rfl

/-! ### Reset -/

@[simp] theorem State.resetWith_params (p : Params) : (State.resetWith p).params = p := rfl
@[simp] theorem State.resetWith_ph (p : Params) : (State.resetWith p).ph = .idle := rfl
@[simp] theorem State.resetWith_acc (p : Params) : (State.resetWith p).acc = 0 := rfl
@[simp] theorem State.resetWith_res (p : Params) : (State.resetWith p).res = 0 := rfl
@[simp] theorem State.resetWith_pos (p : Params) : (State.resetWith p).pos = 0 := rfl
@[simp] theorem State.resetWith_boff (p : Params) : (State.resetWith p).boff = 0 := rfl
@[simp] theorem State.resetWith_fld (p : Params) : (State.resetWith p).fld = 0 := rfl
@[simp] theorem State.resetWith_nrm (p : Params) : (State.resetWith p).nrm = 0 := rfl
@[simp] theorem State.resetWith_base (p : Params) : (State.resetWith p).base = 0 := rfl
@[simp] theorem State.resetWith_len (p : Params) : (State.resetWith p).len = 0 := rfl
@[simp] theorem State.resetWith_seed (p : Params) : (State.resetWith p).seed = 0 := rfl
@[simp] theorem State.resetWith_digest (p : Params) : (State.resetWith p).digest = 0 := rfl
@[simp] theorem State.resetWith_fault (p : Params) : (State.resetWith p).fault = none := rfl
@[simp] theorem State.resetWith_mem (p : Params) : (State.resetWith p).mem = [] := rfl
@[simp] theorem State.resetWith_readable (p : Params) : (State.resetWith p).readable = [] := rfl
@[simp] theorem State.resetWith_valid (p : Params) : (State.resetWith p).valid = [] := rfl
@[simp] theorem State.resetWith_pending (p : Params) : (State.resetWith p).pending = [] := rfl
@[simp] theorem State.resetWith_inputs (p : Params) : (State.resetWith p).inputs = [] := rfl
@[simp] theorem State.resetWith_reads (p : Params) : (State.resetWith p).reads = [] := rfl
@[simp] theorem State.resetWith_responses (p : Params) : (State.resetWith p).responses = [] := rfl

/-! ### The input of a step -/

theorem State.input_cons {s : State} {e : HostInput} {es : List HostInput} (h : s.inputs = e :: es) : s.input = e := by
  simp [State.input, h]

theorem State.input_nil {s : State} (h : s.inputs = []) : s.input = {} := by
  simp [State.input, h]

theorem State.settle_of_nil {s : State} (h : s.pending = []) : s.settle = s := by
  obtain ⟨⟩ := s
  simp only at h
  subst h
  rfl

/-- Where the outside is silent, a step starts from the state with its input used up. -/
theorem State.begin_of_silent {s : State} (hp : s.pending = []) (hr : s.input.remap = []) (hw : s.input.writes = []) :
    s.begin = { s with inputs := s.inputs.tail } := by
  unfold State.begin
  rw [State.settle_of_nil hp, hr, hw, ← hp]
  rfl

@[simp] theorem State.landed_zero (s : State) : s.landed 0 = s := rfl

theorem State.landed_add (s : State) (m n : Nat) : s.landed (m + n) = (s.landed m).landed n := by
  simp only [State.landed, List.take_add, List.flatten_append, Memory.overwrites_append, List.drop_drop]

theorem State.landed_of_nil {s : State} (h : s.pending = []) (n : Nat) : s.landed n = s := by
  obtain ⟨⟩ := s
  simp only at h
  subst h
  simp [State.landed, Memory.overwrites]

/-! ### A recorded fault -/

@[simp] theorem State.recordFault_fault (s : State) (a : Nat) : (s.recordFault a).fault = some a := rfl
@[simp] theorem State.recordFault_ph (s : State) (a : Nat) : (s.recordFault a).ph = s.ph := rfl
@[simp] theorem State.recordFault_inputs (s : State) (a : Nat) : (s.recordFault a).inputs = s.inputs.tail := rfl

/-- A busy instance latches nothing (R76). -/
theorem State.latchOffer_busy {s : State} (h : s.ph ≠ .idle) (o : Option Command) : s.latchOffer o = s := by
  unfold State.latchOffer
  split
  · contradiction
  · rfl

theorem State.latchOffer_idle {s : State} (h : s.ph = .idle) (c : Command) : s.latchOffer (some c) = s.accept c := by
  simp [State.latchOffer, h]

theorem State.latchOffer_none (s : State) : s.latchOffer none = s := by
  unfold State.latchOffer
  split
  · contradiction
  · rfl

end Sys2Proof.Machine
end

