-- ==== Sys2Proof/Laws/Ops.lean ====
section
/-! SUPPORT. For each shared operation, once, everything it can do: `andThen`, `memRead`, `accumulate`, and one step. Proofs cite these
and do not unfold the operations. -/

namespace Sys2Proof.Machine

/-! ### Sequencing of outcomes -/

@[simp] theorem andThen_next (s : State) (f : State → Out) : andThen (.next s) f = f s := rfl
@[simp] theorem andThen_fault (r : Fault) (f : State → Out) : andThen (.fault r) f = .fault r := rfl
@[simp] theorem andThen_refused (r : Refusal) (f : State → Out) : andThen (.refused r) f = .refused r := rfl

theorem andThen_assoc (o : Out) (f g : State → Out) : andThen (andThen o f) g = andThen o fun s => andThen (f s) g := by
  cases o <;> rfl

@[simp] theorem andThen_next_right (o : Out) : andThen o .next = o := by cases o <;> rfl

theorem andThen_eq_next {o : Out} {f : State → Out} {t : State} : andThen o f = .next t ↔ ∃ u, o = .next u ∧ f u = .next t := by
  cases o <;> simp [andThen]

theorem andThen_eq_fault {o : Out} {f : State → Out} {r : Fault} :
    andThen o f = .fault r ↔ o = .fault r ∨ ∃ u, o = .next u ∧ f u = .fault r := by
  cases o <;> simp [andThen]

theorem andThen_eq_refused {o : Out} {f : State → Out} {r : Refusal} :
    andThen o f = .refused r ↔ o = .refused r ∨ ∃ u, o = .next u ∧ f u = .refused r := by
  cases o <;> simp [andThen]

/-! ### Reading -/

theorem State.inValid_congr {s t : State} (hp : t.params = s.params) (hv : t.valid = s.valid) (a : Nat) : t.inValid a ↔ s.inValid a := by
  simp only [State.inValid, hp, hv]

theorem State.canRead_congr {s t : State} (hp : t.params = s.params) (hv : t.valid = s.valid) (hr : t.readable = s.readable) (a : Nat) :
    t.canRead a ↔ s.canRead a := by
  simp only [State.canRead, State.inValid_congr hp hv, hr]

/-- A byte read depends on the parameters, the memory, `VALID` and what is readable only. -/
theorem State.readByte_congr {s t : State} (hp : t.params = s.params) (hm : t.mem = s.mem) (hv : t.valid = s.valid)
    (hr : t.readable = s.readable) (a : Nat) : t.readByte a = s.readByte a := by
  simp only [State.readByte, State.canRead_congr hp hv hr, hm]

/-- A byte read that is answered is what memory holds there. -/
theorem State.readByte_of_canRead {s : State} {a : Nat} (h : s.canRead a) : s.readByte a = Memory.read s.mem a := if_pos h

/-- A byte of `VALID` that the caller has made unreadable is not answered (R41, R144), nor is one outside `VALID`. -/
theorem State.readByte_of_not_canRead {s : State} {a : Nat} (h : ¬ s.canRead a) : s.readByte a = none := if_neg h

/-- Where every readable address holds a byte, a byte read finds nothing exactly where it is not answered. -/
theorem State.readByte_eq_none {s : State} (hs : ∀ a ∈ s.readable, (Memory.read s.mem a).isSome = true) {a : Nat} :
    s.readByte a = none ↔ ¬ s.canRead a := by
  unfold State.readByte
  split
  · rename_i h
    have := hs a h.2
    constructor
    · intro hn; rw [hn] at this; cases this
    · intro hn; exact absurd h hn
  · rename_i h
    exact iff_of_true rfl h

/-- Writes of other agents keep which byte reads find a byte (R31). -/
theorem State.readByte_isSome_of_overwrites {s t : State} {es : List (Nat × Byte)} (hp : t.params = s.params)
    (hm : t.mem = Memory.overwrites s.mem es) (hv : t.valid = s.valid) (hr : t.readable = s.readable) (a : Nat) :
    (t.readByte a).isSome = (s.readByte a).isSome := by
  simp only [State.readByte, State.canRead_congr hp hv hr, hm]
  split
  · exact Memory.isSome_overwrites es a s.mem
  · rfl

/-- Writes of other agents leave the bytes they do not name. -/
theorem State.readByte_eq_of_overwrites {s t : State} {es : List (Nat × Byte)} (hp : t.params = s.params)
    (hm : t.mem = Memory.overwrites s.mem es) (hv : t.valid = s.valid) (hr : t.readable = s.readable) {a : Nat}
    (ha : ∀ x ∈ es, x.1 ≠ a) : t.readByte a = s.readByte a := by
  simp only [State.readByte, State.canRead_congr hp hv hr, hm, Memory.read_overwrites_other s.mem ha]

theorem State.readByte_landed_isSome (s : State) (n a : Nat) : ((s.landed n).readByte a).isSome = (s.readByte a).isSome :=
  State.readByte_isSome_of_overwrites (s := s) (t := s.landed n) (es := (s.pending.take n).flatten) rfl rfl rfl rfl a

/-- A byte that no pending write names is the same before and after they land. -/
theorem State.read_landed_other {s : State} {a : Nat} (h : ∀ x ∈ s.pending.flatten, x.1 ≠ a) (n : Nat) :
    Memory.read (s.landed n).mem a = Memory.read s.mem a :=
  Memory.read_overwrites_other s.mem fun x hx => h x <| by
    obtain ⟨l, hl, hxl⟩ := List.mem_flatten.mp hx
    exact List.mem_flatten.mpr ⟨l, List.mem_of_mem_take hl, hxl⟩

theorem State.readByte_landed_eq_none {s : State} {n a : Nat} : (s.landed n).readByte a = none ↔ s.readByte a = none := by
  have h := State.readByte_landed_isSome s n a
  cases h1 : (s.landed n).readByte a <;> cases h2 : s.readByte a <;> simp_all

theorem State.memRead_congr {s t : State} (hp : t.params = s.params) (hm : t.mem = s.mem) (hv : t.valid = s.valid)
    (hr : t.readable = s.readable) (hw : t.pending = s.pending) (a n : Nat) :
    t.memRead a n = s.memRead a n := by
  induction n generalizing s t a with
  | zero => rfl
  | succ n ih =>
    have hl : (t.landed 1).mem = (s.landed 1).mem := by simp [hm, hw]
    have hp1 : (t.landed 1).params = (s.landed 1).params := hp
    have hv1 : (t.landed 1).valid = (s.landed 1).valid := hv
    have hr1 : (t.landed 1).readable = (s.landed 1).readable := hr
    simp only [State.memRead, State.readByte_congr hp1 hl hv1 hr1, ih hp1 hl hv1 hr1 (by simp [hw])]

/-- `MemRead` answers the bytes that its byte reads find, each at its moment (R32, R36). -/
theorem State.memRead_of_holds {s : State} {M : Nat → Byte} {a n : Nat} (h : s.holds M a n) :
    s.memRead a n = .ok ((List.range n).map fun k => M (a + k)) := by
  induction n generalizing s a with
  | zero => rfl
  | succ n ih =>
    have h0 := h 0 (by omega)
    have hs : (s.landed 1).holds M (a + 1) n := fun k hk => by
      have := h (k + 1) (by omega)
      rwa [show a + (k + 1) = a + 1 + k by omega, show k + 1 + 1 = 1 + (k + 1) by omega, State.landed_add] at this
    simp only [Nat.zero_add, Nat.add_zero] at h0
    simp only [State.memRead, h0, ih hs, List.range_succ_eq_map, List.map_cons, List.map_map, Nat.add_zero]
    congr 2
    apply List.map_congr_left
    intro k _
    simp only [Function.comp]
    congr 1
    omega

theorem State.holds_of_memRead {s : State} {a n : Nat} {bytes : List Byte} (h : s.memRead a n = .ok bytes) :
    bytes.length = n ∧ ∀ k, (hk : k < bytes.length) → (s.landed (k + 1)).readByte (a + k) = some bytes[k] := by
  induction n generalizing s a bytes with
  | zero => simp only [State.memRead, Except.ok.injEq] at h; subst h; simp
  | succ n ih =>
    unfold State.memRead at h
    split at h
    · cases h
    · rename_i b hb
      split at h
      · cases h
      · rename_i bs hbs
        cases h
        obtain ⟨hl, hr⟩ := ih hbs
        refine ⟨by simp [hl], ?_⟩
        intro k hk
        cases k with
        | zero => simpa using hb
        | succ k =>
          have := hr k (by simpa using hk)
          rw [show a + (k + 1) = a + 1 + k by omega, show k + 1 + 1 = 1 + (k + 1) by omega, State.landed_add]
          simpa using this

/-- `MemRead` fails exactly with the lowest address of the access whose read is not answered (R32, R41). Writes of other agents do not change
which that is (R31). -/
theorem State.memRead_error_iff {s : State} {a n x : Nat} :
    s.memRead a n = .error x ↔
      ∃ k, k < n ∧ x = a + k ∧ s.readByte x = none ∧ ∀ j, j < k → s.readByte (a + j) ≠ none := by
  induction n generalizing s a with
  | zero => simp [State.memRead]
  | succ n ih =>
    unfold State.memRead
    cases hb : (s.landed 1).readByte a with
    | none =>
      have hb' := State.readByte_landed_eq_none.mp hb
      simp only
      constructor
      · intro h; cases h
        exact ⟨0, by omega, rfl, hb', fun j hj => by omega⟩
      · rintro ⟨k, hk, rfl, hx, hj⟩
        cases k with
        | zero => rfl
        | succ k => exact absurd (by simpa using hb') (hj 0 (by omega))
    | some b =>
      have hb' : s.readByte a ≠ none := fun h => by rw [State.readByte_landed_eq_none.mpr h] at hb; cases hb
      have hrec : ((s.landed 1).memRead (a + 1) n = .error x) ↔
          ∃ k, k < n + 1 ∧ x = a + k ∧ s.readByte x = none ∧ ∀ j, j < k → s.readByte (a + j) ≠ none := by
        rw [ih]
        simp only [ne_eq, State.readByte_landed_eq_none]
        constructor
        · rintro ⟨k, hk, rfl, hx, hj⟩
          refine ⟨k + 1, by omega, by omega, hx, ?_⟩
          intro j hjk
          cases j with
          | zero => exact hb'
          | succ j =>
            have := hj j (by omega)
            rwa [show a + 1 + j = a + (j + 1) by omega] at this
        · rintro ⟨k, hk, rfl, hx, hj⟩
          cases k with
          | zero => exact absurd hx hb'
          | succ k =>
            refine ⟨k, by omega, by omega, hx, ?_⟩
            intro j hjk
            have := hj (j + 1) (by omega)
            rwa [show a + (j + 1) = a + 1 + j by omega] at this
      rw [← hrec]
      cases (s.landed 1).memRead (a + 1) n <;> simp

/-! ### The accumulate step -/

/-- What `accumulate` leaves when the read succeeds. -/
def accumulated (n : Nat) (v : Word64) (s : State) : State :=
  { s.landed n with acc := s.acc ^^^ v, pos := s.pos + BitVec.ofNat 32 n, reads := s.reads ++ List.range' s.ea n }

/-- `accumulate` answers a next state exactly when the read succeeds, and which. -/
theorem accumulate_eq_next {n : Nat} {place : List Byte → Word64} {s t : State} :
    accumulate n place s = .next t ↔ ∃ bytes, s.memRead s.ea n = .ok bytes ∧ t = accumulated n (place bytes) s := by
  unfold accumulate
  cases s.memRead s.ea n with
  | error a => simp
  | ok bytes => simp only [Host.Outcome.next.injEq, Except.ok.injEq, exists_eq_left']; exact eq_comm

/-- `accumulate` faults exactly when the read fails. -/
theorem accumulate_eq_fault {n : Nat} {place : List Byte → Word64} {s : State} {r : Fault} :
    accumulate n place s = .fault r ↔ ∃ a, s.memRead s.ea n = .error a ∧ r = .outOfBuffer a := by
  unfold accumulate
  cases s.memRead s.ea n with
  | error a => simp only [Host.Outcome.fault.injEq, Except.error.injEq, exists_eq_left']; exact eq_comm
  | ok bytes => simp

theorem accumulate_ne_refused (n : Nat) (place : List Byte → Word64) (s : State) (r : Refusal) : accumulate n place s ≠ .refused r := by
  unfold accumulate
  split <;> simp

/-- `accumulate` over readable bytes. -/
theorem accumulate_of_holds {n : Nat} (place : List Byte → Word64) {s : State} {M : Nat → Byte} (h : s.holds M s.ea n) :
    accumulate n place s = .next (accumulated n (place ((List.range n).map fun k => M (s.ea + k))) s) :=
  accumulate_eq_next.mpr ⟨_, State.memRead_of_holds h, rfl⟩

end Sys2Proof.Machine
end

