-- ==== Sys2Proof/Laws/PerInstr.lean ====
section
/-! SUPPORT. A statement about every operation as syntax, one lemma a constructor: the `times run` column of 30_encoding.md rule R53 is
how often the operation stands in the expansion of a command (R59). -/

namespace Sys2Proof.Laws.TimesRun

/-- The operation stands in the expansion of a command of length `len` as often as R53 says it runs. -/
def Statement (i : Instr) : Prop := ∀ len : Word32, (expansion len).count i = i.timesRun len

theorem all (i : Instr) : Statement i := by
  intro len
  cases i <;> simp only [expansion, tail, bulk, finish, Instr.timesRun] <;>
    cases lenT4 len <;> cases lenT2 len <;> cases lenT1 len <;> simp [List.count_replicate]

theorem hash (base : Nat) (l seed : Word32) : Statement (.hash base l seed) := all _
theorem init : Statement .init := all _
theorem xor8 : Statement .xor8 := all _
theorem xor4 : Statement .xor4 := all _
theorem xor2 : Statement .xor2 := all _
theorem xor1 : Statement .xor1 := all _
theorem fold : Statement .fold := all _
theorem norm : Statement .norm := all _
theorem blend : Statement .blend := all _
theorem ret : Statement .ret := all _

end Sys2Proof.Laws.TimesRun
end

