-- ==== Sys2Proof/Tests/Slice0.lean ====
section
/-! SUPPORT. Tests on fixed values. Every expected value is one of spec/95_test_vectors.md (its V or P number is named) or is read off a
rule by hand; none is the model's own answer. `test_...` theorems check the model; `witness_<Name>` theorems show concrete states and
operands that meet all hypotheses of the statement `Obligations.<Name>` together. -/

namespace Sys2Proof.Tests

open Sys2Proof Sys2Proof.Machine

/-! ### Helpers -/

/-- An instance with a 16-bit address, right after reset, whose memory holds `bytes` from `base` up, all readable and in `VALID`, and whose
`BASE` is `base`. -/
def sample (bo : ByteOrder) (base : Nat) (bytes : List Byte) : State :=
  { State.resetWith ⟨bo, 16⟩ with
    base := base, mem := bytes.zipIdx.map fun x => (base + x.2, x.1)
    readable := List.range' base bytes.length, valid := List.range' base bytes.length }

/-- The bytes of `sample` as a total memory. -/
def byteAt (base : Nat) (bytes : List Byte) (a : Nat) : Byte := bytes.getD (a - base) 0

/-- One field of the next state, if there is one. -/
def ask {α : Type} (o : Out) (f : State → α) : Option α :=
  match o with
  | .next t => some (f t)
  | .fault _ => none
  | .refused _ => none

/-- The fault address, if the outcome is the fault. -/
def faultAt (o : Out) : Option Nat :=
  match o with
  | .fault (.outOfBuffer a) => some a
  | .next _ => none
  | .refused _ => none

/-- V7's buffer, `LEN = 7` (all three remainder micro-operations), in the middle of an invocation with `SEED = 0`. -/
def tailState (ph : Phase) (acc : Word64) (pos : Nat) (boff : BitVec 5) : State :=
  { sample .le 0x1000 [0x10, 0x20, 0x30, 0x40, 0x50, 0x60, 0x70] with
    ph := ph, acc := acc, pos := BitVec.ofNat 32 pos, boff := boff, len := 7, reads := List.range' 0x1000 pos }

/-- The bytes of P2 (17 bytes from `10` up). -/
def p2Bytes : List Byte :=
  [0x10, 0x11, 0x12, 0x13, 0x14, 0x15, 0x16, 0x17, 0x18, 0x19, 0x1A, 0x1B, 0x1C, 0x1D, 0x1E, 0x1F, 0x20]

/-- P2 for `LE` after its step 2: one of two groups is done. -/
def groupState : State :=
  { sample .le 0x1003 p2Bytes with
    ph := .p8, acc := 0x1716151413121110, pos := 8, len := 17, seed := 1, res := 1, reads := List.range' 0x1003 8 }

/-- P1 for `LE` in a phase after its last read. -/
def finishState (ph : Phase) (fld nrm res : Word32) : State :=
  { sample .le 0x2000 [0xAA, 0xBB, 0xCC] with
    ph := ph, acc := 0xCCBBAA, pos := 3, boff := 16, len := 3, seed := 0x12345678, fld := fld, nrm := nrm, res := res
    reads := List.range' 0x2000 3 }

/-- P5 (V36) for `LE` in `P2`: the first byte of the next read is the last one in `VALID`; `rest` is what comes from outside. -/
def p5State (rest : List HostInput) : State :=
  { sample .le 0x3000 [0xDE, 0xAD, 0xBE, 0xEF, 0x5A] with
    ph := .p2, acc := 0xEFBEADDE, pos := 4, len := 6, reads := List.range' 0x3000 4, inputs := rest }

/-- An instance whose caller makes `0x3005` readable and offers a command on that byte in the same step. -/
def besideState : State :=
  { sample .le 0 [] with inputs := [{ remap := [⟨0x3005, true, 0xA5⟩], offer := some ⟨0x3005, 1, 0⟩ }] }

/-- P5's instance and that one over P5's memory. -/
def p5Pair : System := ⟨(p5State []).mem, (p5State []).readable, [p5State [], besideState]⟩

/-- P1's command. -/
def p1 : Command := ⟨0x2000, 3, 0x12345678⟩

/-- An instance in `IDLE` to which P1's command is offered, beside its bytes; `rest` is what comes from outside after that. -/
def offerState (rest : List HostInput) : State :=
  { sample .le 0x2000 [0xAA, 0xBB, 0xCC] with inputs := { offer := some p1 } :: rest }

/-! ### Well-formedness, decoding -/

/-- R51: `BASE` has `AW` bits; the ill-formed term is the least one that does not fit. -/
theorem test_wf_base_too_wide : Instr.wf 16 (.hash 0x10000 0 0) = false ∧ Instr.wf 16 (.hash 0xFFFF 0 0) = true := by decide

/-- R51: a record of 80 bits needs 10 bytes. -/
theorem test_decode_truncated : decode 16 (List.replicate 9 0xFF) = .error .truncated := by decide

/-- R51: with `AW = 12` the record has 76 bits; a bit above them is not part of it. -/
theorem test_decode_stray_bits : decode 12 (List.replicate 9 0 ++ [0x10]) = .error .strayBits := by decide

/-- R51, P1's `CMDWORD`, bit by bit: `BASE` 0x2000, `SEED` 0x12345678, `LEN` 3, the highest bit first. -/
theorem test_decode_p1_bits :
    decode 16 (natToBytes 10
      0b0010000000000000_00010010001101000101011001111000_00000000000000000000000000000011) =
        .ok (.hash 0x2000 3 0x12345678, []) := by decide

/-- P2's `CMDWORD` byte by byte: `LEN` in the first four bytes, then `SEED`, then `BASE`; what follows is left over. -/
theorem test_decode_p2_bytes :
    decode 16 [0x11, 0, 0, 0, 0x01, 0, 0, 0, 0x03, 0x10, 0x77] = .ok (.hash 0x1003 17 1, [0x77]) := by decide

/-- R52 on P1's and P2's `LEN`: `G = 0, T4 = 0, T2 = 1, T1 = 1` and `G = 2, T4 = 0, T2 = 0, T1 = 1`. -/
theorem test_lenctl_fields :
    (lenG 3, lenT4 3, lenT2 3, lenT1 3) = (0, false, true, true) ∧
      (lenG 17, lenT4 17, lenT2 17, lenT1 17) = (2, false, false, true) := by decide

/-- R53: the word of `LEN` with only bit 2 set enables `XOR4` and neither other remainder operation; it always enables the six that run in
every invocation. -/
theorem test_lenctl_bit2 :
    let len : Word32 := 0b00000000000000000000000000000100
    (Instr.xor4.enabled len, Instr.xor2.enabled len, Instr.xor1.enabled len) = (true, false, false) ∧
      [Instr.init, .xor8, .fold, .norm, .blend, .ret].all (fun i => i.enabled len) = true := by decide

/-- R53: the words with only bit 1 and only bit 0 set. -/
theorem test_lenctl_bits10 :
    let l2 : Word32 := 0b00000000000000000000000000000010
    let l1 : Word32 := 0b00000000000000000000000000000001
    (Instr.xor4.enabled l2, Instr.xor2.enabled l2, Instr.xor1.enabled l2) = (false, true, false) ∧
      (Instr.xor4.enabled l1, Instr.xor2.enabled l1, Instr.xor1.enabled l1) = (false, false, true) := by decide

/-- P2's expansion: `INIT; XOR8; XOR8; XOR1.0; FOLD; NORM; BLEND; RET`. -/
theorem test_expansion_p2 : expansion 17 = [.init, .xor8, .xor8, .xor1, .fold, .norm, .blend, .ret] := by decide

/-- R71: the length words that select each reading micro-operation in its phase, and `INIT`, `FOLD`, `NORM`, `BLEND`, `RET` in theirs. -/
theorem test_select :
    selectOp .idle 0 0b0 true false = some .init ∧ selectOp .p8 0 0b1000 false false = some .xor8 ∧
    selectOp .p4 0 0b100 false false = some .xor4 ∧ selectOp .p2 0 0b010 false false = some .xor2 ∧
    selectOp .p1 0 0b001 false false = some .xor1 ∧ selectOp .pf 0 0 false false = some .fold ∧
    selectOp .pn 0 0 false false = some .norm ∧ selectOp .pb 0 0 false false = some .blend ∧
    selectOp .done 0 0 false true = some .ret := by decide

/-- V19: the largest command reaches `DONE` after 536,870,919 steps. -/
theorem test_largest_command : stepsToDone 0xFFFFFFFF = 536870919 ∧ (lenG 0xFFFFFFFF).toNat = 536870911 := by decide

/-! ### Loads -/

/-- V20, first buffer, `n = 4` and `n = 8`, both orders. -/
theorem test_load_values :
    let b8 : List Byte := [0x11, 0x22, 0x33, 0x44, 0x55, 0x66, 0x77, 0x88]
    assemble .le (b8.take 4) = 0x44332211 ∧ assemble .be (b8.take 4) = 0x11223344 ∧
      assemble .le b8 = 0x8877665544332211 ∧ assemble .be b8 = 0x1122334455667788 := by decide

/-- V20, second buffer: the top bit of a load does not spread. -/
theorem test_load_zero_extends :
    let b8 : List Byte := [0x80, 0xFF, 0x00, 0x01]
    assemble .be b8 = 0x0000000080FF0001 ∧ assemble .le (b8.take 2) = 0xFF80 ∧ assemble .be (b8.take 2) = 0x80FF := by decide

/-! ### The micro-operations -/

/-- V21, second row: bytes `18 .. 1F` at `BASE + 8`, both orders. -/
theorem test_xor8 :
    let s (bo : ByteOrder) (acc : Word64) : State := { sample bo 0x1003 p2Bytes with acc := acc, pos := 8 }
    ask (exec .xor8 (s .le 0x1716151413121110)) (fun t => (t.acc, t.pos)) = some (0x0808080808080808, 16) ∧
      ask (exec .xor8 (s .be 0x1011121314151617)) (fun t => (t.acc, t.pos)) = some (0x0808080808080808, 16) := by decide

/-- V21, first row, at an odd address (R35). -/
theorem test_xor8_first_group :
    let s (bo : ByteOrder) : State := sample bo 0x1007 [0, 1, 2, 3, 4, 5, 6, 7]
    ask (exec .xor8 (s .le)) (fun t => (t.acc, t.pos)) = some (0x0706050403020100, 8) ∧
      ask (exec .xor8 (s .be)) (fun t => (t.acc, t.pos)) = some (0x0001020304050607, 8) := by decide

/-- V22, third row: the high half stays. -/
theorem test_xor4 :
    let s (bo : ByteOrder) (acc : Word64) : State := { sample bo 0x1000 [9, 10, 11, 12] with acc := acc }
    ask (exec .xor4 (s .le 0x0807060504030201)) (fun t => (t.acc, t.pos)) = some (0x0807060508080808, 4) ∧
      ask (exec .xor4 (s .be 0x0102030405060708)) (fun t => (t.acc, t.pos)) = some (0x010203040C0C0C04, 4) := by decide

/-- V22, second row: no sign extension. -/
theorem test_xor4_zero_extends :
    ask (exec .xor4 (sample .be 0x1000 [0xFF, 0xFF, 0xFF, 0xFF])) (fun t => t.acc) = some 0x00000000FFFFFFFF := by decide

/-- V23, third row: `BOFF` is 16 after. -/
theorem test_xor2 :
    let s (bo : ByteOrder) (acc : Word64) : State := { sample bo 0x3004 [0x5A, 0xA5] with acc := acc }
    ask (exec .xor2 (s .le 0xEFBEADDE)) (fun t => (t.acc, t.pos, t.boff)) = some (0xEFBE0884, 2, 16) ∧
      ask (exec .xor2 (s .be 0xDEADBEEF)) (fun t => (t.acc, t.pos, t.boff)) = some (0xDEADE44A, 2, 16) := by decide

/-- V36: the second byte of `XOR2 @0x3004` is outside `VALID`. -/
theorem test_xor2_out_of_buffer :
    let s (bo : ByteOrder) : State := { sample bo 0x3000 [0xDE, 0xAD, 0xBE, 0xEF, 0x5A] with pos := 4 }
    faultAt (exec .xor2 (s .le)) = some 0x3005 ∧ faultAt (exec .xor2 (s .be)) = some 0x3005 := by decide

/-- V24: `BOFF = 16`, byte `FF`, and the byte joining `BBAA`. -/
theorem test_xor1_shifted :
    let s (acc : Word64) (b : Byte) : State := { sample .le 0x1000 [b] with acc := acc, boff := 16 }
    ask (exec .xor1 (s 0 0xFF)) (fun t => (t.acc, t.pos)) = some (0x0000000000FF0000, 1) ∧
      ask (exec .xor1 (s 0xBBAA 0xCC)) (fun t => t.acc) = some 0xCCBBAA := by decide

/-- V24: `BOFF = 0`, both orders alike. -/
theorem test_xor1_unshifted :
    let s (bo : ByteOrder) : State := { sample bo 0x1000 [0x5A] with acc := 0xDEADBEEF }
    ask (exec .xor1 (s .le)) (fun t => t.acc) = some 0xDEADBEB5 ∧
      ask (exec .xor1 (s .be)) (fun t => t.acc) = some 0xDEADBEB5 := by decide

/-- V25. -/
theorem test_fold :
    let s (acc : Word64) : State := { sample .le 0 [] with acc := acc }
    ask (exec .fold (s 0x123456789ABCDEF0)) (fun t => t.fld) = some 0x88888888 ∧
      ask (exec .fold (s 0x8877665544332288)) (fun t => t.fld) = some 0xCC4444DD := by decide

/-- V26. -/
theorem test_norm :
    let s (bo : ByteOrder) : State := { sample bo 0 [] with fld := 0x12345678 }
    ask (exec .norm (s .le)) (fun t => t.nrm) = some 0x78563412 ∧
      ask (exec .norm (s .be)) (fun t => t.nrm) = some 0x12345678 := by decide

/-- V27, first and last rows. -/
theorem test_blend :
    let s (res nrm : Word32) : State := { sample .le 0 [] with res := res, nrm := nrm }
    ask (exec .blend (s 0x12345678 0xAABBCC00)) (fun t => t.res) = some 0xB88F9A78 ∧
      ask (exec .blend (s 0xFFFFFFFF 0x84ADBEEF)) (fun t => t.res) = some 0x7B524110 := by decide

/-- V28: the step that accepts, over registers that hold something else. -/
theorem test_init :
    ask (step { offerState [] with acc := 5, res := 6, pos := 7, boff := 8 }) (fun t => (t.acc, t.res, t.pos, t.boff, t.ph)) =
      some (0, 0x12345678, 0, 0, .p8) := by decide

/-- V29. -/
theorem test_ret :
    ask (exec .ret (finishState .done 0x00CCBBAA 0xAABBCC00 0xB88F9A78)) (fun t => (t.digest, t.ph, t.responses)) =
      some (0xB88F9A78, .idle, [0xB88F9A78]) := by decide

/-- V3, both orders; the bytes read are the window's (P1). -/
theorem test_hash_three_bytes :
    let s (bo : ByteOrder) : State := sample bo 0x2000 [0xAA, 0xBB, 0xCC]
    ask (exec (.hash 0x2000 3 0x12345678) (s .le)) (fun t => (t.digest, t.reads)) = some (0xB88F9A78, [0x2000, 0x2001, 0x2002]) ∧
      ask (exec (.hash 0x2000 3 0x12345678) (s .be)) (fun t => (t.digest, t.acc)) = some (0x12F8FCC3, 0xCCAABB) := by decide

/-- V16, both orders: two groups and a last byte, at an odd address. -/
theorem test_hash_seventeen_bytes :
    ask (exec (.hash 0x1003 17 1) (sample .le 0x1003 p2Bytes)) (fun t => t.digest) = some 0x20000001 ∧
      ask (exec (.hash 0x1003 17 1) (sample .be 0x1003 p2Bytes)) (fun t => t.digest) = some 0x00000021 := by decide

/-! ### Steps -/

/-- P1, step 4 (`LE`): `XOR2 @0x2000` in `P2`, then `P1`. -/
theorem test_step_p2 :
    let s : State := { sample .le 0x2000 [0xAA, 0xBB, 0xCC] with ph := .p2, len := 3 }
    ask (step s) (fun t => (t.ph, t.acc, t.pos, t.boff)) = some (.p1, 0xBBAA, 2, 16) ∧
      traceEntry {} s = some ("XOR2", some 0x2000) := by decide

/-- P1, step 5: the spelling with the shift. -/
theorem test_trace_xor1 :
    let s : State := { sample .le 0x2000 [0xAA, 0xBB, 0xCC] with ph := .p1, len := 3, pos := 2, boff := 16 }
    traceEntry {} s = some ("XOR1.16", some 0x2002) := by decide

/-- R141: a reset during a run; R46: a write by another agent in that step happens all the same. -/
theorem test_step_reset :
    ask (step { groupState with inputs := [{ reset := true, writes := [[(0x1003, 9)]] }] })
      (fun t => (t.ph, t.responses, Memory.read t.mem 0x1003)) = some (.idle, [], some 9) := by decide

/-- R31: an address that becomes readable in P5's last step is not in its `VALID` (V36); one of V7's `VALID` that is unmapped and mapped again
before its read is answered (bytes 50 60). -/
theorem test_step_valid_is_fixed :
    faultAt (step (p5State [{ remap := [⟨0x3005, true, 0xA5⟩] }])) = some 0x3005 ∧
      ask (step { tailState .p2 0x40302010 4 0 with inputs := [{ remap := [⟨0x1005, false, 0⟩, ⟨0x1005, true, 0x60⟩] }] })
        (fun t => (t.acc, t.pos)) = some (0x40304040, 6) := by decide

/-- R144, R41: the sixth byte of V7's window is unmapped in the step of the `XOR2` that reads it, and the fault names it; a byte that was read
before (the first) can be unmapped without one. -/
theorem test_step_unmapped_byte_faults :
    faultAt (step { tailState .p2 0x40302010 4 0 with inputs := [{ remap := [⟨0x1005, false, 0x60⟩] }] }) = some 0x1005 ∧
      ask (step { tailState .p2 0x40302010 4 0 with inputs := [{ remap := [⟨0x1000, false, 0⟩] }] })
        (fun t => (t.acc, decide (0x1000 ∈ t.readable), decide (0x1000 ∈ t.valid))) = some (0x40304040, false, true) := by decide

/-- R142 P1, V36 with `VALID` extended by `0x3005: A5` in the step that accepts: that byte is readable for the command. -/
theorem test_step_accept_latches_valid :
    ask (step { p5State [{ offer := some ⟨0x3000, 6, 0⟩, remap := [⟨0x3005, true, 0xA5⟩] }] with ph := .idle })
      (fun t => (t.ph, t.valid, t.readByte 0x3005)) =
        some (.p8, [0x3000, 0x3001, 0x3002, 0x3003, 0x3004, 0x3005], some 0xA5) := by decide

/-- R36: another agent writes both bytes of an `XOR2` between its two byte reads; the load gets the old first and the new second byte. -/
theorem test_step_torn_load :
    ask (step { sample .le 0x1000 [0x11, 0x22] with
        ph := .p2, len := 2, inputs := [{ writes := [[], [(0x1000, 0xAA), (0x1001, 0xBB)]] }] })
      (fun t => (t.acc, t.readByte 0x1000, t.readByte 0x1001)) = some (0xBB11, some 0xAA, some 0xBB) := by decide

/-- P5: the fault of V36, which a step without a reset does not clear (R121): `PH` stays `P2`, no digest. -/
theorem test_step_fault_is_permanent :
    faultAt (step (p5State [])) = some 0x3005 ∧
      (let t := State.advances 2 (p5State []); (t.ph, t.acc, t.fault, t.responses)) = (.p2, 0xEFBEADDE, some 0x3005, []) ∧
      faultAt (step (State.advances 2 (p5State []))) = some 0x3005 := by decide

/-- R125: a reset after the fault leads back to `IDLE`, where P1's command is accepted again. -/
theorem test_step_reset_after_fault :
    let t := State.advances 3 (p5State [{}, { reset := true }, { offer := some p1 }])
    (t.ph, t.fault, t.len, t.seed) = (.p8, none, 3, 0x12345678) := by decide

/-- R76: an offer in the step of `RET` is not accepted. -/
theorem test_offer_with_ret :
    ask (step { finishState .done 0 0 0xB88F9A78 with inputs := [{ offer := some p1, take := true }] })
      (fun t => (t.ph, t.digest)) = some (.idle, 0xB88F9A78) := by decide

/-- The table word of a `LEN` of 4 is placed and accepted by the next step (R71). -/
theorem test_fetch_word :
    ask (step ((sample .le 0 []).withFetchWord 32 0x00000004)) (fun t => (t.ph, t.len, t.seed, t.base)) = some (.p8, 4, 0, 0) := by decide

/-- P4, one step of each of two instances over one memory, in either order: both accept. -/
theorem test_two_instances :
    let x : State := offerState []
    let y : State := { sample .be 0 [] with inputs := [{ offer := some ⟨0x4004, 8, 0xFFFFFFFF⟩ }] }
    let sys : System := ⟨[(0x4004, 5)], [0x4004], [x, y]⟩
    (((sys.stepAt 0).bind fun u => u.stepAt 1).map fun u => u.instances.map fun t => (t.ph, t.seed, t.valid)) =
        some [(.p8, 0x12345678, [0x4004]), (.p8, 0xFFFFFFFF, [0x4004])] ∧
      ((sys.stepAt 0).bind fun u => u.stepAt 1) = ((sys.stepAt 1).bind fun u => u.stepAt 0) := by decide

/-- R127: P5's instance faults, an instance beside it goes on and accepts P1's command; the fault stays with the first. -/
theorem test_two_instances_one_faults :
    let sys : System := ⟨(p5State []).mem, (p5State []).readable, [p5State [], offerState []]⟩
    (((sys.stepAt 0).bind fun u => u.stepAt 1).map fun u => u.instances.map fun t => (t.ph, t.fault)) =
      some [(.p2, some 0x3005), (.p8, none)] := by decide

/-- R144, R127: while P5's instance is busy, and after it has faulted, the caller of another instance makes `0x3005` readable: an invocation
that is accepted then has it in its `VALID`, whether the first one moves before or not, and the first one faults there all the same. -/
theorem test_two_instances_remap :
    ((p5Pair.run [1, 0]).instances.map fun t => (t.fault, decide (0x3005 ∈ t.valid))) = [(some 0x3005, false), (none, true)] ∧
      ((p5Pair.run [0, 1]).instances.map fun t => (t.fault, decide (0x3005 ∈ t.valid))) = [(some 0x3005, false), (none, true)] := by decide

/-! ### Witnesses: the invariant in every phase -/

theorem inv_groupState : groupState.Inv :=
  ⟨by decide, by decide, by decide, by decide, by decide, by decide, rfl, fun _ => ⟨by decide, by decide, by decide, by decide, by decide, by decide, by decide, by decide, by decide⟩,
    fun _ h => by cases h⟩

theorem inv_tailState_p4 : (tailState .p4 0 0 0).Inv :=
  ⟨by decide, by decide, by decide, by decide, by decide, by decide, rfl, fun _ => ⟨by decide, by decide, by decide, by decide, by decide, by decide, by decide, by decide, by decide⟩,
    fun _ h => by cases h⟩

/-- V7: `ACC` after `XOR4`. -/
theorem inv_tailState_p2 : (tailState .p2 0x40302010 4 0).Inv :=
  ⟨by decide, by decide, by decide, by decide, by decide, by decide, rfl, fun _ => ⟨by decide, by decide, by decide, by decide, by decide, by decide, by decide, by decide, by decide⟩,
    fun _ h => by cases h⟩

/-- V7: `ACC` after `XOR2`. -/
theorem inv_tailState_p1 : (tailState .p1 0x40304040 6 16).Inv :=
  ⟨by decide, by decide, by decide, by decide, by decide, by decide, rfl, fun _ => ⟨by decide, by decide, by decide, by decide, by decide, by decide, by decide, by decide, by decide⟩,
    fun _ h => by cases h⟩

/-- P1 (`LE`) after its steps 5, 6, 7 and 8. -/
theorem inv_finishState :
    (finishState .pf 0 0 0x12345678).Inv ∧ (finishState .pn 0x00CCBBAA 0 0x12345678).Inv ∧
      (finishState .pb 0x00CCBBAA 0xAABBCC00 0x12345678).Inv ∧ (finishState .done 0x00CCBBAA 0xAABBCC00 0xB88F9A78).Inv :=
  ⟨⟨by decide, by decide, by decide, by decide, by decide, by decide, rfl, fun _ => ⟨by decide, by decide, by decide, by decide, by decide, by decide, by decide, by decide, by decide⟩,
    fun _ h => by cases h⟩,
    ⟨by decide, by decide, by decide, by decide, by decide, by decide, rfl, fun _ => ⟨by decide, by decide, by decide, by decide, by decide, by decide, by decide, by decide, by decide⟩,
    fun _ h => by cases h⟩,
    ⟨by decide, by decide, by decide, by decide, by decide, by decide, rfl, fun _ => ⟨by decide, by decide, by decide, by decide, by decide, by decide, by decide, by decide, by decide⟩,
    fun _ h => by cases h⟩,
    ⟨by decide, by decide, by decide, by decide, by decide, by decide, rfl, fun _ => ⟨by decide, by decide, by decide, by decide, by decide, by decide, by decide, by decide, by decide⟩,
    fun _ h => by cases h⟩⟩

theorem inv_p5State : (p5State []).Inv :=
  ⟨by decide, by decide, by decide, by decide, by decide, by decide, rfl, fun _ => ⟨by decide, by decide, by decide, by decide, by decide, by decide, by decide, by decide, by decide⟩,
    fun _ h => by cases h⟩

/-- P5 after its last step: the fault is recorded. -/
theorem inv_p5State_faulted : (p5State []).advance.Inv :=
  ⟨by decide, by decide, by decide, by decide, by decide, by decide, by decide,
    fun _ => ⟨by decide, by decide, by decide, by decide, by decide, by decide, by decide, by decide, by decide⟩,
    fun a h => by
      obtain rfl : (0x3005 : Nat) = a := Option.some.inj h
      exact ⟨by decide, by decide, by decide⟩⟩

/-! ### Witnesses: encoding -/

theorem witness_DecodeOfEncode : (Instr.hash 0xFFFF 0xFFFFFFFF 0x80000000).wf 16 = true := by decide

theorem witness_EncodeOfDecode : ∃ i rest, decode 16 [0x11, 0, 0, 0, 0x01, 0, 0, 0, 0x03, 0x10, 0x77] = .ok (i, rest) :=
  ⟨_, _, test_decode_p2_bytes⟩

/-- The largest record for `AW = 16`. -/
theorem witness_EveryRecordDecodes : 2 ^ 80 - 1 < 2 ^ (64 + 16) ∧ 31 < 32 := by decide

/-- A word no wider than `LEN`, and one with a `BASE`. -/
theorem witness_TableWordIsHash : 0xFFFFFFFF < 2 ^ 32 ∧ 0x20001234567800000003 < 2 ^ 80 := by decide

/-- Each of the eight remainders is met, by lengths 8 to 15. -/
theorem witness_RemainderCases :
    (List.range 8).map (fun r => (BitVec.ofNat 32 (8 + r)).toNat % 8) = [0, 1, 2, 3, 4, 5, 6, 7] := by decide

theorem witness_MicroOperationCount : [Instr.xor4, .xor2, .xor1].all (fun i => decide (i ∈ expansion 7)) = true ∧
    [Instr.xor4, .xor2, .xor1].all (fun i => decide (i ∉ expansion 8)) = true := by decide

/-! ### Witnesses: micro-operations -/

theorem witness_Xor8Completes : groupState.holds (byteAt 0x1003 p2Bytes) groupState.ea 8 := by
  unfold State.holds; decide

theorem witness_Xor4Completes :
    (tailState .p4 0 0 0).holds (byteAt 0x1000 [0x10, 0x20, 0x30, 0x40, 0x50, 0x60, 0x70]) (tailState .p4 0 0 0).ea 4 := by
  unfold State.holds; decide

theorem witness_Xor2Completes :
    (tailState .p2 0x40302010 4 0).holds (byteAt 0x1000 [0x10, 0x20, 0x30, 0x40, 0x50, 0x60, 0x70])
      (tailState .p2 0x40302010 4 0).ea 2 := by
  unfold State.holds; decide

/-- Both clauses: `BOFF` 16, and `BOFF` 0. -/
theorem witness_Xor1Completes :
    ((tailState .p1 0x40304040 6 16).holds (byteAt 0x1000 [0x10, 0x20, 0x30, 0x40, 0x50, 0x60, 0x70])
      (tailState .p1 0x40304040 6 16).ea 1 ∧ (tailState .p1 0x40304040 6 16).boff = 16) ∧
    (sample .be 0xFFFF [0x80]).holds (byteAt 0xFFFF [0x80]) (sample .be 0xFFFF [0x80]).ea 1 ∧
      (sample .be 0xFFFF [0x80]).boff = 0 := by
  unfold State.holds; decide

theorem witness_NormCompletes : (sample .le 0 []).params.byteOrder = .le ∧ (sample .be 0 []).params.byteOrder = .be := by decide

theorem witness_BlendCompletes :
    (finishState .pb 0x00CCBBAA 0xAABBCC00 0x12345678).Inv ∧ (finishState .pb 0x00CCBBAA 0xAABBCC00 0x12345678).ph = .pb :=
  ⟨inv_finishState.2.2.1, rfl⟩

/-- Every micro-operation answers a next state somewhere. -/
theorem witness_RegistersAreWrittenByTheTable :
    ∀ i ∈ [Instr.init, .xor8, .xor4, .xor2, .xor1, .fold, .norm, .blend, .ret],
      (∀ b l d, i ≠ .hash b l d) ∧ (ask (exec i groupState) fun t => t.params).isSome = true := by
  intro i hi
  simp only [List.mem_cons, List.not_mem_nil, or_false] at hi
  rcases hi with rfl | rfl | rfl | rfl | rfl | rfl | rfl | rfl | rfl <;> exact ⟨fun _ _ _ => Instr.noConfusion, by decide⟩

theorem witness_LoadIsTheSum : 8 ≤ 8 ∧ groupState.holds (byteAt 0x1003 p2Bytes) 0x100C 8 := by
  unfold State.holds; decide

/-- V36: the fault of the statement does occur, in a state whose `VALID` holds bytes. -/
theorem witness_ReadFaultsAtLowestAddress :
    let s : State := { sample .le 0x3000 [0xDE, 0xAD, 0xBE, 0xEF, 0x5A] with pos := 4 }
    faultAt (exec .xor2 s) = some 0x3005 ∧ ∀ y ∈ s.readable, (Memory.read s.mem y).isSome = true := by decide

/-- P5: a state with the invariant whose step faults, with no fault recorded and with the fault recorded. -/
theorem witness_StepOutcomes :
    ((p5State []).Inv ∧ (p5State []).fault = none ∧ faultAt (step (p5State [])) = some 0x3005) ∧
      (p5State []).advance.Inv ∧ (p5State []).advance.fault = some 0x3005 ∧ faultAt (step (p5State []).advance) = some 0x3005 :=
  ⟨⟨inv_p5State, by decide, by decide⟩, inv_p5State_faulted, by decide, by decide⟩

/-- A step with a write by another agent, and an address that it does not write; an operation that completes. -/
theorem witness_MemoryIsNeverWritten :
    let s : State := { groupState with inputs := [{ remap := [⟨0x4000, true, 9⟩], writes := [[], [(0x1004, 9)]] }] }
    (ask (step s) fun t => t.params).isSome = true ∧ (∀ x ∈ s.input.remap, x.addr ≠ 0x1003) ∧
      (∀ x ∈ s.pending.flatten, x.1 ≠ 0x1003) ∧ (∀ x ∈ s.input.writes.flatten, x.1 ≠ 0x1003) ∧
      (ask (exec .xor8 s) fun t => t.params).isSome = true := by decide

/-! ### Witnesses: the sequencer -/

/-- The four clauses: a record offered in `IDLE`; a phase that selects an operation; each kind of row that performs none (`P8` with
`POS[31:3] = G`, `P4`, `P2`, `P1` with their bit clear, no step in `IDLE` and in `DONE`); a table word placed. -/
theorem witness_StepRunsSelectedOperation :
    ((offerState []).input.reset = false ∧ (offerState []).fault = none ∧ (offerState []).ph = .idle ∧
      decode (offerState []).params.aw (natToBytes 10 0x20001234567800000003) = .ok (.hash 0x2000 3 0x12345678, []) ∧
      (offerState []).input.offer = some ⟨0x2000, 3, 0x12345678⟩) ∧
    (groupState.input.reset = false ∧ groupState.fault = none ∧ groupState.ph ≠ .idle ∧
      selectOp groupState.ph groupState.pos groupState.len groupState.input.offer.isSome groupState.input.take = some .xor8) ∧
    (∀ ph ∈ [Phase.idle, .p8, .p4, .p2, .p1, .done],
      let s : State := { sample .le 0 [] with ph := ph }
      s.input.reset = false ∧ s.fault = none ∧ selectOp s.ph s.pos s.len s.input.offer.isSome s.input.take = none) ∧
    decodeTableWord 80 0x20001234567800000003 = some (.hash 0x2000 3 0x12345678) ∧ 0x2000 < 2 ^ groupState.params.aw := by decide

/-- P2's steps 2 and 4. -/
theorem witness_SequencerRows :
    (0 : Word32).extractLsb' 3 29 ≠ lenG 17 ∧ (16 : Word32).extractLsb' 3 29 = lenG 17 := by decide

theorem witness_IdleAndDoneWait :
    ((sample .le 0 []).input.reset = false ∧ (sample .le 0 []).fault = none ∧ (sample .le 0 []).ph = .idle ∧
      (sample .le 0 []).input.offer = none) ∧
    (finishState .done 0 0 0).input.reset = false ∧ (finishState .done 0 0 0).fault = none ∧ (finishState .done 0 0 0).ph = .done ∧
      (finishState .done 0 0 0).input.take = false := by decide

theorem witness_BusyOfferHasNoEffect :
    groupState.ph ≠ .idle ∧ (finishState .done 0 0 0).ph ≠ .idle ∧ (p5State []).advance.fault ≠ none := by decide

theorem witness_ResetAbandons : ({ groupState with inputs := [{ reset := true }] } : State).input.reset = true := by decide

theorem witness_ResetState : 1 ≤ (Params.mk .le 1).aw ∧ 1 ≤ (Params.mk .be 64).aw := by decide

/-- From every phase a state with the invariant, no reset, and a step to a next state; the phases of each clause among them. -/
theorem witness_StepKeepsInvariant :
    (groupState.Inv ∧ groupState.ph = .p8 ∧ ∃ t, step groupState = .next t) ∧
    ((tailState .p4 0 0 0).Inv ∧ (tailState .p4 0 0 0).ph = .p4 ∧ ∃ t, step (tailState .p4 0 0 0) = .next t) ∧
    ((tailState .p2 0x40302010 4 0).Inv ∧ (tailState .p2 0x40302010 4 0).ph = .p2 ∧
      ∃ t, step (tailState .p2 0x40302010 4 0) = .next t) ∧
    ((tailState .p1 0x40304040 6 16).Inv ∧ (tailState .p1 0x40304040 6 16).ph = .p1 ∧
      ∃ t, step (tailState .p1 0x40304040 6 16) = .next t) ∧
    ((finishState .pf 0 0 0x12345678).Inv ∧ (finishState .pf 0 0 0x12345678).ph = .pf ∧
      ∃ t, step (finishState .pf 0 0 0x12345678) = .next t) ∧
    groupState.input.reset = false ∧ (tailState .p4 0 0 0).input.reset = false ∧
      (finishState .pf 0 0 0x12345678).input.reset = false :=
  ⟨⟨inv_groupState, rfl, _, rfl⟩, ⟨inv_tailState_p4, rfl, _, rfl⟩, ⟨inv_tailState_p2, rfl, _, rfl⟩,
    ⟨inv_tailState_p1, rfl, _, rfl⟩, ⟨inv_finishState.1, rfl, _, rfl⟩, rfl, rfl, rfl⟩

/-! ### Witnesses: the command as a whole -/

theorem witness_HashCompletes : (offerState []).launch (byteAt 0x2000 [0xAA, 0xBB, 0xCC]) p1 :=
  ⟨rfl, rfl, by decide, by decide, by unfold State.holds; decide⟩

/-- V36: offset 5 is the first outside `VALID`. -/
theorem witness_HashFaultsOutsideValid :
    let s : State := sample .le 0x3000 [0xDE, 0xAD, 0xBE, 0xEF, 0x5A]
    let c : Command := ⟨0x3000, 6, 0⟩
    s.ph = .idle ∧ s.fault = none ∧ c.wf s.params.aw = true ∧ 5 < c.len.toNat ∧ (s.accept c).readByte (c.base + 5) = none ∧
      ∀ j, j < 5 → (s.accept c).readByte (c.base + j) ≠ none := by decide

theorem witness_ZeroLengthGivesSeed : (sample .le 0 []).ph = .idle ∧ (sample .le 0 []).fault = none := by decide

theorem witness_HashIsItsExpansion : (offerState []).ph = .idle ∧ (offerState []).fault = none := by decide

/-- P1 with the response taken in its ninth step, and in between an offer. -/
theorem witness_StepsAgreeWithHash :
    let s : State := offerState [{}, { offer := some p1 }, {}, {}, {}, {}, {}, { take := true }]
    s.ph = .idle ∧ s.fault = none ∧ s.silent ∧ s.input.offer = some p1 ∧ s.noReset (stepsToDone p1.len + 1) ∧
      (∀ e ∈ s.inputs.take (stepsToDone p1.len + 1), e.remap = [] ∧ e.writes = []) ∧ (s.inputs.getD (stepsToDone p1.len) {}).take = true := by
  unfold State.silent State.noReset; decide

/-- P1 while another agent makes a byte beside the window readable in the step that accepts, writes it and makes it unreadable later. -/
theorem witness_RunReachesDone :
    let s : State := { offerState [] with
      inputs := [{ offer := some p1, remap := [⟨0x2003, true, 7⟩] }, {}, { writes := [[(0x2003, 8)]] }, { remap := [⟨0x2003, false, 0⟩] }] }
    s.input.offer = some p1 ∧ s.begin.settle.launch (byteAt 0x2000 [0xAA, 0xBB, 0xCC]) p1 ∧
      s.noReset (stepsToDone p1.len) ∧ s.undisturbed p1 (stepsToDone p1.len) :=
  ⟨rfl, ⟨rfl, rfl, by decide, by decide, by unfold State.holds; decide⟩, by unfold State.noReset; decide,
    by unfold State.undisturbed; decide⟩

/-- P1 while another agent writes the first byte before its read, the second between the two byte reads of the `XOR2` of step 3, the first
again then, and the last after its read: the bytes at the moments of their reads are P1's, although memory never holds them together. -/
theorem witness_RunHashesTheBytesRead :
    let s : State := { offerState [{}, { writes := [[(0x2000, 0xAA)]] }, { writes := [[], [(0x2001, 0xBB), (0x2000, 0)]] },
        { writes := [[], [(0x2002, 0)]] }] with mem := [(0x2000, 0), (0x2001, 0), (0x2002, 0xCC)] }
    s.ph = .idle ∧ s.fault = none ∧ s.input.offer = some p1 ∧ p1.base + p1.len.toNat ≤ 2 ^ s.params.aw ∧
      s.noReset (stepsToDone p1.len) ∧
      ∀ p, p < p1.len.toNat → s.answers p1 p ∧
        Memory.read (s.memAt (readStep p1.len.toNat p) (readIndex p1.len.toNat p)) (p1.base + p) =
          some (byteAt 0x2000 [0xAA, 0xBB, 0xCC] (p1.base + p)) := by
  unfold State.noReset State.answers; decide

/-- V37: the same bytes elsewhere, in an instance with other register contents; both invocations complete. -/
theorem witness_DigestDependsOnWindowOnly :
    let s : State := sample .le 0x2000 [0xAA, 0xBB, 0xCC]
    let s' : State := { sample .le 0x1007 [0xAA, 0xBB, 0xCC, 0xEE] with acc := 77, boff := 3 }
    let c' : Command := ⟨0x1007, 3, 0x12345678⟩
    s.ph = .idle ∧ s'.ph = .idle ∧ s.fault = none ∧ s'.fault = none ∧ s.params.byteOrder = s'.params.byteOrder ∧ p1.wf s.params.aw = true ∧
      c'.wf s'.params.aw = true ∧ p1.len = c'.len ∧ p1.seed = c'.seed ∧
      (∀ k, k < p1.len.toNat →
        ((s.accept p1).landed (k + 1)).readByte (p1.base + k) = ((s'.accept c').landed (k + 1)).readByte (c'.base + k)) ∧
      (ask (exec (.hash p1.base p1.len p1.seed) s) fun t => t.ph).isSome = true ∧
      (ask (exec (.hash c'.base c'.len c'.seed) s') fun t => t.ph).isSome = true := by decide

theorem witness_InstancesDoNotInteract :
    let sys : System := ⟨[], [], [offerState [], sample .be 0 []]⟩
    0 ≠ 1 ∧ (∀ s, sys.instances[0]? = some s → s.silent) ∧ (∀ s, sys.instances[1]? = some s → s.silent) :=
  ⟨by decide, fun s h => by cases h; exact ⟨rfl, rfl, rfl⟩, fun s h => by cases h; exact ⟨rfl, rfl, rfl⟩⟩

/-! ### Witnesses: lanes and laws -/

theorem witness_AccumulatorLanes : 7 < 8 ∧ accLane .be 17 16 = 0 := by decide

theorem witness_DigestLanes : 3 < 4 ∧ 16 < 17 ∧ digestLane .le 17 16 = 3 := by decide

theorem witness_SeedLinearity :
    (sample .le 0x2000 [0xAA, 0xBB, 0xCC]).ph = .idle ∧ (sample .le 0x2000 [0xAA, 0xBB, 0xCC]).fault = none ∧
      (ask (exec (.hash 0x2000 3 0x12345678) (sample .le 0x2000 [0xAA, 0xBB, 0xCC])) fun t => t.digest) = some 0xB88F9A78 ∧
      (ask (exec (.hash 0x2000 3 0) (sample .le 0x2000 [0xAA, 0xBB, 0xCC])) fun t => t.digest) = some 0xAABBCC00 := by decide

/-- V31: the split of 16 bytes at 8, and at the two ends of the range. -/
theorem witness_SplittingAtMultiplesOfFour :
    (8 : Word32).toNat % 4 = 0 ∧ (8 : Word32).toNat ≤ (16 : Word32).toNat ∧ (0 : Word32).toNat % 4 = 0 ∧
      (16 : Word32).toNat % 4 = 0 ∧ (16 : Word32).toNat ≤ (16 : Word32).toNat := by decide

/-- V30: the last position of its sample. -/
theorem witness_OneBitFlipsOneBit : 8 < (9 : Word32).toNat ∧ 7 < 8 := by decide

/-- A window whose last byte is zero; a length that is no multiple of 4. -/
theorem witness_ByteOrderMattersOffMultiplesOfFour :
    (∀ p, 4 * ((5 : Word32).toNat / 4) ≤ p → p < (5 : Word32).toNat → byteAt 0 [1, 2, 3, 4, 0] (0 + p) = 0) ∧
      (5 : Word32).toNat % 4 ≠ 0 :=
  ⟨fun p h1 h2 => by
    have h5 : (5 : Word32).toNat = 5 := rfl
    rw [h5] at h1 h2
    obtain rfl : p = 4 := by omega
    rfl, by decide⟩

/-- V34: the aligned words of `A` swapped, the tail kept; bytes 0 and 4 exchanged; an insertion at 4; two equal aligned words. -/
theorem witness_CollisionsAreReproduced :
    (∃ σ : Equiv.Perm (Fin ((10 : Word32).toNat / 4)),
      (∀ (i : Fin ((10 : Word32).toNat / 4)) (k : Nat), k < 4 →
        byteAt 0 [5, 6, 7, 8, 1, 2, 3, 4, 9, 10] (0 + 4 * i + k) =
          byteAt 0 [1, 2, 3, 4, 5, 6, 7, 8, 9, 10] (0 + 4 * (σ i : Nat) + k)) ∧
      (∀ p, p < (10 : Word32).toNat → 4 * ((10 : Word32).toNat / 4) ≤ p →
        byteAt 0 [5, 6, 7, 8, 1, 2, 3, 4, 9, 10] (0 + p) = byteAt 0 [1, 2, 3, 4, 5, 6, 7, 8, 9, 10] (0 + p))) ∧
    (0 < 4 * ((10 : Word32).toNat / 4) ∧ 4 < 4 * ((10 : Word32).toNat / 4) ∧ 0 % 4 = 4 % 4) ∧
    (4 % 4 = 0 ∧ 4 ≤ (10 : Word32).toNat ∧ (10 : Word32).toNat + 4 < 2 ^ 32) ∧
    (0 < 1 ∧ 1 < (10 : Word32).toNat / 4 ∧
      ∀ k, k < 4 → byteAt 0 [1, 2, 3, 4, 1, 2, 3, 4, 9, 10] (0 + 4 * 0 + k) = byteAt 0 [1, 2, 3, 4, 1, 2, 3, 4, 9, 10] (0 + 4 * 1 + k)) :=
  ⟨⟨Equiv.swap ⟨0, by decide⟩ ⟨1, by decide⟩, by decide, by decide⟩, by decide, by decide, by decide⟩

/-! ### Witnesses: VALID, byte reads, recorded faults, instances that fault -/

/-- The clauses: a step that accepts; a busy instance whose step completes, with the invariant; an operation that completes; a system with
P5's instance (number 0) in which number 1 moves. -/
theorem witness_ValidIsFixedForAnInvocation :
    let sys : System := ⟨(p5State []).mem, (p5State []).readable, [p5State [], offerState []]⟩
    ((offerState []).ph = .idle ∧ (offerState []).input.reset = false ∧ (offerState []).input.offer = some p1 ∧
      (ask (step (offerState [])) fun t => t.params).isSome = true) ∧
    (groupState.ph ≠ .idle ∧ groupState.input.reset = false ∧ groupState.Inv ∧
      (ask (step groupState) fun t => t.params).isSome = true) ∧
    (ask (exec .xor8 groupState) fun t => t.params).isSome = true ∧
    sys.instances[0]? = some (p5State []) ∧ 0 ≠ 1 ∧ (sys.mover (p5State [])).Inv ∧ (sys.stepAt 1).isSome = true :=
  ⟨by decide, ⟨by decide, by decide, inv_groupState, by decide⟩, by decide, rfl, by decide, inv_p5State, by decide⟩

/-- While P2's instance is busy: an address that is made unreadable and then readable, and one the other way round. -/
theorem witness_RemappingsTakeEffectInEveryPhase :
    let s : State := { groupState with inputs := [{ remap := [⟨0x4000, false, 1⟩, ⟨0x4000, true, 2⟩, ⟨0x1003, false, 3⟩] }] }
    s.ph = .p8 ∧
    (s.input.remap = [⟨0x4000, false, 1⟩] ++ ⟨0x4000, true, 2⟩ :: [⟨0x1003, false, 3⟩] ∧
      ∀ y ∈ ([⟨0x1003, false, 3⟩] : List Remap), y.addr ≠ 0x4000) ∧
    (s.input.remap = [⟨0x4000, false, 1⟩, ⟨0x4000, true, 2⟩] ++ ⟨0x1003, false, 3⟩ :: [] ∧ ∀ y ∈ ([] : List Remap), y.addr ≠ 0x1003) ∧
    ∀ y ∈ s.input.writes.flatten, y.1 ≠ 0x4000 ∧ y.1 ≠ 0x1003 := by decide

/-- P5 with a reset in its third step from here (clause three, `n = 1`) and without one (clause two). -/
theorem witness_FaultLastsUntilReset :
    let s : State := p5State [{}, {}, { reset := true }]
    step s = .fault (.outOfBuffer 0x3005) ∧ s.noReset (1 + 1) ∧ (s.inputs.getD (1 + 1) {}).reset = true ∧
      s.noReset (0 + 1) ∧ (s.inputs.getD (0 + 1) {}).reset = false :=
  ⟨rfl, by unfold State.noReset; decide, rfl, by unfold State.noReset; decide, rfl⟩

theorem witness_AdvanceKeepsInvariant : (p5State []).Inv ∧ step (p5State []) = .fault (.outOfBuffer 0x3005) :=
  ⟨inv_p5State, rfl⟩

/-- P5's instance beside one in `IDLE`: number 0 faults, number 1 answers a next state. -/
theorem witness_FaultStopsNoOtherInstance :
    let sys : System := ⟨(p5State []).mem, (p5State []).readable, [p5State [], offerState []]⟩
    (sys.instances[0]? = some (p5State []) ∧ faultAt (step (sys.mover (p5State []))) = some 0x3005) ∧
      sys.instances[1]? = some (offerState []) ∧ (ask (step (sys.mover (offerState []))) fun t => t.ph) = some .p8 := by decide

/-- P5's instance (number 0) and the one of `besideState` (number 1) over P5's memory. -/
theorem inv_p5Pair : ∀ s ∈ p5Pair.instances, (p5Pair.mover s).Inv := by
  intro s hs
  simp only [p5Pair, List.mem_cons, List.not_mem_nil, or_false] at hs
  rcases hs with rfl | rfl
  · exact inv_p5State
  · exact ⟨by decide, by decide, by decide, by decide, by decide, by decide, rfl, fun h => absurd rfl h, fun _ h => by cases h⟩

theorem witness_SystemKeepsInvariant : (∀ s ∈ p5Pair.instances, (p5Pair.mover s).Inv) ∧ (p5Pair.stepAt 1).isSome = true :=
  ⟨inv_p5Pair, by decide⟩

/-- Number 1 makes a byte readable and offers a command on it, beside number 0; and number 0, busy, beside number 1, which changes a byte
outside the window up to `0x3004`. -/
theorem witness_InterleavingAffectsNoDigest :
    (p5Pair.instances[1]? = some besideState ∧ (p5Pair.mover besideState).Inv ∧ besideState.ph = .idle ∧
      (∀ e ∈ besideState.inputs, ∀ c, e.offer = some c → ∀ i, i < c.len.toNat → 0x3005 ≤ c.base % 2 ^ besideState.params.aw + i) ∧
      (p5State []).pending = [] ∧ (p5State []).inputs = []) ∧
    let s : State := { p5State [] with len := 5 }
    let sys : System := ⟨s.mem, s.readable, [s, besideState]⟩
    sys.instances[0]? = some s ∧ (sys.mover s).Inv ∧ s.ph ≠ .idle ∧ s.inputs = [] ∧
      (∀ i, i < s.len.toNat → s.base + i < 0x3005) ∧ besideState.pending = [] ∧
      ∀ e ∈ besideState.inputs, (∀ x ∈ e.writes.flatten, ¬ x.1 < 0x3005) ∧ ∀ x ∈ e.remap, ¬ x.addr < 0x3005 := by
  refine ⟨⟨rfl, inv_p5Pair _ (by simp [p5Pair]), rfl, ?_, rfl, rfl⟩, rfl, ?_, by decide, rfl, by decide, rfl, by decide⟩
  swap
  · exact ⟨by decide, by decide, by decide, by decide, by decide, by decide, rfl,
      fun _ => ⟨by decide, by decide, by decide, by decide, by decide, by decide, by decide, by decide, by decide⟩, fun _ h => by cases h⟩
  intro e he c hc i _
  obtain rfl : e = { remap := [⟨0x3005, true, 0xA5⟩], offer := some ⟨0x3005, 1, 0⟩ } := by simpa [besideState] using he
  cases hc
  show 0x3005 ≤ 0x3005 % 2 ^ 16 + i
  omega

/-- P1 while its caller unmaps the second byte in the step after the acceptance: offset 1, read in step 3, is the first that is not answered;
and P1 with its last byte not readable when it is accepted, and mapped again after it: offset 2, read in step 4. -/
theorem witness_RunFaultsAtUnreadableByte :
    let s : State := offerState [{ remap := [⟨0x2001, false, 0⟩] }]
    let s' : State := { offerState [{ remap := [⟨0x2002, true, 0⟩] }] with readable := [0x2000, 0x2001] }
    (s.Inv ∧ s.ph = .idle ∧ s.fault = none ∧ s.input.offer = some p1 ∧ p1.wf s.params.aw = true ∧ s.noReset (stepsToDone p1.len) ∧
      1 < p1.len.toNat ∧ ¬ s.answers p1 1 ∧ (∀ q, q < 1 → s.answers p1 q)) ∧
    s'.Inv ∧ s'.ph = .idle ∧ s'.fault = none ∧ s'.input.offer = some p1 ∧ p1.wf s'.params.aw = true ∧ s'.noReset (stepsToDone p1.len) ∧
      2 < p1.len.toNat ∧ ¬ s'.answers p1 2 ∧ ∀ q, q < 2 → s'.answers p1 q := by
  refine ⟨⟨?_, rfl, rfl, rfl, rfl, ?_, ?_⟩, ?_, rfl, rfl, rfl, rfl, ?_, ?_⟩
  case refine_1 | refine_4 =>
    exact ⟨by decide, by decide, by decide, by decide, by decide, by decide, rfl, fun h => absurd rfl h, fun _ h => by cases h⟩
  all_goals first | unfold State.noReset | unfold State.answers
  all_goals decide

end Sys2Proof.Tests
end

/-! ## The state: who writes what, and the invariant (10_state.md section 2, R16, R17, R22, R23)

What a row of R71 can do is said once, by `RowStep`; the invariant is split into what it says of memory (`EnvInv`) and of the invocation in
progress (`State.Busy`), and each row is shown to keep both. -/

namespace Sys2Proof.Machine

/-! ### What a completed micro-operation leaves -/

theorem exec_xor8_eq_next {s t : State} : exec .xor8 s = .next t ↔
    ∃ bytes, s.memRead s.ea 8 = .ok bytes ∧ t = accumulated 8 (assemble s.params.byteOrder bytes) s := accumulate_eq_next

theorem exec_xor4_eq_next {s t : State} : exec .xor4 s = .next t ↔
    ∃ bytes, s.memRead s.ea 4 = .ok bytes ∧ t = accumulated 4 (assemble s.params.byteOrder bytes) s := accumulate_eq_next

theorem exec_xor2_eq_next {s t : State} : exec .xor2 s = .next t ↔
    ∃ bytes, s.memRead s.ea 2 = .ok bytes ∧
      t = { accumulated 2 (assemble s.params.byteOrder bytes) s with boff := boffArmed } := by
  refine andThen_eq_next.trans ⟨?_, ?_⟩
  · rintro ⟨u, hu, ht⟩
    obtain ⟨bytes, hread, rfl⟩ := accumulate_eq_next.mp hu
    cases ht
    exact ⟨bytes, hread, rfl⟩
  · rintro ⟨bytes, hread, rfl⟩
    exact ⟨_, accumulate_eq_next.mpr ⟨bytes, hread, rfl⟩, rfl⟩

theorem exec_xor1_eq_next {s t : State} : exec .xor1 s = .next t ↔
    ∃ bytes, s.memRead s.ea 1 = .ok bytes ∧
      t = accumulated 1 (assemble s.params.byteOrder bytes <<< s.boff.toNat) s := accumulate_eq_next

@[simp] theorem accumulated_res (n : Nat) (v : Word64) (s : State) : (accumulated n v s).res = s.res := rfl
@[simp] theorem accumulated_boff (n : Nat) (v : Word64) (s : State) : (accumulated n v s).boff = s.boff := rfl
@[simp] theorem accumulated_fld (n : Nat) (v : Word64) (s : State) : (accumulated n v s).fld = s.fld := rfl
@[simp] theorem accumulated_nrm (n : Nat) (v : Word64) (s : State) : (accumulated n v s).nrm = s.nrm := rfl
@[simp] theorem accumulated_digest (n : Nat) (v : Word64) (s : State) : (accumulated n v s).digest = s.digest := rfl
@[simp] theorem accumulated_ph (n : Nat) (v : Word64) (s : State) : (accumulated n v s).ph = s.ph := rfl

/-- `t` differs from `s` in working registers and histories only, and in that the writes of other agents before `n` byte reads have
landed (log entry 15). -/
structure State.Keeps (n : Nat) (s t : State) : Prop where
  base_eq : t.base = s.base
  len_eq : t.len = s.len
  seed_eq : t.seed = s.seed
  fault_eq : t.fault = s.fault
  params_eq : t.params = s.params
  inputs_eq : t.inputs = s.inputs
  readable_eq : t.readable = s.readable
  valid_eq : t.valid = s.valid
  mem_eq : t.mem = (s.landed n).mem
  pending_eq : t.pending = (s.landed n).pending

theorem accumulated_keeps (n : Nat) (v : Word64) (s : State) : s.Keeps n (accumulated n v s) :=
  ⟨rfl, rfl, rfl, rfl, rfl, rfl, rfl, rfl, rfl, rfl⟩

/-- A micro-operation writes no parameter, no input, no recorded fault and no `VALID` (R16), and lets the writes before at most 8 byte reads
land. -/
theorem exec_keeps {i : Instr} {s t : State} (hi : ∀ b l d, i ≠ .hash b l d) (h : exec i s = .next t) :
    ∃ n, n ≤ 8 ∧ s.Keeps n t := by
  cases i with
  | hash b l d => exact absurd rfl (hi b l d)
  | init | fold | norm | blend | ret =>
    cases h
    exact ⟨0, by omega, rfl, rfl, rfl, rfl, rfl, rfl, rfl, rfl, rfl, rfl⟩
  | xor8 => obtain ⟨_, -, rfl⟩ := exec_xor8_eq_next.mp h; exact ⟨8, by omega, accumulated_keeps ..⟩
  | xor4 => obtain ⟨_, -, rfl⟩ := exec_xor4_eq_next.mp h; exact ⟨4, by omega, accumulated_keeps ..⟩
  | xor2 =>
    obtain ⟨_, -, rfl⟩ := exec_xor2_eq_next.mp h
    exact ⟨2, by omega, rfl, rfl, rfl, rfl, rfl, rfl, rfl, rfl, rfl, rfl⟩
  | xor1 => obtain ⟨_, -, rfl⟩ := exec_xor1_eq_next.mp h; exact ⟨1, by omega, accumulated_keeps ..⟩

/-- Settles O18: the frame is `exec_keeps`, the working registers follow from what each micro-operation leaves. -/
theorem registersAreWrittenByTheTable : Obligations.RegistersAreWrittenByTheTable := by
  unfold Obligations.RegistersAreWrittenByTheTable
  intro i s t hi h
  obtain ⟨n, hn, hbase, hlen, hseed, hfault, hparams, hinputs, hreadable, hvalid, hmem, hpending⟩ := exec_keeps hi h
  have hland : ∃ n, n ≤ 8 ∧ t.mem = (s.landed n).mem ∧ t.pending = (s.landed n).pending := ⟨n, hn, hmem, hpending⟩
  simp only [hbase, hlen, hseed, hfault, hparams, hinputs, hreadable, hvalid, hland, and_true]
  cases i with
  | hash b l d => exact absurd rfl (hi b l d)
  | init | fold | norm | blend | ret => cases h; simp
  | xor8 => obtain ⟨_, -, rfl⟩ := exec_xor8_eq_next.mp h; simp
  | xor4 => obtain ⟨_, -, rfl⟩ := exec_xor4_eq_next.mp h; simp
  | xor2 => obtain ⟨_, -, rfl⟩ := exec_xor2_eq_next.mp h; simp
  | xor1 => obtain ⟨_, -, rfl⟩ := exec_xor1_eq_next.mp h; simp

/-! ### The control fields of `LEN` as numbers (R52) -/

theorem lenG_toNat (len : Word32) : (lenG len).toNat = len.toNat / 8 := by
  have := len.isLt
  rw [lenG, BitVec.extractLsb'_toNat, Nat.shiftRight_eq_div_pow]
  omega

theorem lenT4_toNat (len : Word32) : (lenT4 len).toNat = len.toNat / 4 % 2 := Nat.toNat_testBit len.toNat 2

theorem lenT2_toNat (len : Word32) : (lenT2 len).toNat = len.toNat / 2 % 2 := Nat.toNat_testBit len.toNat 1

theorem lenT1_toNat (len : Word32) : (lenT1 len).toNat = len.toNat % 2 :=
  (Nat.toNat_testBit len.toNat 0).trans (by rw [Nat.pow_zero, Nat.div_one])

/-- `POS[31:3] = G` compares the quotients by 8 (R71). -/
theorem groupsDone_iff {pos len : Word32} : groupsDone pos len = true ↔ pos.toNat / 8 = len.toNat / 8 := by
  rw [groupsDone, decide_eq_true_iff, ← BitVec.toNat_inj, lenG_toNat]
  exact iff_of_eq (congrArg (· = _) (lenG_toNat pos))

/-- The remainder ends at `LEN`: `8*G + 4*T4 + 2*T2 + T1 = LEN` (R23 c). -/
theorem posOnEntry_p1_add (len : Word32) : posOnEntry len .p1 + (lenT1 len).toNat = len.toNat := by
  simp only [posOnEntry, lenG_toNat, lenT4_toNat, lenT2_toNat, lenT1_toNat]
  omega

theorem posOnEntry_le (len : Word32) (ph : Phase) : posOnEntry len ph ≤ len.toNat := by
  have h := posOnEntry_p1_add len
  cases ph <;> simp only [posOnEntry] at h ⊢ <;> omega

/-! ### Lanes -/

theorem lane_xor {w : Nat} (u v : BitVec w) (j : Nat) : lane (u ^^^ v) j = lane u j ^^^ lane v j := BitVec.extractLsb'_xor

theorem getLsbD_lane {w : Nat} (v : BitVec w) (j i : Nat) : (lane v j).getLsbD i = (decide (i < 8) && v.getLsbD (8 * j + i)) :=
  BitVec.getLsbD_extractLsb' ..

theorem assemble_toNat_lt (bo : ByteOrder) {bytes : List Byte} (h : bytes.length ≤ 8) :
    (assemble bo bytes).toNat < 2 ^ (8 * bytes.length) := by
  cases bo with
  | le =>
    obtain ⟨hv, hlt⟩ := packLanes_toNat h
    exact hv ▸ hlt
  | be =>
    obtain ⟨hv, hlt⟩ := packLanes_toNat (bs := bytes.reverse) (by simpa using h)
    rw [List.length_reverse] at hlt
    exact hv ▸ hlt

/-- A value of `n` bytes shifted up by `k` lanes reaches no lane below `k` and none from `k + n` on. -/
theorem lane_shiftLeft_eq_zero {v : Word64} {n k j : Nat} (hv : v.toNat < 2 ^ (8 * n)) (hj : j < k ∨ k + n ≤ j) :
    lane (v <<< (8 * k)) j = 0 := by
  apply BitVec.eq_of_getLsbD_eq
  intro i hi
  rw [getLsbD_lane, BitVec.getLsbD_shiftLeft]
  rcases hj with hj | hj
  · have : 8 * j + i < 8 * k := by omega
    simp [this]
  · have : v.getLsbD (8 * j + i - 8 * k) = false :=
      Nat.testBit_lt_two_pow (Nat.lt_of_lt_of_le hv (Nat.pow_le_pow_right (by omega) (by omega)))
    simp [this]

/-- A load of `n` bytes reaches the lanes below `n` only (R33). -/
theorem lane_assemble_eq_zero (bo : ByteOrder) {bytes : List Byte} {j : Nat} (h : bytes.length ≤ 8) (hj : bytes.length ≤ j) :
    lane (assemble bo bytes) j = 0 := by
  simpa using lane_shiftLeft_eq_zero (k := 0) (assemble_toNat_lt bo h) (.inr (by omega))

/-- A part of the accumulator that is made of whole lanes, lane by lane. -/
theorem extractLsb'_eq_of_lanes {u v : Word64} {j n : Nat} (h : ∀ k, j ≤ k → k < j + n → lane u k = lane v k) :
    u.extractLsb' (8 * j) (8 * n) = v.extractLsb' (8 * j) (8 * n) := by
  apply BitVec.eq_of_getLsbD_eq
  intro i hi
  have hl := congrArg (·.getLsbD (i % 8)) (h (j + i / 8) (by omega) (by omega))
  have hlt : i % 8 < 8 := by omega
  have hbit : 8 * (j + i / 8) + i % 8 = 8 * j + i := by omega
  simp only [getLsbD_lane, hbit, hlt, decide_true, Bool.true_and] at hl
  simp only [BitVec.getLsbD_extractLsb', hl]

/-! ### Everything a row and a step can do -/

/-- The rows of R71, one constructor per row and condition, each with the state it leaves. -/
inductive RowStep (e : HostInput) (s : State) : State → Prop
  | idleWait : s.ph = .idle → e.offer = none → RowStep e s s
  | accept (c : Command) : s.ph = .idle → e.offer = some c →
      RowStep e s { s.accept c with acc := 0, res := c.seed, pos := 0, boff := 0, ph := .p8 }
  | group (bytes : List Byte) : s.ph = .p8 → groupsDone s.pos s.len = false → s.memRead s.ea 8 = .ok bytes →
      RowStep e s (accumulated 8 (assemble s.params.byteOrder bytes) s)
  | groupsEnd : s.ph = .p8 → groupsDone s.pos s.len = true → RowStep e s { s with ph := .p4 }
  | word (bytes : List Byte) : s.ph = .p4 → lenT4 s.len = true → s.memRead s.ea 4 = .ok bytes →
      RowStep e s { accumulated 4 (assemble s.params.byteOrder bytes) s with ph := .p2 }
  | noWord : s.ph = .p4 → lenT4 s.len = false → RowStep e s { s with ph := .p2 }
  | half (bytes : List Byte) : s.ph = .p2 → lenT2 s.len = true → s.memRead s.ea 2 = .ok bytes →
      RowStep e s { accumulated 2 (assemble s.params.byteOrder bytes) s with boff := boffArmed, ph := .p1 }
  | noHalf : s.ph = .p2 → lenT2 s.len = false → RowStep e s { s with ph := .p1 }
  | byte (bytes : List Byte) : s.ph = .p1 → lenT1 s.len = true → s.memRead s.ea 1 = .ok bytes →
      RowStep e s { accumulated 1 (assemble s.params.byteOrder bytes <<< s.boff.toNat) s with ph := .pf }
  | noByte : s.ph = .p1 → lenT1 s.len = false → RowStep e s { s with ph := .pf }
  | fold : s.ph = .pf → RowStep e s { s with fld := foldHalves s.acc, ph := .pn }
  | norm : s.ph = .pn → RowStep e s { s with nrm := toBe32 s.params.byteOrder s.fld, ph := .pb }
  | blend : s.ph = .pb → RowStep e s { s with res := s.res ^^^ s.nrm, ph := .done }
  | doneWait : s.ph = .done → e.take = false → RowStep e s s
  | ret : s.ph = .done → e.take = true →
      RowStep e s { s with digest := s.res, ph := .idle, responses := s.responses ++ [s.res] }

/-- A row that performs no operation changes `PH` only. -/
theorem row_skips {e : HostInput} {s u : State} {ph : Phase} (hsel : selectOp s.ph s.pos s.len e.offer.isSome e.take = none)
    (hph : phaseAfter s.ph s.pos s.len e.offer.isSome e.take = ph) (h : row e s = .next u) : u = { s with ph := ph } := by
  simp only [row, hsel, hph, Host.Outcome.next.injEq] at h
  exact h.symm

/-- A row that performs an operation completes when the operation does, from the state `s'` in which the offer is latched. -/
theorem row_performs {e : HostInput} {s s' u : State} {i : Instr} {ph : Phase}
    (hsel : selectOp s.ph s.pos s.len e.offer.isSome e.take = some i)
    (hph : phaseAfter s.ph s.pos s.len e.offer.isSome e.take = ph) (hs : s.latchOffer e.offer = s') (h : row e s = .next u) :
    ∃ t, exec i s' = .next t ∧ u = { t with ph := ph } := by
  simp only [row, hsel, hph, hs] at h
  obtain ⟨t, ht, hu⟩ := andThen_eq_next.mp h
  exact ⟨t, ht, (Host.Outcome.next.inj hu).symm⟩

/-- A row that completes is one of those of R71. -/
theorem rowStep_of_row {e : HostInput} {s u : State} (h : row e s = .next u) : RowStep e s u := by
  have hlatch (hbusy : s.ph ≠ .idle) := State.latchOffer_busy hbusy e.offer
  cases hph : s.ph with
  | idle =>
    cases hc : e.offer with
    | none =>
      obtain rfl : u = s := row_skips (by simp [selectOp, hph, hc]) (by simp [phaseAfter, hph, hc]) h
      exact .idleWait hph hc
    | some c =>
      obtain ⟨t, ht, rfl⟩ := row_performs (i := .init) (ph := .p8) (by simp [selectOp, hph, hc]) (by simp [phaseAfter, hph, hc])
        (hc ▸ State.latchOffer_idle hph c) h
      cases ht
      exact .accept c hph hc
  | p8 =>
    cases hd : groupsDone s.pos s.len with
    | false =>
      obtain ⟨t, ht, rfl⟩ := row_performs (i := .xor8) (ph := s.ph) (by simp [selectOp, hph, hd]) (by simp [phaseAfter, hph, hd])
        (hlatch (by simp [hph])) h
      obtain ⟨bytes, hread, rfl⟩ := exec_xor8_eq_next.mp ht
      exact .group bytes hph hd hread
    | true =>
      obtain rfl := row_skips (ph := .p4) (by simp [selectOp, hph, hd]) (by simp [phaseAfter, hph, hd]) h
      exact .groupsEnd hph hd
  | p4 =>
    cases hT : lenT4 s.len with
    | true =>
      obtain ⟨t, ht, rfl⟩ := row_performs (i := .xor4) (ph := .p2) (by simp [selectOp, hph, hT]) (by simp [phaseAfter, hph])
        (hlatch (by simp [hph])) h
      obtain ⟨bytes, hread, rfl⟩ := exec_xor4_eq_next.mp ht
      exact .word bytes hph hT hread
    | false =>
      obtain rfl := row_skips (ph := .p2) (by simp [selectOp, hph, hT]) (by simp [phaseAfter, hph]) h
      exact .noWord hph hT
  | p2 =>
    cases hT : lenT2 s.len with
    | true =>
      obtain ⟨t, ht, rfl⟩ := row_performs (i := .xor2) (ph := .p1) (by simp [selectOp, hph, hT]) (by simp [phaseAfter, hph])
        (hlatch (by simp [hph])) h
      obtain ⟨bytes, hread, rfl⟩ := exec_xor2_eq_next.mp ht
      exact .half bytes hph hT hread
    | false =>
      obtain rfl := row_skips (ph := .p1) (by simp [selectOp, hph, hT]) (by simp [phaseAfter, hph]) h
      exact .noHalf hph hT
  | p1 =>
    cases hT : lenT1 s.len with
    | true =>
      obtain ⟨t, ht, rfl⟩ := row_performs (i := .xor1) (ph := .pf) (by simp [selectOp, hph, hT]) (by simp [phaseAfter, hph])
        (hlatch (by simp [hph])) h
      obtain ⟨bytes, hread, rfl⟩ := exec_xor1_eq_next.mp ht
      exact .byte bytes hph hT hread
    | false =>
      obtain rfl := row_skips (ph := .pf) (by simp [selectOp, hph, hT]) (by simp [phaseAfter, hph]) h
      exact .noByte hph hT
  | pf =>
    obtain ⟨t, ht, rfl⟩ := row_performs (i := .fold) (ph := .pn) (by simp [selectOp, hph]) (by simp [phaseAfter, hph])
      (hlatch (by simp [hph])) h
    cases ht
    exact .fold hph
  | pn =>
    obtain ⟨t, ht, rfl⟩ := row_performs (i := .norm) (ph := .pb) (by simp [selectOp, hph]) (by simp [phaseAfter, hph])
      (hlatch (by simp [hph])) h
    cases ht
    exact .norm hph
  | pb =>
    obtain ⟨t, ht, rfl⟩ := row_performs (i := .blend) (ph := .done) (by simp [selectOp, hph]) (by simp [phaseAfter, hph])
      (hlatch (by simp [hph])) h
    cases ht
    exact .blend hph
  | done =>
    cases hk : e.take with
    | false =>
      obtain rfl : u = s := row_skips (by simp [selectOp, hph, hk]) (by simp [phaseAfter, hph, hk]) h
      exact .doneWait hph hk
    | true =>
      obtain ⟨t, ht, rfl⟩ := row_performs (i := .ret) (ph := .idle) (by simp [selectOp, hph, hk]) (by simp [phaseAfter, hph, hk])
        (hlatch (by simp [hph])) h
      cases ht
      exact .ret hph hk

/-- A step that completes is a reset (R141), or a row of R71 where no fault is recorded (R121); then the other agents' writes land. -/
theorem step_eq_next {s t : State} (h : step s = .next t) :
    ∃ u, t = u.settle ∧
      ((s.input.reset = true ∧ u = s.begin.resetEvent) ∨ (s.input.reset = false ∧ s.fault = none ∧ RowStep s.input s.begin u)) := by
  obtain ⟨u, hu, ht⟩ := andThen_eq_next.mp h
  refine ⟨u, (Host.Outcome.next.inj ht).symm, ?_⟩
  cases hr : s.input.reset with
  | true =>
    simp only [stepWith, hr, if_true, Host.Outcome.next.injEq] at hu
    exact .inl ⟨rfl, hu.symm⟩
  | false =>
    cases hf : s.fault with
    | some a => simp [stepWith, hr, hf] at hu
    | none =>
      simp only [stepWith, hr, State.begin_fault, hf, Bool.false_eq_true, if_false] at hu
      exact .inr ⟨rfl, rfl, rowStep_of_row hu⟩

/-! ### The invariant, its part about memory (R31, R39; log entry 4) -/

/-- What the invariant says of the parameter `AW`, the memory `m`, what is readable `r` and `VALID` `v`. -/
structure EnvInv (aw : Nat) (m : Memory) (r v : Addrs) : Prop where
  aw_pos : 1 ≤ aw
  mem_wf : Memory.wf m
  readable_wf : Addrs.wf r
  valid_wf : Addrs.wf v
  readable_held : ∀ a ∈ r, (Memory.read m a).isSome = true
  valid_held : ∀ a ∈ v, (Memory.read m a).isSome = true

/-- `EnvInv` of a state's fields. -/
abbrev State.EnvInv (s : State) : Prop := Machine.EnvInv s.params.aw s.mem s.readable s.valid

theorem State.Inv.env {s : State} (h : s.Inv) : s.EnvInv :=
  ⟨h.aw_pos, h.mem_wf, h.readable_wf, h.valid_wf, h.readable_held, h.valid_held⟩

theorem State.Inv.of_env {s : State} (he : s.EnvInv) (hp : s.pending = []) (hb : s.ph ≠ .idle → s.Busy) (hf : s.fault = none) : s.Inv :=
  ⟨he.aw_pos, he.mem_wf, he.readable_wf, he.valid_wf, he.readable_held, he.valid_held, hp, hb, fun a ha => by simp [hf] at ha⟩

section
variable {aw : Nat} {m : Memory} {r v : Addrs}

/-- Writes of other agents keep it: they change no address that holds a byte. -/
theorem EnvInv.overwrites (h : EnvInv aw m r v) (es : List (Nat × Byte)) : EnvInv aw (Memory.overwrites m es) r v where
  aw_pos := h.aw_pos
  mem_wf := Memory.overwrites_wf es h.mem_wf
  readable_wf := h.readable_wf
  valid_wf := h.valid_wf
  readable_held a ha := (Memory.isSome_overwrites es a m).trans (h.readable_held a ha)
  valid_held a ha := (Memory.isSome_overwrites es a m).trans (h.valid_held a ha)

/-- Remappings keep it: an address that becomes readable is given a byte, and none loses its byte (R144). -/
theorem EnvInv.changes (h : EnvInv aw m r v) (es : List Remap) : EnvInv aw (Memory.changes m es) (Addrs.changes r es) v where
  aw_pos := h.aw_pos
  mem_wf := Memory.changes_wf es h.mem_wf
  readable_wf := Addrs.changes_wf es h.readable_wf
  valid_wf := h.valid_wf
  readable_held := Addrs.changes_held es h.readable_held
  valid_held a ha := Memory.isSome_changes es (h.valid_held a ha)

/-- An acceptance keeps it: the new `VALID` is what is readable (R31). -/
theorem EnvInv.accept (h : EnvInv aw m r v) : EnvInv aw m r r := { h with valid_wf := h.readable_wf, valid_held := h.readable_held }

/-- A reset empties `VALID`. -/
theorem EnvInv.emptyValid (h : EnvInv aw m r v) : EnvInv aw m r [] := { h with valid_wf := .nil, valid_held := by simp }

end

theorem State.EnvInv.begin {s : State} (h : s.EnvInv) : s.begin.EnvInv := (h.overwrites s.pending.flatten).changes s.input.remap

theorem RowStep.keeps_env {e : HostInput} {s u : State} (h : RowStep e s u) (he : s.EnvInv) : u.EnvInv := by
  cases h with
  | accept c => exact he.accept
  | group | word | half | byte => exact he.overwrites _
  | idleWait | groupsEnd | noWord | noHalf | noByte | fold | norm | blend | doneWait | ret => exact he

/-- In `IDLE` the registers may hold anything. -/
theorem State.Inv.of_idle {s : State} (he : s.EnvInv) (hp : s.pending = []) (hi : s.ph = .idle) (hf : s.fault = none) : s.Inv :=
  .of_env he hp (fun h => absurd hi h) hf

theorem State.resetWith_inv {p : Params} (hp : 1 ≤ p.aw) : (State.resetWith p).Inv :=
  .of_idle ⟨hp, .nil, .nil, .nil, by simp, by simp⟩ rfl rfl rfl

/-- Settles O28: in `IDLE` the invariant asks for the memory and `AW >= 1` only. -/
theorem resetState : Obligations.ResetState :=
  ⟨fun _ hp => ⟨rfl, State.resetWith_inv hp⟩, rfl, State.resetWith_inv (Nat.le_add_left 1 _)⟩

/-! ### The invariant, its part about the invocation in progress (R23 a, b, c, e) -/

/-- In the phases of the remainder, and in `PF`, what is known of an invocation is `BASE`, `BOFF`, `POS`, the reads and `RES`. -/
theorem State.Busy.of_remainder {s : State} (hph : s.ph ∈ [.p4, .p2, .p1, .pf]) (hbase : s.base < 2 ^ s.params.aw)
    (hboff : s.boff = boffIn s.len s.ph) (hpos : s.pos.toNat = posOnEntry s.len s.ph)
    (hreads : s.reads = List.range' s.base s.pos.toNat) (hres : s.res = s.seed) : s.Busy := by
  have hne : s.ph ≠ .p8 ∧ s.ph ≠ .pn ∧ s.ph ≠ .pb ∧ s.ph ≠ .done := by
    generalize s.ph = ph at hph
    revert ph
    decide
  obtain ⟨h8, hn, hb, hd⟩ := hne
  exact ⟨hbase, hboff, fun h => absurd h h8, fun _ => hpos, hreads, fun _ => hres, by simp [hn, hb, hd], by simp [hb, hd],
    fun h => absurd h hd⟩

/-- The invocation enters a phase of the remainder without a read. -/
theorem State.Busy.enters {s : State} (hb : s.Busy) {ph : Phase} (hdone : s.ph ≠ .done) (hph : ph ∈ [.p4, .p2, .p1, .pf])
    (hboff : boffIn s.len s.ph = boffIn s.len ph) (hpos : s.pos.toNat = posOnEntry s.len ph) : State.Busy { s with ph := ph } :=
  .of_remainder hph hb.base_lt (hb.boff_eq.trans hboff) hpos hb.reads_eq (hb.res_seed hdone)

/-- A read inside the window does not wrap `POS` (R13). -/
theorem accumulated_pos_toNat {n : Nat} (v : Word64) {s : State} (h : s.pos.toNat + n ≤ s.len.toNat) :
    (accumulated n v s).pos.toNat = s.pos.toNat + n := by
  have := s.len.isLt
  have hn : (BitVec.ofNat 32 n).toNat = n := by rw [BitVec.toNat_ofNat]; omega
  exact (BitVec.toNat_add_of_lt (by omega)).trans (by rw [hn])

/-- A read goes on where the last one stopped (R37). -/
theorem State.Busy.accumulated_reads {s : State} (hb : s.Busy) (n : Nat) (v : Word64) :
    (accumulated n v s).reads = List.range' s.base (s.pos.toNat + n) :=
  (congrArg (· ++ List.range' s.ea n) hb.reads_eq).trans List.range'_append_1

/-- The invocation enters a phase of the remainder with a read of `n` bytes. -/
theorem State.Busy.enters_reading {s : State} (hb : s.Busy) {ph : Phase} {n : Nat} {v : Word64} {b : BitVec 5} (hdone : s.ph ≠ .done)
    (hph : ph ∈ [.p4, .p2, .p1, .pf]) (hboff : b = boffIn s.len ph) (hpos : s.pos.toNat + n = posOnEntry s.len ph) :
    State.Busy { accumulated n v s with boff := b, ph := ph } := by
  have hpos' := accumulated_pos_toNat v (hpos ▸ posOnEntry_le s.len ph)
  exact .of_remainder hph hb.base_lt hboff (hpos'.trans hpos) ((hb.accumulated_reads n v).trans (by rw [← hpos']; rfl))
    (hb.res_seed hdone)

/-- An accepted command is busy in `P8` with nothing read (R72). -/
theorem State.busy_of_accept (s : State) (c : Command) :
    State.Busy { s.accept c with acc := 0, res := c.seed, pos := 0, boff := 0, ph := .p8 } where
  base_lt := Nat.mod_lt _ (Nat.two_pow_pos _)
  boff_eq := rfl
  pos_p8 _ := ⟨rfl, Nat.zero_le _⟩
  pos_entry h := absurd rfl h
  reads_eq := rfl
  res_seed _ := rfl
  fld_eq := by simp
  nrm_eq := by simp
  res_done := by simp

/-- Another full group is read: `POS` stays a multiple of 8 up to `8*G` (R23 b). -/
theorem State.Busy.group {s : State} (hb : s.Busy) (hph : s.ph = .p8) (hd : groupsDone s.pos s.len = false) (v : Word64) :
    (accumulated 8 v s).Busy := by
  obtain ⟨hmod, hle⟩ := hb.pos_p8 hph
  have hlt : s.pos.toNat / 8 ≠ s.len.toNat / 8 := fun h => by simp [groupsDone_iff.mpr h] at hd
  rw [lenG_toNat] at hle
  have hpos := accumulated_pos_toNat (n := 8) v (s := s) (by omega)
  exact {
    base_lt := hb.base_lt
    boff_eq := hb.boff_eq
    pos_p8 := fun _ => by
      show (accumulated 8 v s).pos.toNat % 8 = 0 ∧ (accumulated 8 v s).pos.toNat ≤ 8 * (lenG s.len).toNat
      rw [hpos, lenG_toNat]
      omega
    pos_entry := fun h => absurd hph h
    reads_eq := (hb.accumulated_reads 8 v).trans (by rw [← hpos]; rfl)
    res_seed := fun _ => hb.res_seed (by simp [hph])
    fld_eq := by simp [hph]
    nrm_eq := by simp [hph]
    res_done := by simp [hph] }

/-- From `PF` on, `BOFF` is what `XOR2` made it and `POS` is `LEN` (R23 c). -/
theorem State.Busy.after_remainder {s : State} (hb : s.Busy) (hph : s.ph ∈ [.pf, .pn, .pb]) :
    s.boff = boffIn s.len .done ∧ s.pos.toNat = s.len.toNat := by
  have hboff := hb.boff_eq
  have hpos := hb.pos_entry
  generalize s.ph = ph at hph hboff hpos
  simp only [List.mem_cons, List.not_mem_nil, or_false] at hph
  rcases hph with rfl | rfl | rfl <;> exact ⟨hboff, hpos (by decide)⟩

/-- A row of R71 keeps what holds of the invocation in progress. -/
theorem RowStep.keeps_busy {e : HostInput} {s u : State} (h : RowStep e s u) (hs : s.ph ≠ .idle → s.Busy) (hu : u.ph ≠ .idle) :
    u.Busy := by
  cases h with
  | idleWait | doneWait => exact hs hu
  | ret => exact absurd rfl hu
  | accept c => exact s.busy_of_accept c
  | group bytes hph hd => exact (hs (by simp [hph])).group hph hd _
  | groupsEnd hph hd =>
    have hb := hs (by simp [hph])
    obtain ⟨hmod, -⟩ := hb.pos_p8 hph
    have hq := groupsDone_iff.mp hd
    exact hb.enters (by simp [hph]) (by simp) (by rw [hph]; rfl) (by rw [posOnEntry, lenG_toNat]; omega)
  | word bytes hph hT =>
    have hb := hs (by simp [hph])
    exact hb.enters_reading (by simp [hph]) (by simp) (hb.boff_eq.trans (by rw [hph]; rfl))
      (by rw [hb.pos_entry (by simp [hph]), hph]; simp [posOnEntry, hT])
  | noWord hph hT =>
    have hb := hs (by simp [hph])
    exact hb.enters (by simp [hph]) (by simp) (by rw [hph]; rfl)
      (by rw [hb.pos_entry (by simp [hph]), hph]; simp [posOnEntry, hT])
  | half bytes hph hT =>
    have hb := hs (by simp [hph])
    exact hb.enters_reading (by simp [hph]) (by simp) (by simp [boffIn, hT, boffArmed])
      (by rw [hb.pos_entry (by simp [hph]), hph]; simp [posOnEntry, hT])
  | noHalf hph hT =>
    have hb := hs (by simp [hph])
    exact hb.enters (by simp [hph]) (by simp) (by rw [hph]; simp [boffIn, hT])
      (by rw [hb.pos_entry (by simp [hph]), hph]; simp [posOnEntry, hT])
  | byte bytes hph hT =>
    have hb := hs (by simp [hph])
    have hend := posOnEntry_p1_add s.len
    rw [hT] at hend
    exact hb.enters_reading (by simp [hph]) (by simp) (hb.boff_eq.trans (by rw [hph]; rfl))
      (by rw [hb.pos_entry (by simp [hph]), hph]; exact hend)
  | noByte hph hT =>
    have hb := hs (by simp [hph])
    have hend := posOnEntry_p1_add s.len
    rw [hT] at hend
    exact hb.enters (by simp [hph]) (by simp) (by rw [hph]; rfl)
      (by rw [hb.pos_entry (by simp [hph]), hph]; exact hend)
  | fold hph =>
    have hb := hs (by simp [hph])
    obtain ⟨hboff, hpos⟩ := hb.after_remainder (by simp [hph])
    exact { hb with
      boff_eq := hboff
      pos_p8 := by simp
      pos_entry := fun _ => hpos
      res_seed := fun _ => hb.res_seed (by simp [hph])
      fld_eq := fun _ => rfl
      nrm_eq := by simp
      res_done := by simp }
  | norm hph =>
    have hb := hs (by simp [hph])
    obtain ⟨hboff, hpos⟩ := hb.after_remainder (by simp [hph])
    exact { hb with
      boff_eq := hboff
      pos_p8 := by simp
      pos_entry := fun _ => hpos
      res_seed := fun _ => hb.res_seed (by simp [hph])
      fld_eq := fun _ => hb.fld_eq (by simp [hph])
      nrm_eq := fun _ => rfl
      res_done := by simp }
  | blend hph =>
    have hb := hs (by simp [hph])
    obtain ⟨hboff, hpos⟩ := hb.after_remainder (by simp [hph])
    exact { hb with
      boff_eq := hboff
      pos_p8 := by simp
      pos_entry := fun _ => hpos
      res_seed := by simp
      fld_eq := fun _ => hb.fld_eq (by simp [hph])
      nrm_eq := fun _ => hb.nrm_eq (by simp [hph])
      res_done := fun _ => congrArg (· ^^^ s.nrm) (hb.res_seed (by simp [hph])) }

/-! ### What a row leaves unchanged while an invocation is in progress (R16, R23 d, f) -/

theorem RowStep.fault_eq {e : HostInput} {s u : State} (h : RowStep e s u) : u.fault = s.fault := by
  cases h <;> rfl

theorem RowStep.command_eq {e : HostInput} {s u : State} (h : RowStep e s u) (hph : s.ph ≠ .idle) :
    u.base = s.base ∧ u.len = s.len ∧ u.seed = s.seed := by
  cases h with
  | accept c hidle => exact absurd hidle hph
  | _ => exact ⟨rfl, rfl, rfl⟩

/-- The lanes of `ACC` that a row may change: all on acceptance and in `P8`, those of `XOR4`, `XOR2` and `XOR1` in the phases of the
remainder, none later (R23 d). -/
def accLanesIn (boff : BitVec 5) : Phase → List Nat
  | .idle => List.range 8
  | .p8 => List.range 8
  | .p4 => [0, 1, 2, 3]
  | .p2 => [0, 1]
  | .p1 => [if boff = 16 then 2 else 0]
  | .pf => []
  | .pn => []
  | .pb => []
  | .done => []

/-- After `P8` a row changes no lane of `ACC[63:32]`. -/
theorem lt_four_of_mem_accLanesIn {boff : BitVec 5} {ph : Phase} {j : Nat} (hidle : ph ≠ .idle) (h8 : ph ≠ .p8)
    (h : j ∈ accLanesIn boff ph) : j < 4 := by
  cases ph with
  | idle => exact absurd rfl hidle
  | p8 => exact absurd rfl h8
  | p1 =>
    rw [accLanesIn, List.mem_singleton] at h
    split at h <;> omega
  | p4 | p2 | pf | pn | pb | done => simp [accLanesIn] at h <;> omega

theorem not_mem_accLanesIn_finish (boff : BitVec 5) {ph : Phase} (h : ph ∈ [.pf, .pn, .pb, .done]) (j : Nat) :
    j ∉ accLanesIn boff ph := by
  cases ph <;> simp [accLanesIn] at h ⊢

/-- A XOR of a value whose lane is 0 keeps that lane. -/
theorem lane_xor_of_zero {w : Nat} {u v : BitVec w} {j : Nat} (h : lane v j = 0) : lane (u ^^^ v) j = lane u j := by
  rw [lane_xor, h]
  exact BitVec.xor_zero

/-- A load of `n` bytes that is XORed in keeps the lanes from `n` on. -/
theorem lane_xor_load {s : State} {bytes : List Byte} {n j : Nat} (bo : ByteOrder) (hread : s.memRead s.ea n = .ok bytes)
    (hn : n ≤ 8) (hj : n ≤ j) (u : Word64) : lane (u ^^^ assemble bo bytes) j = lane u j := by
  obtain ⟨hl, -⟩ := State.holds_of_memRead hread
  exact lane_xor_of_zero (lane_assemble_eq_zero bo (by omega) (by omega))

theorem RowStep.lane_eq {e : HostInput} {s u : State} (h : RowStep e s u) (hs : s.ph ≠ .idle → s.Busy) {j : Nat} (hj : j < 8)
    (hout : j ∉ accLanesIn s.boff s.ph) : lane u.acc j = lane s.acc j := by
  cases h with
  | accept c hph => simp [accLanesIn, hph, hj] at hout
  | group bytes hph => simp [accLanesIn, hph, hj] at hout
  | word bytes hph _ hread =>
    have : 4 ≤ j := by simp [accLanesIn, hph] at hout; omega
    exact lane_xor_load _ hread (by omega) this _
  | half bytes hph _ hread =>
    have : 2 ≤ j := by simp [accLanesIn, hph] at hout; omega
    exact lane_xor_load _ hread (by omega) this _
  | byte bytes hph _ hread =>
    obtain ⟨hl, -⟩ := State.holds_of_memRead hread
    have hlt := assemble_toNat_lt s.params.byteOrder (bytes := bytes) (by omega)
    have hboff : s.boff = if lenT2 s.len then 16 else 0 := (hs (by simp [hph])).boff_eq.trans (by rw [hph]; rfl)
    refine lane_xor_of_zero ?_
    cases hT : lenT2 s.len with
    | true =>
      simp only [hT, if_true] at hboff
      have hne : j ≠ 2 := by simpa [accLanesIn, hph, hboff] using hout
      rw [hboff]
      exact lane_shiftLeft_eq_zero (k := 2) hlt (by omega)
    | false =>
      simp only [hT, Bool.false_eq_true, if_false] at hboff
      have hne : j ≠ 0 := by simpa [accLanesIn, hph, hboff] using hout
      rw [hboff]
      exact lane_shiftLeft_eq_zero (k := 0) hlt (by omega)
  | _ => rfl

/-! ### Every step keeps the invariant -/

/-- A row from a state that meets the invariant, but for writes that have not landed, leaves one that does when they have. -/
theorem RowStep.keeps_inv {e : HostInput} {s u : State} (h : RowStep e s u) (he : s.EnvInv) (hb : s.ph ≠ .idle → s.Busy)
    (hf : s.fault = none) : u.settle.Inv :=
  .of_env ((h.keeps_env he).overwrites _) rfl (fun hu => { h.keeps_busy hb hu with }) (h.fault_eq.trans hf)

/-- Settles O29, by the rows of R71: each keeps `EnvInv` and `State.Busy`, and changes the lanes `accLanesIn` only. -/
theorem stepKeepsInvariant : Obligations.StepKeepsInvariant := by
  unfold Obligations.StepKeepsInvariant
  intro s t hs h
  obtain ⟨u, rfl, ⟨hr, rfl⟩ | ⟨-, hf, hrow⟩⟩ := step_eq_next h
  · refine ⟨.of_idle (hs.env.begin.emptyValid.overwrites _) rfl rfl rfl, fun hn => ?_⟩
    simp [hr] at hn
  have hb : s.begin.ph ≠ .idle → s.begin.Busy := fun hph => { hs.busy hph with }
  refine ⟨hrow.keeps_inv hs.env.begin hb hf, fun _ hph => ?_⟩
  obtain ⟨hbase, hlen, hseed⟩ := hrow.command_eq hph
  have hlane : ∀ j, j < 8 → j ∉ accLanesIn s.boff s.ph → lane u.acc j = lane s.acc j := fun j hj hout => hrow.lane_eq hb hj hout
  refine ⟨hbase, hlen, hseed, fun h8 => ?_, fun h2 j hj hj8 => ?_, fun h1 j hj8 hj => ?_, fun hend => ?_⟩
  · refine extractLsb'_eq_of_lanes (j := 4) (n := 4) fun k hk hk8 => hlane k hk8 fun hmem => ?_
    have := lt_four_of_mem_accLanesIn hph h8 hmem
    omega
  · exact hlane j hj8 (by simp [h2, accLanesIn]; omega)
  · exact hlane j hj8 (by simpa [h1, accLanesIn] using hj)
  · simpa using extractLsb'_eq_of_lanes (u := u.acc) (v := s.acc) (j := 0) (n := 8)
      fun k _ hk8 => hlane k (by omega) (not_mem_accLanesIn_finish s.boff hend k)

end Sys2Proof.Machine

/-! ## Memory: loads, faults, what is never written, `VALID`, and the bytes a run reads (20_memory.md)

What a micro-operation reads is `Instr.bytesRead`; `HASH` is its expansion (`exec_hash`), so that statements about the whole command are
inductions over a list of micro-operations. What a step leaves of the environment is `step_environment`. -/

namespace Sys2Proof

/-- How many bytes a micro-operation reads from `EA` up (R80 to R83). -/
def Instr.bytesRead : Instr → Nat
  | .xor8 => 8
  | .xor4 => 4
  | .xor2 => 2
  | .xor1 => 1
  | .hash _ _ _ => 0
  | .init => 0
  | .fold => 0
  | .norm => 0
  | .blend => 0
  | .ret => 0

end Sys2Proof

namespace Sys2Proof.Machine

/-! ### Loads (R32, R33, R36) -/

/-- The digits of a number to the base 256, as the sum of their weights. -/
theorem bytesToNat_map_range (f : Nat → Byte) (n : Nat) :
    bytesToNat ((List.range n).map f) = ((List.range n).map fun k => (f k).toNat * 2 ^ (8 * k)).sum := by
  induction n generalizing f with
  | zero => rfl
  | succ n ih =>
    have hpow (k : Nat) : (2 : Nat) ^ (8 * (k + 1)) = 256 * 2 ^ (8 * k) := by rw [Nat.mul_add_one, Nat.pow_add, Nat.mul_comm]
    simp only [List.range_succ_eq_map, List.map_cons, List.map_map, bytesToNat, List.sum_cons, ih, Function.comp_def,
      Nat.succ_eq_add_one, hpow, Nat.mul_left_comm _ 256, List.sum_map_mul_left, Nat.mul_zero, Nat.pow_zero, Nat.mul_one]

/-- The sum of R33 is the number whose digits to the base 256 are the bytes, in ascending order for `LE`, descending for `BE`. -/
theorem loadVal_eq_bytesToNat (bo : ByteOrder) (M : Nat → Byte) (a n : Nat) :
    loadVal bo M a n = bytesToNat (match bo with
      | .le => (List.range n).map fun k => M (a + k)
      | .be => ((List.range n).map fun k => M (a + k)).reverse) := by
  cases bo with
  | le => exact (bytesToNat_map_range ..).symm
  | be =>
    have hrev : (List.range n).reverse = (List.range n).map (n - 1 - ·) := by
      rw [List.range_eq_range', List.reverse_range', Nat.zero_add, List.range_eq_range']
    dsimp only [loadVal]
    rw [← List.map_reverse, hrev, List.map_map, bytesToNat_map_range, ← List.sum_reverse, ← List.map_reverse, hrev, List.map_map]
    refine congrArg List.sum (List.map_congr_left fun k hk => ?_)
    have : n - 1 - (n - 1 - k) = k := by have := List.mem_range.mp hk; omega
    simp [this]

/-- `LDMUX` assembles the sum of R33 from at most 8 bytes. -/
theorem assemble_toNat (bo : ByteOrder) (M : Nat → Byte) (a : Nat) {n : Nat} (hn : n ≤ 8) :
    (assemble bo ((List.range n).map fun k => M (a + k))).toNat = loadVal bo M a n := by
  rw [loadVal_eq_bytesToNat]
  cases bo <;> exact (packLanes_toNat (by simpa using hn)).1

/-- Settles O19: the bytes are those that the byte reads find, and what `LDMUX` makes of them is `assemble_toNat`. -/
theorem loadIsTheSum : Obligations.LoadIsTheSum := by
  unfold Obligations.LoadIsTheSum
  intro s M a n hn h
  have hv := assemble_toNat s.params.byteOrder M a hn
  refine ⟨_, State.memRead_of_holds h, rfl, hv, ?_⟩
  have hlt := assemble_toNat_lt s.params.byteOrder (bytes := (List.range n).map fun k => M (a + k)) (by simpa using hn)
  simpa [hv] using hlt

/-- `MemRead` answers exactly the bytes of its byte reads, each at its moment (R36). -/
theorem State.memRead_ok_iff {s : State} {a n : Nat} {bytes : List Byte} : s.memRead a n = .ok bytes ↔
    bytes.length = n ∧ ∀ k, k < n → (s.landed (k + 1)).readByte (a + k) = bytes[k]? := by
  constructor
  · intro h
    obtain ⟨rfl, hread⟩ := State.holds_of_memRead h
    exact ⟨rfl, fun k hk => (hread k hk).trans (List.getElem?_eq_getElem hk).symm⟩
  · rintro ⟨rfl, hread⟩
    have hget (k : Nat) (hk : k < bytes.length) : bytes.getD (a + k - a) 0 = bytes[k] := by simp [hk]
    have hholds : s.holds (fun x => bytes.getD (x - a) 0) a bytes.length := fun k hk => by
      rw [hread k hk, List.getElem?_eq_getElem hk, ← hget k hk]
    rw [State.memRead_of_holds hholds]
    exact congrArg _ (List.ext_getElem (by simp) fun k _ hk => by simpa using hget k hk)

/-- Two bytes that hold 0, and another agent that writes 1 to both between the two byte reads of a load. -/
def tornState : State :=
  { State.resetWith ⟨.le, 1⟩ with mem := [(0, 0), (1, 0)], readable := [0, 1], valid := [0, 1], pending := [[], [(0, 1), (1, 1)]] }

/-- Settles O49: exactly the bytes of the byte reads are answered, and the load of `tornState` answers 0 and 1, which memory never holds
together. -/
theorem loadsAreByteReads : Obligations.LoadsAreByteReads := by
  refine ⟨fun _ _ _ _ => State.memRead_ok_iff, tornState, 0, [0, 1], by decide, fun n => ?_⟩
  match n with
  | 0 | 1 => decide
  | n + 2 =>
    rw [Nat.add_comm, State.landed_add, State.landed_of_nil (by decide)]
    decide

/-! ### Which reads fault (R41, R123, R144) -/

theorem State.readByte_ne_none {s : State} (hs : ∀ a ∈ s.readable, (Memory.read s.mem a).isSome = true) {a : Nat} :
    s.readByte a ≠ none ↔ s.canRead a := (not_congr (State.readByte_eq_none hs)).trans not_not

/-- A micro-operation faults exactly when its read does; one that reads nothing never does. -/
theorem exec_eq_fault {i : Instr} (hi : ∀ b l d, i ≠ .hash b l d) {s : State} {a : Nat} :
    exec i s = .fault (.outOfBuffer a) ↔ s.memRead s.ea i.bytesRead = .error a := by
  have hacc (n : Nat) (place : List Byte → Word64) :
      accumulate n place s = .fault (.outOfBuffer a) ↔ s.memRead s.ea n = .error a :=
    accumulate_eq_fault.trans (by simp)
  cases i with
  | hash b l d => exact absurd rfl (hi b l d)
  | init | fold | norm | blend | ret => exact iff_of_false nofun nofun
  | xor8 | xor4 | xor1 => exact hacc ..
  | xor2 =>
    refine andThen_eq_fault.trans (Iff.trans (or_iff_left ?_) (hacc ..))
    rintro ⟨u, -, hu⟩
    cases hu

theorem exec_ne_refused {i : Instr} (hi : ∀ b l d, i ≠ .hash b l d) (s : State) (r : Refusal) : exec i s ≠ .refused r := by
  cases i with
  | hash b l d => exact absurd rfl (hi b l d)
  | init | fold | norm | blend | ret => exact nofun
  | xor8 | xor4 | xor1 => exact accumulate_ne_refused _ _ _ _
  | xor2 =>
    intro h
    rcases andThen_eq_refused.mp h with h | ⟨u, -, hu⟩
    · exact accumulate_ne_refused _ _ _ _ h
    · cases hu

/-- Settles O20: a micro-operation that reads faults as its read does, and `memRead` names the lowest address that is not answered. -/
theorem readFaultsAtLowestAddress : Obligations.ReadFaultsAtLowestAddress := by
  unfold Obligations.ReadFaultsAtLowestAddress
  intro x hx s a
  have hop : (∀ b l d, x.1 ≠ .hash b l d) ∧ x.1.bytesRead = x.2 := by
    simp only [List.mem_cons, List.not_mem_nil, or_false] at hx
    rcases hx with rfl | rfl | rfl | rfl <;> exact ⟨by simp, rfl⟩
  obtain ⟨hi, hn⟩ := hop
  have h : exec x.1 s = .fault (.outOfBuffer a) ↔
      ∃ k, k < x.2 ∧ a = s.ea + k ∧ s.readByte a = none ∧ ∀ j, j < k → s.readByte (s.ea + j) ≠ none :=
    (exec_eq_fault hi).trans (hn ▸ State.memRead_error_iff)
  refine ⟨h, fun hheld => h.trans ?_⟩
  simp only [State.readByte_eq_none hheld, State.readByte_ne_none hheld]

/-! ### `HASH` as its expansion (R59) -/

theorem runOps_append (is js : List Instr) (s : State) : runOps (is ++ js) s = andThen (runOps is s) (runOps js) := by
  induction is generalizing s with
  | nil => rfl
  | cons i is ih => simp only [List.cons_append, runOps, andThen_assoc, funext ih]

theorem runOps_singleton (i : Instr) (s : State) : runOps [i] s = exec i s := andThen_next_right _

theorem execBulk_eq_runOps (g : Nat) (s : State) : execBulk g s = runOps (bulk g) s := by
  induction g generalizing s with
  | zero => rfl
  | succ g ih => exact congrArg (andThen (execXor8 s)) (funext ih)

theorem gated_eq_runOps (b : Bool) (i : Instr) (s : State) : gated b (exec i) s = runOps (if b then [i] else []) s := by
  cases b with
  | true => exact (runOps_singleton i s).symm
  | false => rfl

theorem execTail_eq_runOps (s : State) : execTail s = runOps (tail s.len) s := by
  simp only [tail, runOps_append, ← funext (gated_eq_runOps _ _)]
  rfl

theorem execFinish_eq_runOps (s : State) : execFinish s = runOps finish s := by
  simp only [finish, runOps, andThen_next_right]
  exact andThen_assoc ..

theorem State.Keeps.trans {m n : Nat} {s t u : State} (h : s.Keeps m t) (h' : t.Keeps n u) : s.Keeps (m + n) u where
  base_eq := h'.base_eq.trans h.base_eq
  len_eq := h'.len_eq.trans h.len_eq
  seed_eq := h'.seed_eq.trans h.seed_eq
  fault_eq := h'.fault_eq.trans h.fault_eq
  params_eq := h'.params_eq.trans h.params_eq
  inputs_eq := h'.inputs_eq.trans h.inputs_eq
  readable_eq := h'.readable_eq.trans h.readable_eq
  valid_eq := h'.valid_eq.trans h.valid_eq
  mem_eq := by rw [h'.mem_eq, State.landed_mem, h.mem_eq, h.pending_eq, State.landed_add]; rfl
  pending_eq := by rw [h'.pending_eq, State.landed_pending, h.pending_eq, State.landed_add]; rfl

/-- A list of micro-operations keeps what each of them keeps. -/
theorem runOps_keeps {is : List Instr} (his : ∀ i ∈ is, ∀ b l d, i ≠ .hash b l d) {s t : State} (h : runOps is s = .next t) :
    ∃ n, s.Keeps n t := by
  induction is generalizing s with
  | nil =>
    cases h
    exact ⟨0, rfl, rfl, rfl, rfl, rfl, rfl, rfl, rfl, rfl, rfl⟩
  | cons i is ih =>
    obtain ⟨u, hu, ht⟩ := andThen_eq_next.mp h
    obtain ⟨m, -, hm⟩ := exec_keeps (his i (by simp)) hu
    obtain ⟨n, hn⟩ := ih (fun j hj => his j (by simp [hj])) ht
    exact ⟨m + n, hm.trans hn⟩

theorem ne_hash_of_mem_expansion {i : Instr} {len : Word32} (hi : i ∈ expansion len) (b : Nat) (l d : Word32) : i ≠ .hash b l d := by
  rintro rfl
  exact List.count_eq_zero.mp (Laws.TimesRun.hash b l d len) hi

theorem andThen_congr {o : Out} {f g : State → Out} (h : ∀ u, o = .next u → f u = g u) : andThen o f = andThen o g := by
  cases o with
  | next u => exact h u rfl
  | fault | refused => rfl

/-- The invocation of the latched command is its expansion, since no operation of it writes `LEN` (R59). -/
theorem invocation_eq_runOps (s : State) : invocation s = runOps (expansion s.len) s := by
  have hgroups : andThen (execInit s) (execBulk (lenG s.len).toNat) = runOps ([.init] ++ bulk (lenG s.len).toNat) s := by
    rw [runOps_append, runOps_singleton, ← funext (execBulk_eq_runOps _)]
    rfl
  have htail : andThen (runOps ([.init] ++ bulk (lenG s.len).toNat) s) execTail =
      andThen (runOps ([.init] ++ bulk (lenG s.len).toNat) s) (runOps (tail s.len)) := by
    refine andThen_congr fun u hu => ?_
    have his : ∀ i ∈ [.init] ++ bulk (lenG s.len).toNat, ∀ b l d, i ≠ .hash b l d := fun i hi =>
      ne_hash_of_mem_expansion (len := s.len) (by simp only [expansion, List.mem_append] at hi ⊢; tauto)
    obtain ⟨n, hk⟩ := runOps_keeps his hu
    rw [execTail_eq_runOps, hk.len_eq]
  rw [invocation, hgroups, htail, ← runOps_append, funext execFinish_eq_runOps, ← runOps_append, expansion, runOps_append _ [.ret],
    funext (runOps_singleton .ret)]
  rfl

theorem exec_hash {s : State} (hidle : s.ph = .idle) (hfault : s.fault = none) (c : Command) :
    exec (.hash c.base c.len c.seed) s = runOps (expansion c.len) (s.accept c) :=
  (if_pos ⟨hidle, hfault⟩).trans (invocation_eq_runOps (s.accept c))

theorem exec_hash_refuses {s : State} (h : s.ph ≠ .idle ∨ s.fault ≠ none) (b : Nat) (l d : Word32) : exec (.hash b l d) s = .next s :=
  if_neg (by tauto)

/-! ### What an operation and a step leave of memory (R3, R19, R38) -/

/-- `t` has the parameters of `s`, the same addresses are readable, and in memory nothing has happened but that writes of other agents have
landed, those before `n` byte reads (log entry 15). -/
structure State.KeepsMemory (n : Nat) (s t : State) : Prop where
  params_eq : t.params = s.params
  readable_eq : t.readable = s.readable
  mem_eq : t.mem = (s.landed n).mem
  pending_eq : t.pending = (s.landed n).pending

theorem State.Keeps.keepsMemory {n : Nat} {s t : State} (h : s.Keeps n t) : s.KeepsMemory n t :=
  ⟨h.params_eq, h.readable_eq, h.mem_eq, h.pending_eq⟩

/-- No operation writes memory, `HASH` included (R38). -/
theorem exec_keepsMemory {i : Instr} {s t : State} (h : exec i s = .next t) : ∃ n, s.KeepsMemory n t := by
  cases i with
  | hash b l d =>
    by_cases hready : s.ph = .idle ∧ s.fault = none
    · obtain ⟨hidle, hfault⟩ := hready
      obtain ⟨n, hk⟩ := runOps_keeps (fun i => ne_hash_of_mem_expansion) ((exec_hash hidle hfault ⟨b, l, d⟩).symm.trans h)
      exact ⟨n, hk.params_eq, hk.readable_eq, hk.mem_eq, hk.pending_eq⟩
    · obtain rfl : s = t := Host.Outcome.next.inj ((exec_hash_refuses (by tauto) b l d).symm.trans h)
      exact ⟨0, rfl, rfl, rfl, rfl⟩
  | _ =>
    obtain ⟨n, -, hk⟩ := exec_keeps (by simp) h
    exact ⟨n, hk.keepsMemory⟩

/-- No row of R71 writes memory. -/
theorem RowStep.keepsMemory {e : HostInput} {s u : State} (h : RowStep e s u) : ∃ n, s.KeepsMemory n u := by
  cases h with
  | group => exact ⟨8, rfl, rfl, rfl, rfl⟩
  | word => exact ⟨4, rfl, rfl, rfl, rfl⟩
  | half => exact ⟨2, rfl, rfl, rfl, rfl⟩
  | byte => exact ⟨1, rfl, rfl, rfl, rfl⟩
  | _ => exact ⟨0, rfl, rfl, rfl, rfl⟩

/-- When all writes have landed, it does not matter which landed before the byte reads. -/
theorem State.KeepsMemory.settle_mem {n : Nat} {s t : State} (h : s.KeepsMemory n t) : t.settle.mem = s.settle.mem := by
  rw [State.settle_mem, h.mem_eq, h.pending_eq, State.landed_mem, State.landed_pending, ← Memory.overwrites_append,
    ← List.flatten_append, List.take_append_drop]
  rfl

/-- A step leaves the parameters, and of memory and what is readable what its input makes of it. -/
theorem step_environment {s t : State} (h : step s = .next t) :
    t.params = s.params ∧ t.mem = Memory.after s.settle.mem s.input ∧ t.readable = Addrs.changes s.readable s.input.remap := by
  obtain ⟨u, rfl, ⟨-, rfl⟩ | ⟨-, -, hrow⟩⟩ := step_eq_next h
  · exact ⟨rfl, rfl, rfl⟩
  · obtain ⟨n, hk⟩ := hrow.keepsMemory
    exact ⟨hk.params_eq, hk.settle_mem, hk.readable_eq⟩

/-- Settles O22: `step_environment` and `exec_keepsMemory`; writes and remappings of the outside leave the addresses they do not name. -/
theorem memoryIsNeverWritten : Obligations.MemoryIsNeverWritten := by
  unfold Obligations.MemoryIsNeverWritten
  intro s t
  refine ⟨fun h => ?_, fun i h => ?_⟩
  · obtain ⟨hparams, hmem, hreadable⟩ := step_environment h
    refine ⟨hmem, hreadable, hparams, fun a hremap hpending hwrites => ⟨?_, ?_⟩⟩
    · rw [hmem, Memory.after, Memory.read_overwrites_other _ hwrites, Memory.read_changes_other _ hremap]
      exact Memory.read_overwrites_other _ hpending
    · rw [hreadable, Addrs.mem_changes_other _ hremap]
  · obtain ⟨n, hk⟩ := exec_keepsMemory h
    exact ⟨⟨n, hk.mem_eq, hk.pending_eq⟩, hk.readable_eq, hk.params_eq,
      fun a ha => hk.mem_eq ▸ State.read_landed_other ha n⟩

/-! ### `HASH` stops at the first byte that is not answered (R41, R121) -/

/-- The first byte from `BASE` up whose read is not answered is at offset `k`, and `POS` has not passed it. -/
structure State.Blocked (s : State) (k : Nat) : Prop where
  offset_lt : k < 2 ^ 32
  pos_le : s.pos.toNat ≤ k
  unanswered : s.readByte (s.base + k) = none
  answered : ∀ j, j < k → s.readByte (s.base + j) ≠ none

/-- Writes of other agents do not change which reads are answered (R31). -/
theorem State.Keeps.readByte_eq_none {n : Nat} {s t : State} (h : s.Keeps n t) (a : Nat) : t.readByte a = none ↔ s.readByte a = none := by
  rw [← State.readByte_landed_eq_none (s := s) (n := n), State.readByte_congr (s := s.landed n) h.params_eq h.mem_eq h.valid_eq
    h.readable_eq]

/-- A micro-operation of the invocation after `INIT` advances `POS` by the number of bytes it reads. -/
theorem exec_pos {i : Instr} {s t : State} (hi : ∀ b l d, i ≠ .hash b l d) (hinit : i ≠ .init) (h : exec i s = .next t) :
    t.pos = s.pos + BitVec.ofNat 32 i.bytesRead := by
  cases i with
  | hash b l d => exact absurd rfl (hi b l d)
  | init => exact absurd rfl hinit
  | fold | norm | blend | ret => cases h; exact (BitVec.add_zero _).symm
  | xor8 => obtain ⟨_, -, rfl⟩ := exec_xor8_eq_next.mp h; rfl
  | xor4 => obtain ⟨_, -, rfl⟩ := exec_xor4_eq_next.mp h; rfl
  | xor2 => obtain ⟨_, -, rfl⟩ := exec_xor2_eq_next.mp h; rfl
  | xor1 => obtain ⟨_, -, rfl⟩ := exec_xor1_eq_next.mp h; rfl

section
variable {s : State} {k : Nat} {i : Instr}

/-- A micro-operation that reads the byte at offset `k` faults there. -/
theorem State.Blocked.exec_fault (hs : s.Blocked k) (hi : ∀ b l d, i ≠ .hash b l d) (hk : k < s.pos.toNat + i.bytesRead) :
    exec i s = .fault (.outOfBuffer (s.base + k)) := by
  have hle := hs.pos_le
  refine (exec_eq_fault hi).mpr (State.memRead_error_iff.mpr ⟨k - s.pos.toNat, by omega, ?_, hs.unanswered, fun j hj => ?_⟩)
  · rw [State.ea]; omega
  · rw [State.ea, Nat.add_assoc]
    exact hs.answered _ (by omega)

/-- A micro-operation that does not reach the byte at offset `k` completes. -/
theorem State.Blocked.exec_next (hs : s.Blocked k) (hi : ∀ b l d, i ≠ .hash b l d) (hinit : i ≠ .init)
    (hk : s.pos.toNat + i.bytesRead ≤ k) :
    ∃ t, exec i s = .next t ∧ t.Blocked k ∧ t.base = s.base ∧ t.pos.toNat = s.pos.toNat + i.bytesRead := by
  cases h : exec i s with
  | refused r => exact absurd h (exec_ne_refused hi s r)
  | fault r =>
    obtain ⟨a⟩ := r
    obtain ⟨j, hj, rfl, hnone, -⟩ := State.memRead_error_iff.mp ((exec_eq_fault hi).mp h)
    rw [State.ea, Nat.add_assoc] at hnone
    exact absurd hnone (hs.answered _ (by omega))
  | next t =>
    obtain ⟨n, -, hkeeps⟩ := exec_keeps hi h
    have hlt := hs.offset_lt
    have hpos : t.pos.toNat = s.pos.toNat + i.bytesRead := by
      rw [exec_pos hi hinit h, BitVec.toNat_add, BitVec.toNat_ofNat]
      omega
    refine ⟨t, rfl, ⟨hlt, by omega, ?_, fun j hj => ?_⟩, hkeeps.base_eq, hpos⟩
    · rw [hkeeps.readByte_eq_none, hkeeps.base_eq]
      exact hs.unanswered
    · rw [ne_eq, hkeeps.readByte_eq_none, hkeeps.base_eq]
      exact hs.answered j hj

end

/-- A list of micro-operations that reads on past offset `k` faults there. -/
theorem State.Blocked.runOps {is : List Instr} (his : ∀ i ∈ is, (∀ b l d, i ≠ .hash b l d) ∧ i ≠ .init) {s : State} {k : Nat}
    (hs : s.Blocked k) (hk : k < s.pos.toNat + (is.map Instr.bytesRead).sum) :
    runOps is s = .fault (.outOfBuffer (s.base + k)) := by
  induction is generalizing s with
  | nil => exact absurd hs.pos_le (by simpa using hk)
  | cons i is ih =>
    obtain ⟨hi, hinit⟩ := his i (by simp)
    rw [List.map_cons, List.sum_cons] at hk
    rw [Machine.runOps]
    by_cases hreach : k < s.pos.toNat + i.bytesRead
    · rw [hs.exec_fault hi hreach]
      rfl
    · obtain ⟨t, ht, hblocked, hbase, hpos⟩ := hs.exec_next hi hinit (by omega)
      rw [ht, ← hbase]
      exact ih (fun j hj => his j (by simp [hj])) hblocked (by omega)

/-- The operations of an expansion read `LEN` bytes (R54). -/
theorem sum_bytesRead_expansion (len : Word32) : ((expansion len).map Instr.bytesRead).sum = len.toNat := by
  have hgate (b : Bool) (i : Instr) : ((if b then [i] else []).map Instr.bytesRead).sum = i.bytesRead * b.toNat := by
    cases b <;> simp
  have hlen := posOnEntry_p1_add len
  simp only [posOnEntry] at hlen
  simp only [expansion, tail, bulk, finish, List.map_append, List.sum_append, hgate, List.map_replicate, List.sum_replicate,
    List.map_cons, List.map_nil, List.sum_cons, List.sum_nil, Instr.bytesRead, smul_eq_mul]
  omega

/-- `INIT` stands in an expansion once, in front (R59). -/
theorem ne_init_of_mem_expansion_tail {i : Instr} {len : Word32} (hi : i ∈ (expansion len).tail) : i ≠ .init := by
  rintro rfl
  have hcount : (Instr.init :: (expansion len).tail).count .init = 1 := Laws.TimesRun.init len
  rw [List.count_cons_self, Nat.add_eq_right] at hcount
  exact List.count_eq_zero.mp hcount hi

/-- What `INIT` leaves (R72). -/
def State.initiated (s : State) : State := { s with acc := 0, res := s.seed, pos := 0, boff := 0 }

/-- Settles O31: after `INIT` the latched command is blocked at offset `k`, and the rest of its expansion reads past it. -/
theorem hashFaultsOutsideValid : Obligations.HashFaultsOutsideValid := by
  unfold Obligations.HashFaultsOutsideValid
  intro s c k hidle hfault hwf hk hnone hsome
  have hbase : (s.accept c).initiated.base = c.base := Nat.mod_eq_of_lt (of_decide_eq_true hwf)
  have hblocked : (s.accept c).initiated.Blocked k :=
    ⟨hk.trans c.len.isLt, Nat.zero_le _, hbase.symm ▸ hnone, fun j hj => hbase.symm ▸ hsome j hj⟩
  have hsum : ((expansion c.len).tail.map Instr.bytesRead).sum = c.len.toNat :=
    (Nat.zero_add _).symm.trans (sum_bytesRead_expansion c.len)
  calc exec (.hash c.base c.len c.seed) s
    _ = runOps (.init :: (expansion c.len).tail) (s.accept c) := exec_hash hidle hfault c
    _ = runOps (expansion c.len).tail (s.accept c).initiated := rfl
    _ = .fault (.outOfBuffer ((s.accept c).initiated.base + k)) :=
      hblocked.runOps (fun i hi => ⟨ne_hash_of_mem_expansion (List.mem_of_mem_tail hi), ne_init_of_mem_expansion_tail hi⟩)
        (Nat.lt_add_left _ (hsum.symm ▸ hk))
    _ = .fault (.outOfBuffer (c.base + k)) := by rw [hbase]

/-! ### `VALID` (R31) -/

theorem State.EnvInv.readByte_isSome {s : State} (h : s.EnvInv) (a : Nat) : (s.readByte a).isSome = true ↔ s.canRead a :=
  Option.isSome_iff_ne_none.trans (State.readByte_ne_none h.readable_held)

/-- A row of an invocation in progress keeps `VALID`. -/
theorem RowStep.valid_eq {e : HostInput} {s u : State} (h : RowStep e s u) (hph : s.ph ≠ .idle) : u.valid = s.valid := by
  cases h with
  | accept c hidle => exact absurd hidle hph
  | _ => rfl

theorem step_valid_of_accept {s t : State} {c : Command} (hidle : s.ph = .idle) (hreset : s.input.reset = false)
    (hoffer : s.input.offer = some c) (h : step s = .next t) : t.valid = Addrs.changes s.readable s.input.remap := by
  obtain ⟨u, rfl, ⟨hr, -⟩ | ⟨-, -, hrow⟩⟩ := step_eq_next h
  · simp [hreset] at hr
  · cases hrow with
    | accept => rfl
    | idleWait _ hnone => simp [hoffer] at hnone
    | group _ hph | groupsEnd hph | word _ hph | noWord hph | half _ hph | noHalf hph | byte _ hph | noByte hph | fold hph | norm hph
    | blend hph | doneWait hph | ret hph => simp [hidle] at hph

theorem step_valid_of_busy {s t : State} (hbusy : s.ph ≠ .idle) (hreset : s.input.reset = false) (h : step s = .next t) :
    t.valid = s.valid := by
  obtain ⟨u, rfl, ⟨hr, -⟩ | ⟨-, -, hrow⟩⟩ := step_eq_next h
  · simp [hreset] at hr
  · exact hrow.valid_eq hbusy

/-- What an input does to memory keeps the invariant's part about memory. -/
theorem EnvInv.after {aw : Nat} {m : Memory} {r v : Addrs} (h : EnvInv aw m r v) (e : HostInput) :
    EnvInv aw (Memory.after m e) (Addrs.changes r e.remap) v := (h.changes e.remap).overwrites e.writes.flatten

/-! ### Steps that do not complete (R121) -/

/-- The sequencer selects micro-operations only (R50, R71). -/
theorem ne_hash_of_selectOp {ph : Phase} {pos len : Word32} {o k : Bool} {i : Instr} (h : selectOp ph pos len o k = some i)
    (b : Nat) (l d : Word32) : i ≠ .hash b l d := by
  rintro rfl
  cases ph <;> simp [selectOp] at h

theorem row_ne_refused (e : HostInput) (s : State) (r : Refusal) : row e s ≠ .refused r := by
  unfold row
  split
  · exact nofun
  · rename_i i hsel
    intro h
    rcases andThen_eq_refused.mp h with h | ⟨u, -, hu⟩
    · exact exec_ne_refused (ne_hash_of_selectOp hsel) _ _ h
    · cases hu

theorem step_ne_refused (s : State) (r : Refusal) : step s ≠ .refused r := by
  intro h
  rcases andThen_eq_refused.mp h with h | ⟨u, -, hu⟩
  · unfold stepWith at h
    split at h
    · cases h
    · split at h
      · cases h
      · exact row_ne_refused _ _ _ h
  · cases hu

/-- A row that faults is that of an invocation in progress, and its micro-operation meets a byte that is not answered. -/
theorem row_eq_fault {e : HostInput} {s : State} {a : Nat} (h : row e s = .fault (.outOfBuffer a)) :
    ∃ i, s.ph ≠ .idle ∧ selectOp s.ph s.pos s.len e.offer.isSome e.take = some i ∧ s.memRead s.ea i.bytesRead = .error a := by
  unfold row at h
  split at h
  · cases h
  · rename_i i hsel
    rcases andThen_eq_fault.mp h with h | ⟨u, -, hu⟩
    · have hread := (exec_eq_fault (ne_hash_of_selectOp hsel)).mp h
      have hbusy : s.ph ≠ .idle := by
        intro hidle
        have hinit : some Instr.init = some i := by
          rw [hidle] at hsel
          cases ho : e.offer.isSome <;> simp_all [selectOp]
        cases hinit
        cases hread
      rw [State.latchOffer_busy hbusy] at hread
      exact ⟨i, hbusy, hsel, hread⟩
    · cases hu

/-- A step faults where a fault is recorded, or where its row does (R121). -/
theorem step_eq_fault {s : State} {a : Nat} (h : step s = .fault (.outOfBuffer a)) :
    s.input.reset = false ∧ (s.fault = some a ∨ (s.fault = none ∧ row s.input s.begin = .fault (.outOfBuffer a))) := by
  rcases andThen_eq_fault.mp h with h | ⟨u, -, hu⟩
  · unfold stepWith at h
    split at h
    · cases h
    · rename_i hr
      refine ⟨by simpa using hr, ?_⟩
      split at h
      · rename_i b hb
        cases h
        exact .inl hb
      · rename_i hf
        exact .inr ⟨hf, h⟩
  · cases hu

/-! ### Steps that go on past a fault (R125) -/

theorem State.advance_of_next {s t : State} (h : step s = .next t) : s.advance = t := by
  rw [State.advance, h]

theorem State.advance_of_fault {s : State} {a : Nat} (h : step s = .fault (.outOfBuffer a)) : s.advance = s.recordFault a := by
  rw [State.advance, h]

/-- A step, whatever its outcome, makes of memory and of what is readable what its input says (R38). -/
theorem State.advance_environment (s : State) :
    s.advance.mem = Memory.after s.settle.mem s.input ∧ s.advance.readable = Addrs.changes s.readable s.input.remap := by
  cases h : step s with
  | refused r => exact absurd h (step_ne_refused s r)
  | fault r =>
    obtain ⟨a⟩ := r
    rw [State.advance_of_fault h]
    exact ⟨rfl, rfl⟩
  | next t =>
    rw [State.advance_of_next h]
    exact (step_environment h).2

/-- What a move of a system leaves: all but the mover, and the memory as the input of the mover makes it. -/
theorem System.stepAt_eq_some {sys sys' : System} {k : Nat} (h : sys.stepAt k = some sys') :
    ∃ t, sys.instances[k]? = some t ∧ sys'.instances = sys.instances.set k (sys.mover t).advance ∧
      sys'.mem = Memory.after (sys.mover t).settle.mem t.input ∧ sys'.readable = Addrs.changes sys.readable t.input.remap := by
  unfold System.stepAt at h
  split at h
  · cases h
  · rename_i t ht
    cases h
    obtain ⟨hmem, hreadable⟩ := (sys.mover t).advance_environment
    exact ⟨t, ht, rfl, hmem, hreadable⟩

/-- A move of another keeps what the invariant says of memory for one that does not move. -/
theorem System.stepAt_keeps_env {sys sys' : System} {k : Nat} {s : State} (h : sys.stepAt k = some sys') (hs : (sys.mover s).EnvInv) :
    (sys'.mover s).EnvInv := by
  obtain ⟨t, -, -, hmem, hreadable⟩ := System.stepAt_eq_some h
  have hafter := (hs.overwrites t.pending.flatten).after t.input
  unfold State.EnvInv System.mover
  rw [hmem, hreadable]
  exact hafter

/-- Settles O48: an acceptance takes what is readable, no row of an invocation in progress writes `VALID`, and under the invariant every address
that is readable holds a byte, after another's move too. -/
theorem validIsFixedForAnInvocation : Obligations.ValidIsFixedForAnInvocation := by
  refine ⟨fun s t c hidle hreset hoffer h => step_valid_of_accept hidle hreset hoffer h, fun s t hbusy hreset h => ?_,
    fun i s t hi h => ?_, fun sys sys' j k s hj hjk hinv h => ⟨?_, fun a => ?_⟩⟩
  · have hvalid := step_valid_of_busy hbusy hreset h
    refine ⟨hvalid, fun hinv a => ?_⟩
    rw [(stepKeepsInvariant s t hinv h).1.env.readByte_isSome, State.canRead, State.inValid_congr (step_environment h).1 hvalid]
  · obtain ⟨n, -, hk⟩ := exec_keeps hi h
    exact hk.valid_eq
  · obtain ⟨t, -, hset, -⟩ := System.stepAt_eq_some h
    rw [hset, List.getElem?_set_ne (Ne.symm hjk), hj]
  · exact (System.stepAt_keeps_env h hinv.env).readByte_isSome a

/-! ### The invariant after a fault (R41, R121) -/

/-- Only `P8`, `P4`, `P2` and `P1` select a micro-operation that reads (R71). -/
theorem ph_reads_of_bytesRead {ph : Phase} {pos len : Word32} {o k : Bool} {i : Instr}
    (hsel : selectOp ph pos len o k = some i) (hread : i.bytesRead ≠ 0) : ph ∈ [.p8, .p4, .p2, .p1] := by
  cases ph with
  | p8 | p4 | p2 | p1 => simp
  | idle | done =>
    obtain ⟨-, rfl⟩ := by simpa only [selectOp, Option.ite_none_right_eq_some, Option.some.injEq] using hsel
    exact absurd rfl hread
  | pf | pn | pb =>
    cases hsel
    exact absurd rfl hread

/-- What a phase reads lies in the window, from `POS` on (R23 b, c; R37). -/
theorem State.Busy.pos_add_bytesRead_le {s : State} (hb : s.Busy) (hbusy : s.ph ≠ .idle) {o k : Bool} {i : Instr}
    (hsel : selectOp s.ph s.pos s.len o k = some i) : s.pos.toNat + i.bytesRead ≤ s.len.toNat := by
  have hentry := hb.pos_entry
  have hend := posOnEntry_p1_add s.len
  have hle := posOnEntry_le s.len s.ph
  cases hph : s.ph with
  | idle => exact absurd hph hbusy
  | p8 =>
    obtain ⟨hmod, hle⟩ := hb.pos_p8 hph
    rw [lenG_toNat] at hle
    rw [hph] at hsel
    obtain ⟨hd, rfl⟩ : groupsDone s.pos s.len = false ∧ Instr.xor8 = i := by simpa [selectOp] using hsel
    have hlt : s.pos.toNat / 8 ≠ s.len.toNat / 8 := fun h => by simp [groupsDone_iff.mpr h] at hd
    simp only [Instr.bytesRead]
    omega
  | p4 | p2 | p1 =>
    simp only [hph, posOnEntry, ne_eq, reduceCtorEq, not_false_eq_true, forall_const] at hentry hend
    simp only [hph, selectOp, Option.ite_none_right_eq_some, Option.some.injEq] at hsel
    obtain ⟨hT, rfl⟩ := hsel
    simp only [hT, Bool.toNat_true] at hend
    simp only [Instr.bytesRead]
    omega
  | pf | pn | pb | done =>
    have hnone : i.bytesRead = 0 := by
      by_contra hread
      simpa [hph] using ph_reads_of_bytesRead hsel hread
    rw [hnone, hentry (by simp [hph])]
    exact hle

/-- A row that faults does so at a byte of the window, from `POS` on, that is not answered. -/
theorem faulted_of_row {e : HostInput} {s : State} {a : Nat} (hs : s.ph ≠ .idle → s.Busy) (h : row e s = .fault (.outOfBuffer a)) :
    s.Faulted a ∧ s.readByte a = none := by
  obtain ⟨i, hbusy, hsel, hread⟩ := row_eq_fault h
  obtain ⟨k, hk, rfl, hnone, -⟩ := State.memRead_error_iff.mp hread
  have hle := (hs hbusy).pos_add_bytesRead_le hbusy hsel
  refine ⟨⟨ph_reads_of_bytesRead hsel (by omega), ?_⟩, hnone⟩
  rw [State.ea]
  omega

/-- Recording a fault in the window keeps the invariant. -/
theorem State.Inv.recordFault {s : State} (hs : s.Inv) {a : Nat} (ha : s.Faulted a) : (s.recordFault a).Inv := by
  have he : (s.recordFault a).EnvInv := hs.env.begin.overwrites s.input.writes.flatten
  exact ⟨he.aw_pos, he.mem_wf, he.readable_wf, he.valid_wf, he.readable_held, he.valid_held, rfl, fun h => { hs.busy h with },
    fun b hb => by cases hb; exact { ha with }⟩

/-- Settles O51: a fault that was recorded stays within the window, and a row faults within it only (`faulted_of_row`). -/
theorem advanceKeepsInvariant : Obligations.AdvanceKeepsInvariant := by
  unfold Obligations.AdvanceKeepsInvariant
  intro s hs
  cases h : step s with
  | refused r => exact absurd h (step_ne_refused s r)
  | next t => exact ⟨State.advance_of_next h ▸ (stepKeepsInvariant s t hs h).1, nofun⟩
  | fault r =>
    obtain ⟨a⟩ := r
    have hf : s.Faulted a ∧ (s.fault = none → s.begin.readByte a = none) := by
      obtain ⟨-, hrec | ⟨hnone, hrow⟩⟩ := step_eq_fault h
      · exact ⟨hs.faulted a hrec, by simp [hrec]⟩
      · obtain ⟨hfaulted, hread⟩ := faulted_of_row (s := s.begin) (fun hph => { hs.busy hph with }) hrow
        exact ⟨{ hfaulted with }, fun _ => hread⟩
    obtain ⟨hfaulted, hread⟩ := hf
    rw [State.advance_of_fault h]
    refine ⟨hs.recordFault hfaulted, fun b hb => ?_⟩
    cases hb
    exact ⟨{ hfaulted with }, fun hnone => (State.readByte_eq_none hs.env.begin.readable_held).mp (hread hnone)⟩

/-! ### A row that can be performed is performed (R71) -/

section
variable {e : HostInput} {s s' t : State} {i : Instr} {ph : Phase}

theorem row_eq_skip (hsel : selectOp s.ph s.pos s.len e.offer.isSome e.take = none)
    (hph : phaseAfter s.ph s.pos s.len e.offer.isSome e.take = ph) : row e s = .next { s with ph := ph } := by
  simp only [row, hsel, hph]

theorem row_eq_perform (hsel : selectOp s.ph s.pos s.len e.offer.isSome e.take = some i)
    (hph : phaseAfter s.ph s.pos s.len e.offer.isSome e.take = ph) (hs : s.latchOffer e.offer = s') (h : exec i s' = .next t) :
    row e s = .next { t with ph := ph } := by
  simp only [row, hsel, hph, hs, h, andThen_next]

end

/-- The converse of `rowStep_of_row`. -/
theorem RowStep.row_eq {e : HostInput} {s u : State} (h : RowStep e s u) : row e s = .next u := by
  have hlatch (hbusy : s.ph ≠ .idle) := State.latchOffer_busy hbusy e.offer
  cases h with
  | idleWait hph ho => exact row_eq_skip (by simp [selectOp, hph, ho]) (by simp [phaseAfter, hph, ho])
  | accept c hph ho =>
    exact row_eq_perform (i := .init) (ph := .p8) (by simp [selectOp, hph, ho]) (by simp [phaseAfter, hph, ho])
      (ho ▸ State.latchOffer_idle hph c) rfl
  | group bytes hph hd hread =>
    exact row_eq_perform (i := .xor8) (by simp [selectOp, hph, hd]) (by simp [phaseAfter, hph, hd]) (hlatch (by simp [hph]))
      (exec_xor8_eq_next.mpr ⟨bytes, hread, rfl⟩)
  | groupsEnd hph hd => exact row_eq_skip (by simp [selectOp, hph, hd]) (by simp [phaseAfter, hph, hd])
  | word bytes hph hT hread =>
    exact row_eq_perform (i := .xor4) (by simp [selectOp, hph, hT]) (by simp [phaseAfter, hph]) (hlatch (by simp [hph]))
      (exec_xor4_eq_next.mpr ⟨bytes, hread, rfl⟩)
  | noWord hph hT | noHalf hph hT | noByte hph hT => exact row_eq_skip (by simp [selectOp, hph, hT]) (by simp [phaseAfter, hph])
  | half bytes hph hT hread =>
    exact row_eq_perform (i := .xor2) (by simp [selectOp, hph, hT]) (by simp [phaseAfter, hph]) (hlatch (by simp [hph]))
      (exec_xor2_eq_next.mpr ⟨bytes, hread, rfl⟩)
  | byte bytes hph hT hread =>
    exact row_eq_perform (i := .xor1) (by simp [selectOp, hph, hT]) (by simp [phaseAfter, hph]) (hlatch (by simp [hph]))
      (exec_xor1_eq_next.mpr ⟨bytes, hread, rfl⟩)
  | fold hph =>
    exact row_eq_perform (i := .fold) (by simp [selectOp, hph]) (by simp [phaseAfter, hph]) (hlatch (by simp [hph])) rfl
  | norm hph =>
    exact row_eq_perform (i := .norm) (by simp [selectOp, hph]) (by simp [phaseAfter, hph]) (hlatch (by simp [hph])) rfl
  | blend hph =>
    exact row_eq_perform (i := .blend) (by simp [selectOp, hph]) (by simp [phaseAfter, hph]) (hlatch (by simp [hph])) rfl
  | doneWait hph hk => exact row_eq_skip (by simp [selectOp, hph, hk]) (by simp [phaseAfter, hph, hk])
  | ret hph hk =>
    exact row_eq_perform (i := .ret) (by simp [selectOp, hph, hk]) (by simp [phaseAfter, hph, hk]) (hlatch (by simp [hph])) rfl

theorem RowStep.step_eq {s u : State} (h : RowStep s.input s.begin u) (hreset : s.input.reset = false) (hfault : s.fault = none) :
    step s = .next u.settle := by
  simp [step, stepWith, hreset, hfault, h.row_eq]

theorem steps_succ (k : Nat) (s : State) : steps (k + 1) s = andThen (steps k s) step := by
  induction k generalizing s with
  | zero => exact andThen_next_right _
  | succ k ih => exact (congrArg (andThen (step s)) (funext ih)).trans (andThen_assoc ..).symm

/-! ### What the inputs of a run make of memory (R46, R144) -/

/-- A fold over one more of a list of inputs, which is quiet past its end. -/
theorem foldl_take_succ {α β : Type} {f : α → β → α} {d : β} (hd : ∀ x, f x d = x) (l : List β) (k : Nat) (x : α) :
    (l.take (k + 1)).foldl f x = f ((l.take k).foldl f x) (l.getD k d) := by
  rw [List.take_add_one, List.foldl_append, List.getD_eq_getElem?_getD]
  cases l[k]? with
  | none => exact (hd _).symm
  | some y => rfl

/-- `t` has the parameters of `s`, and its memory, what is readable and its inputs are what `k` steps from `s` make of them. -/
structure State.RunEnv (s : State) (k : Nat) (t : State) : Prop where
  params_eq : t.params = s.params
  inputs_eq : t.inputs = s.inputs.drop k
  mem_eq : t.settle.mem = (s.inputs.take k).foldl Memory.after s.settle.mem
  readable_eq : t.readable = (s.inputs.take k).foldl (fun r e => Addrs.changes r e.remap) s.readable

theorem State.RunEnv.refl (s : State) : s.RunEnv 0 s := ⟨rfl, rfl, rfl, rfl⟩

section
variable {s t u : State} {k : Nat}

theorem State.RunEnv.input_eq (h : s.RunEnv k t) : t.input = s.inputs.getD k {} := by
  simp [State.input, h.inputs_eq, List.headD_eq_head?_getD]

theorem State.RunEnv.begin_readable (h : s.RunEnv k t) : t.begin.readable = s.readableAt k := by
  rw [State.readableAt, foldl_take_succ (d := {}) (fun _ => rfl), ← h.readable_eq, ← h.input_eq]
  rfl

/-- The memory that a byte read of the step meets. -/
theorem State.RunEnv.landed_mem (h : s.RunEnv k t) (j : Nat) : (t.begin.landed (j + 1)).mem = s.memAt k j := by
  simp only [State.memAt, ← h.mem_eq, ← h.input_eq]
  rfl

theorem RowStep.inputs_eq {e : HostInput} (h : RowStep e s u) : u.inputs = s.inputs := by
  cases h <;> rfl

/-- A row goes on with the run. -/
theorem State.RunEnv.row (h : s.RunEnv k t) (hrow : RowStep t.input t.begin u) : s.RunEnv (k + 1) u.settle := by
  obtain ⟨n, hk⟩ := hrow.keepsMemory
  refine ⟨hk.params_eq.trans h.params_eq, ?_, ?_, ?_⟩
  · rw [State.settle_inputs, hrow.inputs_eq, State.begin_inputs, h.inputs_eq, List.tail_drop]
  · rw [foldl_take_succ (d := {}) (fun _ => rfl), ← h.mem_eq, ← h.input_eq, State.settle_of_nil (s := u.settle) rfl, hk.settle_mem]
    rfl
  · rw [foldl_take_succ (d := {}) (fun _ => rfl), ← h.readable_eq, ← h.input_eq, State.settle_readable, hk.readable_eq]
    rfl

end

theorem State.noReset_getD {s : State} {n k : Nat} (h : s.noReset n) (hk : k < n) : (s.inputs.getD k {}).reset = false := by
  rw [List.getD_eq_getElem?_getD]
  cases hget : s.inputs[k]? with
  | none => rfl
  | some e => exact h e (List.mem_of_getElem? (i := k) (by rw [List.getElem?_take_of_lt hk, hget]))

/-! ### The invocation of a command during its run (R71) -/

/-- `t` is busy with `c`, which was accepted in the first step of a run from `s`, after `k` steps without a fault. -/
structure State.Running (s : State) (c : Command) (k : Nat) (t : State) : Prop where
  env : s.RunEnv k t
  busy : t.Busy
  fault_eq : t.fault = none
  base_eq : t.base = c.base % 2 ^ s.params.aw
  len_eq : t.len = c.len
  seed_eq : t.seed = c.seed
  valid_eq : t.valid = s.readableAt 0

/-- A row that is not the last one goes on with the invocation. -/
theorem State.Running.row {s t u : State} {c : Command} {k : Nat} (h : s.Running c k t) (hrow : RowStep t.input t.begin u)
    (ht : t.ph ≠ .idle) (hu : u.ph ≠ .idle) : s.Running c (k + 1) u.settle := by
  obtain ⟨hbase, hlen, hseed⟩ := hrow.command_eq ht
  exact {
    env := h.env.row hrow
    busy := { hrow.keeps_busy (fun _ => { h.busy with }) hu with }
    fault_eq := hrow.fault_eq.trans h.fault_eq
    base_eq := hbase.trans h.base_eq
    len_eq := hlen.trans h.len_eq
    seed_eq := hseed.trans h.seed_eq
    valid_eq := (hrow.valid_eq ht).trans h.valid_eq }

/-- After `k` steps from `s` the run has come to the phase `ph` of the invocation of `c`, with these values of `POS` and `ACC`. -/
def State.Reaches (s : State) (c : Command) (k : Nat) (ph : Phase) (pos : Nat) (acc : Word64) : Prop :=
  ∃ t, steps k s = .next t ∧ s.Running c k t ∧ t.ph = ph ∧ t.pos.toNat = pos ∧ t.acc = acc

/-- The first step accepts the command (R72). -/
theorem State.reaches_p8 {s : State} {c : Command} (hidle : s.ph = .idle) (hfault : s.fault = none) (hoffer : s.input.offer = some c)
    (hreset : s.input.reset = false) : s.Reaches c 1 .p8 0 0 := by
  have hrow : RowStep s.input s.begin _ := .accept c hidle hoffer
  refine ⟨_, (andThen_next_right _).trans (hrow.step_eq hreset hfault), ⟨(State.RunEnv.refl s).row hrow,
    { s.begin.busy_of_accept c with }, hfault, rfl, rfl, rfl, (State.RunEnv.refl s).begin_readable⟩, rfl, rfl, rfl⟩

section
variable {s : State} {c : Command} {M : Nat → Byte} {k : Nat} {ph ph' : Phase} {pos pos' : Nat} {acc acc' : Word64}

/-- A row that the state reached performs leads on. -/
theorem State.Reaches.row (h : s.Reaches c k ph pos acc) (hreset : s.noReset (stepsToDone c.len)) (hk : k < stepsToDone c.len)
    (hph : ph ≠ .idle) (hph' : ph' ≠ .idle)
    (hrow : ∀ t, s.Running c k t → t.ph = ph → t.pos.toNat = pos → t.acc = acc →
      ∃ u, RowStep t.input t.begin u ∧ u.ph = ph' ∧ u.pos.toNat = pos' ∧ u.acc = acc') :
    s.Reaches c (k + 1) ph' pos' acc' := by
  obtain ⟨t, hsteps, hrun, rfl, hpos, hacc⟩ := h
  obtain ⟨u, hu, rfl, hpos', hacc'⟩ := hrow t hrun rfl hpos hacc
  have hr : t.input.reset = false := by rw [hrun.env.input_eq]; exact State.noReset_getD hreset hk
  refine ⟨u.settle, ?_, hrun.row hu hph hph', rfl, hpos', hacc'⟩
  rw [steps_succ, hsteps]
  exact hu.step_eq hr hrun.fault_eq

end

/-! ### The bytes a run reads (R36, R46) -/

/-- Each window byte is answered in a run that accepts `c`, and its read, at its moment, finds the byte of `M`. -/
def State.meets (s : State) (c : Command) (M : Nat → Byte) : Prop :=
  ∀ p, p < c.len.toNat → s.answers c p ∧
    Memory.read (s.memAt (readStep c.len.toNat p) (readIndex c.len.toNat p)) (c.base + p) = some (M (c.base + p))

theorem assemble_eq_loadWord (bo : ByteOrder) (M : Nat → Byte) (a : Nat) {n : Nat} (hn : n ≤ 8) :
    assemble bo ((List.range n).map fun k => M (a + k)) = loadWord bo M a n := by
  rw [loadWord, ← assemble_toNat bo M a hn, BitVec.ofNat_toNat, BitVec.setWidth_eq]

/-- The next `n` bytes of the window are those that R71 reads in step `k`, in this order. -/
def readsInStep (len k pos n : Nat) : Prop :=
  pos + n ≤ len ∧ ∀ j, j < n → readStep len (pos + j) = k ∧ readIndex len (pos + j) = j

/-- A read of a run answers the bytes of `M`. -/
theorem State.Running.memRead {s t : State} {c : Command} {M : Nat → Byte} {k n : Nat} (h : s.Running c k t) (hM : s.meets c M)
    (hread : readsInStep c.len.toNat k t.pos.toNat n) :
    t.begin.memRead t.begin.ea n = .ok ((List.range n).map fun j => M (c.base + t.pos.toNat + j)) := by
  obtain ⟨hle, hstep⟩ := hread
  cases n with
  | zero => rfl
  | succ n =>
    have hbase : t.base = c.base := by
      obtain ⟨⟨hlt, -⟩, -⟩ := hM t.pos.toNat (by omega)
      exact h.base_eq.trans (Nat.mod_eq_of_lt (by omega))
    have hea : t.begin.ea = c.base + t.pos.toNat := congrArg (· + t.pos.toNat) hbase
    rw [hea]
    refine State.memRead_of_holds fun j hj => ?_
    obtain ⟨hk, hj'⟩ := hstep j hj
    obtain ⟨⟨hlt, hvalid, hreadable⟩, hbyte⟩ := hM (t.pos.toNat + j) (by omega)
    rw [hk] at hreadable hbyte
    rw [hj', ← Nat.add_assoc] at hbyte
    rw [← Nat.add_assoc] at hlt hvalid hreadable
    have hcan : (t.begin.landed (j + 1)).canRead (c.base + t.pos.toNat + j) :=
      ⟨⟨h.env.params_eq ▸ hlt, h.valid_eq ▸ hvalid⟩, h.env.begin_readable ▸ hreadable⟩
    rw [State.readByte_of_canRead hcan, h.env.landed_mem, hbyte]

/-- What a row that reads `n` bytes of the window leaves. -/
theorem State.Running.accumulates {s t : State} {c : Command} {M : Nat → Byte} {k n : Nat} (h : s.Running c k t) (hM : s.meets c M)
    (hread : readsInStep c.len.toNat k t.pos.toNat n) (hn : n ≤ 8) :
    ∃ bytes, t.begin.memRead t.begin.ea n = .ok bytes ∧
      assemble t.params.byteOrder bytes = loadWord s.params.byteOrder M (c.base + t.pos.toNat) n ∧
      (t.pos + BitVec.ofNat 32 n).toNat = t.pos.toNat + n := by
  refine ⟨_, h.memRead hM hread, ?_, accumulated_pos_toNat 0 (s := t.begin) ?_⟩
  · rw [assemble_eq_loadWord _ _ _ hn, h.env.params_eq]
  · rw [State.begin_len, h.len_eq]
    exact hread.1

/-! ### The accumulator of R70, phase by phase -/

section
variable (bo : ByteOrder) (M : Nat → Byte) (base : Nat) (len : Word32)

/-- `ACC` after `g` groups. -/
def accGroups (g : Nat) : Word64 := (hashBulk bo M base g 0 0).1

/-- `ACC` on entry to `P2`. -/
def accWord : Word64 :=
  if lenT4 len then accGroups bo M base (lenG len).toNat ^^^ loadWord bo M (base + posOnEntry len .p4) 4
  else accGroups bo M base (lenG len).toNat

/-- `ACC` on entry to `P1`. -/
def accHalf : Word64 :=
  if lenT2 len then accWord bo M base len ^^^ loadWord bo M (base + posOnEntry len .p2) 2 else accWord bo M base len

/-- `ACC` on entry to `PF`. -/
def accByte : Word64 :=
  if lenT1 len then accHalf bo M base len ^^^ loadWord bo M (base + posOnEntry len .p1) 1 <<< (boffIn len .p1).toNat
  else accHalf bo M base len

theorem hashBulk_snd (n : Nat) (acc : Word64) (pos : Nat) : (hashBulk bo M base n acc pos).2 = pos + 8 * n := by
  induction n generalizing acc pos with
  | zero => rfl
  | succ n ih => rw [hashBulk, ih]; omega

theorem hashBulk_succ (n : Nat) (acc : Word64) (pos : Nat) :
    (hashBulk bo M base (n + 1) acc pos).1 =
      (hashBulk bo M base n acc pos).1 ^^^ loadWord bo M (base + (pos + 8 * n)) 8 := by
  induction n generalizing acc pos with
  | zero => rfl
  | succ n ih =>
    rw [hashBulk, ih, hashBulk]
    congr 3
    omega

theorem accGroups_succ (g : Nat) : accGroups bo M base (g + 1) = accGroups bo M base g ^^^ loadWord bo M (base + 8 * g) 8 := by
  rw [accGroups, hashBulk_succ, Nat.zero_add]
  rfl

theorem hashBulk_eq : hashBulk bo M base (len.toNat / 8) 0 0 = (accGroups bo M base (lenG len).toNat, posOnEntry len .p4) := by
  have hsnd := hashBulk_snd bo M base (len.toNat / 8) 0 0
  rw [Nat.zero_add] at hsnd
  simp only [accGroups, posOnEntry, lenG_toNat, ← hsnd]

theorem accWord_eq : (if len.getLsbD 2 then
      (accGroups bo M base (lenG len).toNat ^^^ loadWord bo M (base + posOnEntry len .p4) 4, posOnEntry len .p4 + 4)
    else (accGroups bo M base (lenG len).toNat, posOnEntry len .p4)) = (accWord bo M base len, posOnEntry len .p2) := by
  by_cases h : len.getLsbD 2 = true <;> simp only [accWord, posOnEntry, lenT4, h] <;> rfl

theorem accHalf_eq : (if len.getLsbD 1 then
      (accWord bo M base len ^^^ loadWord bo M (base + posOnEntry len .p2) 2, posOnEntry len .p2 + 2, 16)
    else (accWord bo M base len, posOnEntry len .p2, 0)) =
      (accHalf bo M base len, posOnEntry len .p1, (boffIn len .p1).toNat) := by
  by_cases h : len.getLsbD 1 = true <;> simp only [accHalf, posOnEntry, boffIn, lenT2, h] <;> rfl

/-- `ACC` on entry to `PF` is the accumulator of R70. -/
theorem accByte_eq_hashAcc : accByte bo M base len = hashAcc bo M base len := by
  simp only [hashAcc, hashBulk_eq, accWord_eq, accHalf_eq]
  rfl

end

/-! ### The stages of a run -/

theorem stepsToDone_eq (len : Word32) : stepsToDone len = (lenG len).toNat + 8 := by rw [stepsToDone, lenG_toNat]

theorem readsInStep_group {len g : Nat} (hg : g < len / 8) : readsInStep len (g + 1) (8 * g) 8 := by
  refine ⟨by omega, fun j hj => ?_⟩
  rw [readStep, if_pos (by omega), readIndex, if_pos (by omega)]
  omega

theorem readsInStep_word {len : Word32} (hT : lenT4 len = true) :
    readsInStep len.toNat ((lenG len).toNat + 2) (posOnEntry len .p4) 4 := by
  have h4 := lenT4_toNat len
  rw [hT, Bool.toNat_true] at h4
  simp only [posOnEntry, lenG_toNat]
  refine ⟨by omega, fun j hj => ?_⟩
  rw [readStep, if_neg (by omega), if_pos (by omega), readIndex, if_neg (by omega), if_pos (by omega)]
  omega

theorem readsInStep_half {len : Word32} (hT : lenT2 len = true) :
    readsInStep len.toNat ((lenG len).toNat + 3) (posOnEntry len .p2) 2 := by
  have h2 := lenT2_toNat len
  rw [hT, Bool.toNat_true] at h2
  simp only [posOnEntry, lenG_toNat, lenT4_toNat]
  refine ⟨by omega, fun j hj => ?_⟩
  rw [readStep, if_neg (by omega), if_neg (by omega), if_pos (by omega), readIndex, if_neg (by omega), if_neg (by omega), if_pos (by omega)]
  omega

theorem readsInStep_byte {len : Word32} (hT : lenT1 len = true) :
    readsInStep len.toNat ((lenG len).toNat + 4) (posOnEntry len .p1) 1 := by
  have h1 := lenT1_toNat len
  rw [hT, Bool.toNat_true] at h1
  simp only [posOnEntry, lenG_toNat, lenT4_toNat, lenT2_toNat]
  refine ⟨by omega, fun j hj => ?_⟩
  rw [readStep, if_neg (by omega), if_neg (by omega), if_neg (by omega), readIndex, if_neg (by omega), if_neg (by omega), if_neg (by omega)]
  omega

section
variable {s : State} {c : Command} {M : Nat → Byte} (hreset : s.noReset (stepsToDone c.len))
include hreset

/-- The run performs `XOR8` on each full group (R80). -/
theorem State.Reaches.groups (h : s.Reaches c 1 .p8 0 0) (hM : s.meets c M) {g : Nat} (hg : g ≤ (lenG c.len).toNat) :
    s.Reaches c (g + 1) .p8 (8 * g) (accGroups s.params.byteOrder M c.base g) := by
  induction g with
  | zero => exact h
  | succ g ih =>
    refine (ih (by omega)).row hreset (by rw [stepsToDone_eq]; omega) (by decide) (by decide) fun t hrun hph hpos hacc => ?_
    rw [lenG_toNat] at hg
    obtain ⟨bytes, hread, hload, hpos'⟩ := hrun.accumulates hM (by rw [hpos]; exact readsInStep_group hg) (by omega)
    have hd : groupsDone t.pos t.len = false := by
      rw [Bool.eq_false_iff, ne_eq, groupsDone_iff, hpos, hrun.len_eq]
      omega
    refine ⟨_, .group bytes hph hd hread, hph, hpos'.trans (by rw [hpos]; rfl), ?_⟩
    rw [accGroups_succ, ← hacc, ← hpos, ← hload]
    rfl

/-- All full groups are done (R71). -/
theorem State.Reaches.p4 (h : s.Reaches c ((lenG c.len).toNat + 1) .p8 (8 * (lenG c.len).toNat)
      (accGroups s.params.byteOrder M c.base (lenG c.len).toNat)) :
    s.Reaches c ((lenG c.len).toNat + 2) .p4 (posOnEntry c.len .p4) (accGroups s.params.byteOrder M c.base (lenG c.len).toNat) := by
  refine h.row hreset (by rw [stepsToDone_eq]; omega) (by decide) (by decide) fun t hrun hph hpos hacc => ?_
  have hd : groupsDone t.pos t.len = true := by
    rw [groupsDone_iff, hpos, hrun.len_eq, lenG_toNat]
    omega
  exact ⟨_, .groupsEnd hph hd, rfl, hpos, hacc⟩

/-- The run performs `XOR4` where `T4` is set (R81). -/
theorem State.Reaches.p2 (h : s.Reaches c ((lenG c.len).toNat + 2) .p4 (posOnEntry c.len .p4)
      (accGroups s.params.byteOrder M c.base (lenG c.len).toNat)) (hM : s.meets c M) :
    s.Reaches c ((lenG c.len).toNat + 3) .p2 (posOnEntry c.len .p2) (accWord s.params.byteOrder M c.base c.len) := by
  refine h.row hreset (by rw [stepsToDone_eq]; omega) (by decide) (by decide) fun t hrun hph hpos hacc => ?_
  cases hT : lenT4 c.len with
  | true =>
    obtain ⟨bytes, hread, hload, hpos'⟩ := hrun.accumulates hM (by rw [hpos]; exact readsInStep_word hT) (by omega)
    refine ⟨_, .word bytes hph (hrun.len_eq ▸ hT) hread, rfl, hpos'.trans (by simp [hpos, posOnEntry, hT]), ?_⟩
    rw [accWord, if_pos hT, ← hacc, ← hpos, ← hload]
    rfl
  | false =>
    refine ⟨_, .noWord hph (hrun.len_eq ▸ hT), rfl, hpos.trans (by simp [posOnEntry, hT]), hacc.trans ?_⟩
    rw [accWord, hT]
    rfl

/-- The run performs `XOR2` where `T2` is set (R82). -/
theorem State.Reaches.p1 (h : s.Reaches c ((lenG c.len).toNat + 3) .p2 (posOnEntry c.len .p2)
      (accWord s.params.byteOrder M c.base c.len)) (hM : s.meets c M) :
    s.Reaches c ((lenG c.len).toNat + 4) .p1 (posOnEntry c.len .p1) (accHalf s.params.byteOrder M c.base c.len) := by
  refine h.row hreset (by rw [stepsToDone_eq]; omega) (by decide) (by decide) fun t hrun hph hpos hacc => ?_
  cases hT : lenT2 c.len with
  | true =>
    obtain ⟨bytes, hread, hload, hpos'⟩ := hrun.accumulates hM (by rw [hpos]; exact readsInStep_half hT) (by omega)
    refine ⟨_, .half bytes hph (hrun.len_eq ▸ hT) hread, rfl, hpos'.trans (by simp [hpos, posOnEntry, hT]), ?_⟩
    rw [accHalf, if_pos hT, ← hacc, ← hpos, ← hload]
    rfl
  | false =>
    refine ⟨_, .noHalf hph (hrun.len_eq ▸ hT), rfl, hpos.trans (by simp [posOnEntry, hT]), hacc.trans ?_⟩
    rw [accHalf, hT]
    rfl

/-- The run performs `XOR1` where `T1` is set, at the `BOFF` that `XOR2` left (R83); `ACC` is that of R70. -/
theorem State.Reaches.pf (h : s.Reaches c ((lenG c.len).toNat + 4) .p1 (posOnEntry c.len .p1)
      (accHalf s.params.byteOrder M c.base c.len)) (hM : s.meets c M) :
    s.Reaches c ((lenG c.len).toNat + 5) .pf c.len.toNat (hashAcc s.params.byteOrder M c.base c.len) := by
  have hend := posOnEntry_p1_add c.len
  refine h.row hreset (by rw [stepsToDone_eq]; omega) (by decide) (by decide) fun t hrun hph hpos hacc => ?_
  cases hT : lenT1 c.len with
  | true =>
    obtain ⟨bytes, hread, hload, hpos'⟩ := hrun.accumulates hM (by rw [hpos]; exact readsInStep_byte hT) (by omega)
    have hboff : t.boff = boffIn c.len .p1 := by rw [hrun.busy.boff_eq, hph, hrun.len_eq]
    rw [hT] at hend
    refine ⟨_, .byte bytes hph (hrun.len_eq ▸ hT) hread, rfl, hpos'.trans (by rw [hpos]; exact hend), ?_⟩
    rw [← accByte_eq_hashAcc, accByte, if_pos hT, ← hacc, ← hpos, ← hload, ← hboff]
    rfl
  | false =>
    rw [hT] at hend
    refine ⟨_, .noByte hph (hrun.len_eq ▸ hT), rfl, hpos.trans hend, hacc.trans ?_⟩
    rw [← accByte_eq_hashAcc, accByte, hT]
    rfl

/-- `FOLD`, `NORM` and `BLEND` lead to `DONE` with `ACC` as it was (R90 to R92). -/
theorem State.Reaches.done (h : s.Reaches c ((lenG c.len).toNat + 5) .pf c.len.toNat (hashAcc s.params.byteOrder M c.base c.len)) :
    s.Reaches c (stepsToDone c.len) .done c.len.toNat (hashAcc s.params.byteOrder M c.base c.len) := by
  rw [stepsToDone_eq]
  have hn : s.Reaches c ((lenG c.len).toNat + 6) .pn _ _ := h.row hreset (by rw [stepsToDone_eq]; omega) (by decide) (by decide)
    fun t _ hph hpos hacc => ⟨_, .fold hph, rfl, hpos, hacc⟩
  have hb : s.Reaches c ((lenG c.len).toNat + 7) .pb _ _ := hn.row hreset (by rw [stepsToDone_eq]; omega) (by decide) (by decide)
    fun t _ hph hpos hacc => ⟨_, .norm hph, rfl, hpos, hacc⟩
  exact hb.row hreset (by rw [stepsToDone_eq]; omega) (by decide) (by decide) fun t _ hph hpos hacc => ⟨_, .blend hph, rfl, hpos, hacc⟩

end

/-- In `DONE` the result is the digest of the accumulator (R90 to R92). -/
theorem State.Busy.res_eq {s : State} (hb : s.Busy) (hph : s.ph = .done) :
    s.res = s.seed ^^^ toBe32 s.params.byteOrder (foldHalves s.acc) := by
  rw [hb.res_done hph, hb.nrm_eq (.inr hph), hb.fld_eq (.inr (.inr hph))]

/-- Settles O36, stage by stage along the phases of the run. -/
theorem runHashesTheBytesRead : Obligations.RunHashesTheBytesRead := by
  unfold Obligations.RunHashesTheBytesRead
  intro s c M hidle hfault hoffer _ hreset hM
  have hfirst : s.input.reset = false := by
    rw [(State.RunEnv.refl s).input_eq]
    exact State.noReset_getD hreset (by rw [stepsToDone_eq]; omega)
  have hgroups := (State.reaches_p8 hidle hfault hoffer hfirst).groups hreset hM (Nat.le_refl _)
  have hp1 := ((hgroups.p4 hreset).p2 hreset hM).p1 hreset hM
  obtain ⟨t, hsteps, hrun, hph, hpos, hacc⟩ := (hp1.pf hreset hM).done hreset
  refine ⟨t, hsteps, hph, ?_, BitVec.eq_of_toNat_eq hpos⟩
  rw [hrun.busy.res_eq hph, hrun.seed_eq, hrun.env.params_eq, hacc]
  rfl

end Sys2Proof.Machine

/-! ## Encoding: the packed record and the fields of `LEN` (30_encoding.md)

`decode` reads a number below `2 ^ (64 + AW)` from its digits to the base 256 (`decode_eq_ok`), and that number and the command record are the
same thing (`Command.ofWord_word`, `Command.word_ofWord`); what the statements about records say follows from these. -/

namespace Sys2Proof

/-! ### Numbers and their bytes (log entry 8) -/

@[simp] theorem length_natToBytes (n v : Nat) : (natToBytes n v).length = n := by
  induction n generalizing v with
  | zero => rfl
  | succ n ih => rw [natToBytes, List.length_cons, ih]

theorem bytesToNat_natToBytes (n v : Nat) : bytesToNat (natToBytes n v) = v % 256 ^ n := by
  induction n generalizing v with
  | zero => rw [natToBytes, bytesToNat, Nat.pow_zero, Nat.mod_one]
  | succ n ih =>
    rw [natToBytes, bytesToNat, ih, BitVec.toNat_ofNat, pow_succ' 256 n]
    exact Nat.mod_mul.symm

theorem natToBytes_bytesToNat (bs : List Byte) : natToBytes bs.length (bytesToNat bs) = bs := by
  induction bs with
  | nil => rfl
  | cons b bs ih =>
    have hb := b.isLt
    have hlow : BitVec.ofNat 8 (b.toNat + 256 * bytesToNat bs) = b := BitVec.eq_of_toNat_eq (by rw [BitVec.toNat_ofNat]; omega)
    have hhigh : (b.toNat + 256 * bytesToNat bs) / 256 = bytesToNat bs := by omega
    rw [bytesToNat, List.length_cons, natToBytes, hlow, hhigh, ih]

/-- The bytes of a record have room for its `64 + AW` bits. -/
theorem two_pow_le_recordBytes (aw : Nat) : 2 ^ (64 + aw) ≤ 256 ^ recordBytes aw := by
  rw [show 256 = 2 ^ 8 from rfl, ← Nat.pow_mul]
  exact Nat.pow_le_pow_right (by decide) (by rw [recordBytes]; omega)

/-! ### The packed word (R51) -/

theorem Command.word_ofWord (w : Nat) : (Command.ofWord w).word = w := by
  simp only [Command.ofWord, Command.word, BitVec.toNat_ofNat]
  omega

theorem Command.ofWord_word (c : Command) : Command.ofWord c.word = c := by
  obtain ⟨base, len, seed⟩ := c
  have hlen := len.isLt
  have hseed := seed.isLt
  simp only [Command.ofWord, Command.word, Command.mk.injEq]
  exact ⟨by omega, BitVec.eq_of_toNat_eq (by rw [BitVec.toNat_ofNat]; omega), BitVec.eq_of_toNat_eq (by rw [BitVec.toNat_ofNat]; omega)⟩

/-- A record is well formed when its packed word has no bit above bit `63 + AW` (R51). -/
theorem Command.wf_iff_word_lt {aw : Nat} {c : Command} : c.wf aw = true ↔ c.word < 2 ^ (64 + aw) := by
  have hbase : c.word / 2 ^ 64 = c.base := congrArg Command.base c.ofWord_word
  rw [Command.wf, decide_eq_true_iff, ← hbase, Nat.div_lt_iff_lt_mul (by decide), ← Nat.pow_add, Nat.add_comm]

@[simp] theorem Command.wf_toInstr (aw : Nat) (c : Command) : c.toInstr.wf aw = c.wf aw := rfl

theorem encode_toInstr (aw : Nat) (c : Command) : encode aw c.toInstr = some (natToBytes (recordBytes aw) c.word) := rfl

/-! ### What `decode` answers (R50, R51) -/

theorem decode_natToBytes {aw w : Nat} (rest : List Byte) (hw : w < 2 ^ (64 + aw)) :
    decode aw (natToBytes (recordBytes aw) w ++ rest) = .ok ((Command.ofWord w).toInstr, rest) := by
  have hlen : ¬ (natToBytes (recordBytes aw) w ++ rest).length < recordBytes aw := by simp
  have hv : bytesToNat (natToBytes (recordBytes aw) w) = w := by
    rw [bytesToNat_natToBytes, Nat.mod_eq_of_lt (hw.trans_le (two_pow_le_recordBytes aw))]
  simp only [decode, if_neg hlen, List.take_left' (length_natToBytes ..), List.drop_left' (length_natToBytes ..), hv, if_pos hw]

theorem decode_record {aw w : Nat} (hw : w < 2 ^ (64 + aw)) :
    decode aw (natToBytes (recordBytes aw) w) = .ok ((Command.ofWord w).toInstr, []) := by
  simpa using decode_natToBytes [] hw

/-- A byte sequence decodes exactly when it begins with the bytes of a word of `64 + AW` bits; the operation is the `HASH` of that word's
fields. -/
theorem decode_eq_ok {aw : Nat} {bytes rest : List Byte} {i : Instr} : decode aw bytes = .ok (i, rest) ↔
    ∃ w, w < 2 ^ (64 + aw) ∧ i = (Command.ofWord w).toInstr ∧ bytes = natToBytes (recordBytes aw) w ++ rest := by
  constructor
  · intro h
    simp only [decode] at h
    split at h
    · cases h
    next hlen =>
      split at h
      next hw =>
        cases h
        have htake := natToBytes_bytesToNat (bytes.take (recordBytes aw))
        rw [List.length_take_of_le (Nat.le_of_not_lt hlen)] at htake
        exact ⟨_, hw, rfl, by rw [htake, List.take_append_drop]⟩
      · cases h
  · rintro ⟨w, hw, rfl, rfl⟩
    exact decode_natToBytes rest hw

theorem decode_encode {aw : Nat} {c : Command} (h : c.wf aw = true) (rest : List Byte) :
    decode aw (natToBytes (recordBytes aw) c.word ++ rest) = .ok (c.toInstr, rest) := by
  rw [decode_natToBytes rest (Command.wf_iff_word_lt.mp h), Command.ofWord_word]

/-- Settles O1: the bytes of the packed word give the word back, and its fields are the command's. -/
theorem decodeOfEncode : Obligations.DecodeOfEncode := by
  unfold Obligations.DecodeOfEncode
  intro aw base len seed rest h
  exact ⟨_, rfl, length_natToBytes .., decode_encode (c := ⟨base, len, seed⟩) h rest⟩

/-- Settles O2: what decodes begins with the bytes of a word, which is the packed word of its own fields. -/
theorem encodeOfDecode : Obligations.EncodeOfDecode := by
  unfold Obligations.EncodeOfDecode
  intro aw bytes i rest h
  obtain ⟨w, hw, rfl, rfl⟩ := decode_eq_ok.mp h
  have hword := Command.word_ofWord w
  refine ⟨?_, ⟨_, _, _, rfl⟩, natToBytes (recordBytes aw) w, ?_, rfl⟩
  · rw [Command.wf_toInstr, Command.wf_iff_word_lt, hword]
    exact hw
  · rw [encode_toInstr, hword]

/-- Settles O3: the word decodes by `decode_natToBytes`, and its fields are bit fields. -/
theorem everyRecordDecodes : Obligations.EveryRecordDecodes := by
  unfold Obligations.EveryRecordDecodes
  intro aw w rest hw
  refine ⟨_, _, _, decode_natToBytes rest hw, fun k hk => ?_, fun k hk => ?_, fun k => ?_⟩
  · rw [Command.ofWord, BitVec.getLsbD_ofNat, decide_eq_true hk, Bool.true_and]
  · rw [Command.ofWord, BitVec.getLsbD_ofNat, Nat.testBit_div_two_pow, decide_eq_true hk, Bool.true_and, Nat.add_comm]
  · rw [Command.ofWord, Nat.testBit_div_two_pow, Nat.add_comm]

/-- Settles O5: whatever its width, the word has at most the `64 + AW` bits that are taken for it. -/
theorem tableWordIsHash : Obligations.TableWordIsHash := by
  unfold Obligations.TableWordIsHash
  intro nbits w hw
  have hlt : w < 2 ^ (64 + max 1 (nbits - 64)) := hw.trans_le (Nat.pow_le_pow_right (by decide) (by omega))
  simp only [decodeTableWord, Nat.mod_eq_of_lt hw, decode_record hlt]
  rfl

/-- Settles O4: the fields of each word are those of its command. -/
theorem programWordsDecode : Obligations.ProgramWordsDecode := by
  unfold Obligations.ProgramWordsDecode
  exact ⟨decode_record (aw := 16) (by decide), decode_record (aw := 16) (by decide), decode_record (aw := 16) (by decide),
    decode_record (aw := 16) (by decide), decode_record (aw := 16) (by decide)⟩

end Sys2Proof

namespace Sys2Proof.Machine

/-! ### The fields of `LEN` (R52 to R54) -/

/-- Settles O6, from the fields as numbers. -/
theorem lenFieldsAreQuotientAndRemainder : Obligations.LenFieldsAreQuotientAndRemainder := by
  unfold Obligations.LenFieldsAreQuotientAndRemainder
  intro len
  have hlen := len.isLt
  rw [lenG_toNat, lenT4_toNat, lenT2_toNat, lenT1_toNat]
  omega

/-- A bit of `LEN[2:0]` is that bit of the remainder by 8. -/
theorem getLsbD_eq_testBit_mod_eight (len : Word32) {k : Nat} (hk : k < 3) : len.getLsbD k = (len.toNat % 8).testBit k := by
  rw [show 8 = 2 ^ 3 from rfl, Nat.testBit_mod_two_pow, decide_eq_true hk, Bool.true_and]
  rfl

/-- Settles O7: `TAIL` and `BOFF` depend on the bits of the remainder only. -/
theorem remainderCases : Obligations.RemainderCases := by
  unfold Obligations.RemainderCases
  intro len
  have h4 : lenT4 len = (len.toNat % 8).testBit 2 := getLsbD_eq_testBit_mod_eight len (by decide)
  have h2 : lenT2 len = (len.toNat % 8).testBit 1 := getLsbD_eq_testBit_mod_eight len (by decide)
  have h1 : lenT1 len = (len.toNat % 8).testBit 0 := getLsbD_eq_testBit_mod_eight len (by decide)
  simp only [tail, boffIn, h4, h2, h1]
  generalize len.toNat % 8 = r
  refine ⟨?_, ?_, ?_, ?_, ?_, ?_, ?_, ?_⟩ <;> rintro rfl <;> decide

/-! ### The expansion (R53, R59) -/

theorem length_tail (len : Word32) : (tail len).length = (lenT4 len).toNat + (lenT2 len).toNat + (lenT1 len).toNat := by
  cases h4 : lenT4 len <;> cases h2 : lenT2 len <;> cases h1 : lenT1 len <;> simp [tail, h4, h2, h1]

theorem length_expansion (len : Word32) :
    (expansion len).length = 5 + (lenG len).toNat + (lenT4 len).toNat + (lenT2 len).toNat + (lenT1 len).toNat := by
  simp only [expansion, bulk, finish, List.length_append, List.length_replicate, List.length_cons, List.length_nil, length_tail]
  omega

theorem mem_expansion_iff {i : Instr} {len : Word32} : i ∈ expansion len ↔ 0 < i.timesRun len := by
  rw [← Laws.TimesRun.all i len, List.count_pos_iff]

/-- `LEN & mask = match` with the one bit `k` in both says that bit `k` is set (R53). -/
theorem and_twoPow_eq_iff (len : Word32) {k : Nat} (hk : k < 32) :
    len &&& BitVec.twoPow 32 k = BitVec.twoPow 32 k ↔ 0 < (len.getLsbD k).toNat := by
  have hne : BitVec.twoPow 32 k ≠ 0#32 := fun h => by simpa [hk] using congrArg (·.getLsbD k) h
  rw [BitVec.and_twoPow]
  cases len.getLsbD k with
  | true => simp
  | false => simp [hne.symm]

/-- Settles O8: an operation is in the expansion when R53 runs it, and the remainder ones are run by their bit of `LEN`. -/
theorem microOperationCount : Obligations.MicroOperationCount := by
  unfold Obligations.MicroOperationCount
  intro len
  refine ⟨length_expansion len, fun i hi => mem_expansion_iff.trans ?_⟩
  simp only [List.mem_cons, List.not_mem_nil, or_false] at hi
  rcases hi with rfl | rfl | rfl
  · exact (and_twoPow_eq_iff len (k := 2) (by decide)).symm
  · exact (and_twoPow_eq_iff len (k := 1) (by decide)).symm
  · exact (and_twoPow_eq_iff len (k := 0) (by decide)).symm

/-- Settles O33: `G` is `LEN div 8`. -/
theorem hashIsItsExpansion : Obligations.HashIsItsExpansion := by
  unfold Obligations.HashIsItsExpansion
  intro s c hidle hfault
  rw [exec_hash hidle hfault, ← lenG_toNat]
  rfl

end Sys2Proof.Machine

/-! ## The command: the sequencer's rows, and `HASH` as a whole (40_command.md)

`step_eq_row` says once what a step is where there is neither a reset nor a recorded fault. `HASH` under the launch premises is followed along
`State.progress`, the state after so many bytes; calm steps are compared with `HASH` operation by operation (`State.StepsRun`); the run under
the launch premises is that of `State.Reaches`, whose reads find the bytes of the window (`State.meets_of_launch`). -/

namespace Sys2Proof.Machine

/-! ### `INIT` and `RET` (R72, R73) -/

theorem exec_init (s : State) : exec .init s = .next s.initiated := rfl

/-- What `RET` leaves (R73). -/
def State.returned (s : State) : State := { s with digest := s.res, ph := .idle, responses := s.responses ++ [s.res] }

theorem exec_ret (s : State) : exec .ret s = .next s.returned := rfl

/-- Settles O9, by the state that `INIT` leaves. -/
theorem initCompletes : Obligations.InitCompletes :=
  fun s => ⟨s.initiated, exec_init s, rfl, rfl, rfl, rfl, rfl, fun _ => rfl⟩

/-- Settles O17, by the state that `RET` leaves. -/
theorem retCompletes : Obligations.RetCompletes :=
  fun s => ⟨s.returned, exec_ret s, rfl, rfl, rfl, rfl, fun _ => rfl⟩

/-! ### The sequencer's rows (R71) -/

section
variable {pos len : Word32} {o k : Bool}

theorem selectOp_p8_of_ne (h : pos.extractLsb' 3 29 ≠ lenG len) :
    selectOp .p8 pos len o k = some .xor8 ∧ phaseAfter .p8 pos len o k = .p8 := by
  simp [selectOp, phaseAfter, groupsDone, h]

theorem selectOp_p8_of_eq (h : pos.extractLsb' 3 29 = lenG len) :
    selectOp .p8 pos len o k = none ∧ phaseAfter .p8 pos len o k = .p4 := by
  simp [selectOp, phaseAfter, groupsDone, h]

end

/-- Settles O24: the row of `P8` depends on its condition, every other one is read off. -/
theorem sequencerRows : Obligations.SequencerRows :=
  fun _ _ _ _ => ⟨selectOp_p8_of_ne, selectOp_p8_of_eq, ⟨rfl, rfl⟩, ⟨rfl, rfl⟩, ⟨rfl, rfl⟩, ⟨rfl, rfl⟩, ⟨rfl, rfl⟩, ⟨rfl, rfl⟩,
    ⟨rfl, rfl⟩, ⟨rfl, rfl⟩⟩

/-! ### A step is a row (R71, R121) -/

theorem step_eq_row {s : State} (hreset : s.input.reset = false) (hfault : s.fault = none) :
    step s = andThen (row s.input s.begin) fun t => .next t.settle := by
  simp [step, stepWith, hreset, hfault]

/-- A row that performs an operation does so from the state `s'` in which the offer is latched. -/
theorem row_eq_exec {e : HostInput} {s s' : State} {i : Instr} {ph : Phase}
    (hsel : selectOp s.ph s.pos s.len e.offer.isSome e.take = some i)
    (hph : phaseAfter s.ph s.pos s.len e.offer.isSome e.take = ph) (hs : s.latchOffer e.offer = s') :
    row e s = andThen (exec i s') fun t => .next { t with ph := ph } := by
  simp only [row, hsel, hph, hs]

/-- A step that performs an operation. -/
theorem step_eq_exec {s s' : State} {i : Instr} {ph : Phase} (hreset : s.input.reset = false) (hfault : s.fault = none)
    (hsel : selectOp s.ph s.pos s.len s.input.offer.isSome s.input.take = some i)
    (hph : phaseAfter s.ph s.pos s.len s.input.offer.isSome s.input.take = ph) (hs : s.begin.latchOffer s.input.offer = s') :
    step s = andThen (exec i s') fun t => .next (State.settle { t with ph := ph }) := by
  rw [step_eq_row hreset hfault, row_eq_exec (s := s.begin) hsel hph hs, andThen_assoc]
  rfl

/-- A step that accepts a command performs `INIT` on it. -/
theorem step_eq_accept {s : State} {c : Command} (hreset : s.input.reset = false) (hfault : s.fault = none) (hidle : s.ph = .idle)
    (hoffer : s.input.offer = some c) :
    step s = andThen (exec .init (s.begin.accept c)) fun t => .next (State.settle { t with ph := .p8 }) :=
  step_eq_exec hreset hfault (by simp [selectOp, hidle, hoffer]) (by simp [phaseAfter, hidle, hoffer])
    (hoffer ▸ State.latchOffer_idle (s := s.begin) hidle c)

/-- A well-formed `BASE` is latched as it is (R16). -/
theorem Command.base_mod_of_wf {aw : Nat} {c : Command} (h : c.wf aw = true) : c.base % 2 ^ aw = c.base :=
  Nat.mod_eq_of_lt (of_decide_eq_true h)

theorem State.accept_of_wf {s : State} {c : Command} (h : c.wf s.params.aw = true) :
    s.accept c = { s with base := c.base, len := c.len, seed := c.seed, valid := s.readable, reads := [] } := by
  rw [State.accept, Command.base_mod_of_wf h]

/-- The step after `withFetchWord` starts from the state with the earlier writes landed: the placed input only offers. -/
theorem State.begin_withFetchWord (s : State) (nbits w : Nat) :
    (s.withFetchWord nbits w).begin = { s.settle with ph := .idle, fault := none } := rfl

/-- Settles O23, from `step_eq_accept`, `step_eq_exec` and `row_eq_skip`. -/
theorem stepRunsSelectedOperation : Obligations.StepRunsSelectedOperation := by
  refine ⟨fun s bytes rest base len seed hreset hfault hidle hdec hoffer => ?_, fun s i hreset hfault hbusy hsel => ?_,
    fun s hreset hfault hsel => ?_, fun s nbits w base len seed hdec hbase => ?_⟩
  · have hwf : Command.wf s.params.aw ⟨base, len, seed⟩ = true := (encodeOfDecode _ _ _ _ hdec).1
    rw [step_eq_accept hreset hfault hidle hoffer, State.accept_of_wf (s := s.begin) hwf]
  · exact step_eq_exec hreset hfault hsel rfl (State.latchOffer_busy (s := s.begin) hbusy _)
  · rw [step_eq_row hreset hfault, row_eq_skip (s := s.begin) hsel rfl]
    rfl
  · have hoffer : (s.withFetchWord nbits w).input.offer = some ⟨base, len, seed⟩ := by
      simp only [State.withFetchWord, State.input, List.headD_cons, hdec]
    rw [step_eq_accept rfl rfl rfl hoffer, State.begin_withFetchWord, State.accept_of_wf (decide_eq_true hbase)]
    rfl

/-! ### An offer while the block is busy (R76, R123) -/

/-- Outside `IDLE` the row does not depend on the offer. -/
theorem row_offer_of_busy {s : State} (h : s.ph ≠ .idle) (e : HostInput) (o : Option Command) :
    row { e with offer := o } s = row { e with offer := none } s := by
  have hsel : selectOp s.ph s.pos s.len o.isSome e.take = selectOp s.ph s.pos s.len false e.take := by
    cases hph : s.ph with
    | idle => exact absurd hph h
    | _ => rfl
  have hafter : phaseAfter s.ph s.pos s.len o.isSome e.take = phaseAfter s.ph s.pos s.len false e.take := by
    cases hph : s.ph with
    | idle => exact absurd hph h
    | _ => rfl
  simp only [row, State.latchOffer_busy h, Option.isSome_none, hsel, hafter]

/-- Settles O26: the rest of a step does not look at the offer at all; `HASH` refuses by `exec_hash_refuses`. -/
theorem busyOfferHasNoEffect : Obligations.BusyOfferHasNoEffect := by
  refine ⟨fun s e rest o hbusy => ?_, fun s => exec_hash_refuses⟩
  have hrow := row_offer_of_busy (s := State.begin { s with inputs := e :: rest }) hbusy e o
  have hwith : stepWith { e with offer := o } (State.begin { s with inputs := e :: rest }) =
      stepWith { e with offer := none } (State.begin { s with inputs := e :: rest }) := by
    simp only [stepWith, hrow]
  exact congrArg (andThen · fun t => .next t.settle) hwith

/-! ### `HASH` under the launch premises (R70) -/

/-- What `FOLD`, `NORM` and `BLEND` leave (R90 to R92). -/
def State.finished (s : State) : State :=
  { s with
    fld := foldHalves s.acc
    nrm := toBe32 s.params.byteOrder (foldHalves s.acc)
    res := s.res ^^^ toBe32 s.params.byteOrder (foldHalves s.acc) }

theorem runOps_finish (s : State) : runOps finish s = .next s.finished := rfl

/-- The invocation of the latched command of `s` when its first `n` window bytes are read, with these values of `ACC` and `BOFF`. -/
def State.progress (s : State) (n : Nat) (acc : Word64) (boff : BitVec 5) : State :=
  { s.landed n with acc := acc, res := s.seed, pos := BitVec.ofNat 32 n, boff := boff, reads := List.range' s.base n }

/-- `INIT` leaves an invocation that has read nothing. -/
theorem State.initiated_eq_progress {s : State} (hreads : s.reads = []) : s.initiated = s.progress 0 0 0 := by
  rw [State.progress, State.landed_zero, List.range'_zero, ← hreads]
  rfl

theorem State.progress_ea (s : State) {n : Nat} (hn : n < 2 ^ 32) (acc : Word64) (boff : BitVec 5) :
    (s.progress n acc boff).ea = s.base + n := by
  show s.base + (BitVec.ofNat 32 n).toNat = s.base + n
  rw [BitVec.toNat_ofNat, Nat.mod_eq_of_lt hn]

/-- A read in progress goes on to `n + k` bytes. -/
theorem accumulated_progress (s : State) {n k : Nat} (hn : n < 2 ^ 32) (acc v : Word64) (boff : BitVec 5) :
    accumulated k v (s.progress n acc boff) = s.progress (n + k) (acc ^^^ v) boff := by
  have hland : (s.progress n acc boff).landed k = { s.landed (n + k) with
      acc := acc, res := s.seed, pos := BitVec.ofNat 32 n, boff := boff, reads := List.range' s.base n } := by
    rw [State.landed_add]
    rfl
  rw [accumulated, hland, s.progress_ea hn]
  simp only [State.progress, BitVec.ofNat_add, ← List.range'_append_1]

section
variable {s : State} {M : Nat → Byte} (h : s.holds M s.base s.len.toNat)
include h

/-- Reading the next `k` bytes of the window (R80 to R83). -/
theorem accumulate_progress {n k : Nat} (hle : n + k ≤ s.len.toNat) (place : List Byte → Word64) (acc : Word64) (boff : BitVec 5) :
    accumulate k place (s.progress n acc boff) =
      .next (s.progress (n + k) (acc ^^^ place ((List.range k).map fun j => M (s.base + n + j))) boff) := by
  have hlen := s.len.isLt
  have hea := s.progress_ea (n := n) (by omega) acc boff
  have hholds : (s.progress n acc boff).holds M (s.progress n acc boff).ea k := fun j hj => by
    have hbyte := h (n + j) (by omega)
    rw [Nat.add_assoc, State.landed_add, ← Nat.add_assoc] at hbyte
    rw [hea, ← hbyte]
    exact State.readByte_congr rfl rfl rfl rfl _
  rw [accumulate_of_holds place hholds, hea, accumulated_progress s (by omega)]

/-- The load of the next `k` bytes as the sum of R33. -/
theorem accumulate_assemble_progress {n k : Nat} (hk : k ≤ 8) (hle : n + k ≤ s.len.toNat) (acc : Word64) (boff : BitVec 5) :
    accumulate k (assemble s.params.byteOrder) (s.progress n acc boff) =
      .next (s.progress (n + k) (acc ^^^ loadWord s.params.byteOrder M (s.base + n) k) boff) := by
  rw [accumulate_progress h hle, assemble_eq_loadWord _ _ _ hk]

theorem runOps_bulk_progress {g : Nat} (hg : g ≤ (lenG s.len).toNat) :
    runOps (bulk g) (s.progress 0 0 0) = .next (s.progress (8 * g) (accGroups s.params.byteOrder M s.base g) 0) := by
  induction g with
  | zero => rfl
  | succ g ih =>
    have hle : 8 * g + 8 ≤ s.len.toNat := by rw [lenG_toNat] at hg; omega
    rw [bulk, List.replicate_succ', runOps_append, ← bulk, ih (by omega), andThen_next, runOps_singleton, accGroups_succ]
    exact accumulate_assemble_progress h (by omega) hle ..

theorem runOps_word_progress :
    runOps (if lenT4 s.len then [.xor4] else [])
        (s.progress (posOnEntry s.len .p4) (accGroups s.params.byteOrder M s.base (lenG s.len).toNat) 0) =
      .next (s.progress (posOnEntry s.len .p2) (accWord s.params.byteOrder M s.base s.len) 0) := by
  cases hT : lenT4 s.len with
  | true =>
    have hle := posOnEntry_le s.len .p2
    simp only [posOnEntry, accWord, hT, if_true, Bool.toNat_true, runOps_singleton] at hle ⊢
    exact accumulate_assemble_progress h (by omega) hle ..
  | false => simp only [posOnEntry, accWord, hT]; rfl

theorem runOps_half_progress :
    runOps (if lenT2 s.len then [.xor2] else [])
        (s.progress (posOnEntry s.len .p2) (accWord s.params.byteOrder M s.base s.len) 0) =
      .next (s.progress (posOnEntry s.len .p1) (accHalf s.params.byteOrder M s.base s.len) (boffIn s.len .p1)) := by
  cases hT : lenT2 s.len with
  | true =>
    have hle := posOnEntry_le s.len .p1
    simp only [posOnEntry, accHalf, boffIn, hT, if_true, Bool.toNat_true, runOps_singleton] at hle ⊢
    exact congrArg (andThen · fun t => .next { t with boff := boffArmed })
      (accumulate_assemble_progress h (by omega) hle ..)
  | false => simp only [posOnEntry, accHalf, boffIn, hT]; rfl

theorem runOps_byte_progress :
    runOps (if lenT1 s.len then [.xor1] else [])
        (s.progress (posOnEntry s.len .p1) (accHalf s.params.byteOrder M s.base s.len) (boffIn s.len .p1)) =
      .next (s.progress s.len.toNat (hashAcc s.params.byteOrder M s.base s.len) (boffIn s.len .p1)) := by
  have hend := posOnEntry_p1_add s.len
  rw [← accByte_eq_hashAcc, accByte]
  cases hT : lenT1 s.len with
  | true =>
    rw [hT, Bool.toNat_true] at hend
    have hrow := accumulate_progress h (Nat.le_of_eq hend)
      (fun bytes => assemble s.params.byteOrder bytes <<< (boffIn s.len .p1).toNat) (accHalf s.params.byteOrder M s.base s.len)
      (boffIn s.len .p1)
    rw [assemble_eq_loadWord _ _ _ (by omega), hend] at hrow
    exact (runOps_singleton ..).trans hrow
  | false =>
    rw [hT, Bool.toNat_false, Nat.add_zero] at hend
    rw [hend]
    rfl

/-- The invocation of a latched command whose window bytes are those of `M` (R59, R70). -/
theorem runOps_expansion_of_holds (hreads : s.reads = []) :
    runOps (expansion s.len) s =
      .next (s.progress s.len.toNat (hashAcc s.params.byteOrder M s.base s.len) (boffIn s.len .done)).finished.returned := by
  have hbulk : runOps (bulk (lenG s.len).toNat) s.initiated = .next (s.progress (posOnEntry s.len .p4) _ 0) :=
    s.initiated_eq_progress hreads ▸ runOps_bulk_progress h (Nat.le_refl _)
  simp only [expansion, tail, runOps_append, runOps_singleton, exec_init, andThen_next, hbulk, runOps_word_progress h,
    runOps_half_progress h, runOps_byte_progress h, runOps_finish, exec_ret]
  rfl

end

/-- `HASH` under the launch premises (R70). -/
theorem exec_hash_of_launch {s : State} {c : Command} {M : Nat → Byte} (h : s.launch M c) :
    exec (.hash c.base c.len c.seed) s =
      .next ((s.accept c).progress c.len.toNat (hashAcc s.params.byteOrder M c.base c.len) (boffIn c.len .done)).finished.returned := by
  obtain ⟨hidle, hfault, hwf, -, hholds⟩ := h
  have hbase : (s.accept c).base = c.base := Command.base_mod_of_wf hwf
  rw [← hbase] at hholds
  rw [exec_hash hidle hfault, ← hbase]
  exact runOps_expansion_of_holds (s := s.accept c) hholds rfl

/-- Settles O30, field by field of `exec_hash_of_launch`. -/
theorem hashCompletes : Obligations.HashCompletes := by
  unfold Obligations.HashCompletes
  intro s c M h
  have hexec := exec_hash_of_launch h
  obtain ⟨-, hfault, hwf, -, -⟩ := h
  have hbase : (s.accept c).base = c.base := Command.base_mod_of_wf hwf
  refine ⟨_, hexec, rfl, rfl, rfl, rfl, rfl, rfl, rfl, BitVec.ofNat_toNat _ c.len, rfl, rfl, hbase,
    congrArg (List.range' · c.len.toNat) hbase, rfl, hfault, rfl, rfl, rfl, rfl, rfl, fun a ha => ?_⟩
  exact State.read_landed_other ha _

/-! ### Zero length (R75, R102) -/

/-- Of the expansion only `INIT`, `FINISH` and `RET` are left. -/
theorem runOps_expansion_zero (s : State) : runOps (expansion 0) s = .next s.initiated.finished.returned := rfl

theorem runOps_expansion_zero_dropLast (s : State) : runOps (expansion 0).dropLast s = .next s.initiated.finished := rfl

theorem foldHalves_zero : foldHalves 0 = 0 := by decide

theorem toBe32_zero (bo : ByteOrder) : toBe32 bo 0 = 0 := by cases bo <;> decide

theorem hashAcc_zero (bo : ByteOrder) (M : Nat → Byte) (base : Nat) : hashAcc bo M base 0 = 0 := rfl

/-- Settles O32: with nothing accumulated the fold is 0, so `BLEND` keeps the seed. -/
theorem zeroLengthGivesSeed : Obligations.ZeroLengthGivesSeed := by
  have hblend (bo : ByteOrder) (seed : Word32) : seed ^^^ toBe32 bo (foldHalves 0) = seed := by
    rw [foldHalves_zero, toBe32_zero]
    exact BitVec.xor_zero
  refine ⟨fun s base seed hidle hfault => ?_, fun bo M base seed => ?_⟩
  · have hhash : exec (.hash base 0 seed) s = _ := (exec_hash hidle hfault ⟨base, 0, seed⟩).trans (runOps_expansion_zero _)
    refine ⟨⟨_, hhash, hblend _ seed, rfl⟩, _, runOps_expansion_zero_dropLast _, rfl, foldHalves_zero, ?_, hblend _ seed, rfl⟩
    exact (congrArg _ foldHalves_zero).trans (toBe32_zero _)
  · rw [hashFunction, hashAcc_zero, hblend]

/-! ### The steps of a run and the operations of `HASH` (R71, R74) -/

/-- `s` in the phase `ph`, with the inputs `es` to come. -/
def State.inPhase (s : State) (ph : Phase) (es : List HostInput) : State := { s with ph := ph, inputs := es }

/-- A read does not depend on the phase and the inputs to come. -/
theorem accumulate_inPhase {n : Nat} {place : List Byte → Word64} {s : State} {ph : Phase} {es : List HostInput} :
    accumulate n place (s.inPhase ph es) = andThen (accumulate n place s) fun t => .next (t.inPhase ph es) := by
  have hread : (s.inPhase ph es).memRead (s.inPhase ph es).ea n = s.memRead s.ea n :=
    State.memRead_congr (s := s) (t := s.inPhase ph es) rfl rfl rfl rfl rfl _ _
  rw [accumulate, accumulate, hread]
  cases s.memRead s.ea n <;> rfl

/-- A micro-operation does not depend on the phase and the inputs to come. -/
theorem exec_inPhase {i : Instr} (hi : ∀ b l d, i ≠ .hash b l d) (s : State) (ph ph' : Phase) (es es' : List HostInput) :
    (andThen (exec i (s.inPhase ph es)) fun t => .next (t.inPhase ph' es')) = andThen (exec i s) fun t => .next (t.inPhase ph' es') := by
  cases i with
  | hash b l d => exact absurd rfl (hi b l d)
  | init | fold | norm | blend | ret => rfl
  | xor8 | xor4 | xor1 => exact (congrArg (andThen · _) accumulate_inPhase).trans (andThen_assoc ..)
  | xor2 =>
    simp only [exec, execXor2, accumulate_inPhase, andThen_assoc]
    rfl

/-- The input of the step after `k` steps that used up their inputs. -/
theorem State.input_of_drop {s t : State} {k : Nat} (h : t.inputs = s.inputs.drop k) : t.input = s.inputs.getD k {} := by
  simp [State.input, h, List.headD_eq_head?_getD]

/-- The outside neither resets nor changes memory with this input. -/
structure HostInput.Calm (e : HostInput) : Prop where
  reset_eq : e.reset = false
  remap_eq : e.remap = []
  writes_eq : e.writes = []

theorem State.begin_of_calm {s : State} (hpending : s.pending = []) (h : s.input.Calm) :
    s.begin = s.inPhase s.ph s.inputs.tail :=
  State.begin_of_silent hpending h.remap_eq h.writes_eq

/-- A micro-operation leaves no write pending where none was. -/
theorem State.Keeps.pending_nil {n : Nat} {s t : State} (h : s.Keeps n t) (hpending : s.pending = []) : t.pending = [] := by
  rw [h.pending_eq, State.landed_of_nil hpending, hpending]

/-- A step of the busy block without a fault, in which the outside is calm, performs the operation that the phase selects, if there is one
(R71). -/
theorem step_inPhase {s : State} {ph : Phase} {es : List HostInput} {e : HostInput} (hbusy : ph ≠ .idle) (hfault : s.fault = none)
    (hpending : s.pending = []) (he : (s.inPhase ph es).input = e) (hcalm : e.Calm) :
    step (s.inPhase ph es) = andThen (runOps (selectOp ph s.pos s.len e.offer.isSome e.take).toList s)
      fun t => .next (t.inPhase (phaseAfter ph s.pos s.len e.offer.isSome e.take) es.tail) := by
  subst he
  have hbegin : (s.inPhase ph es).begin = s.inPhase ph es.tail := State.begin_of_calm (s := s.inPhase ph es) hpending hcalm
  cases hsel : selectOp ph s.pos s.len (s.inPhase ph es).input.offer.isSome (s.inPhase ph es).input.take with
  | none =>
    rw [step_eq_row hcalm.reset_eq hfault, hbegin, row_eq_skip (s := s.inPhase ph es.tail) hsel rfl]
    exact congrArg Host.Outcome.next (State.settle_of_nil hpending)
  | some i =>
    have hi := ne_hash_of_selectOp hsel
    rw [step_eq_exec hcalm.reset_eq hfault hsel rfl (State.latchOffer_busy (s := (s.inPhase ph es).begin) hbusy _), hbegin,
      Option.toList_some, runOps_singleton, ← exec_inPhase hi s ph _ es.tail]
    refine andThen_congr fun t ht => congrArg Host.Outcome.next ?_
    obtain ⟨n, -, hk⟩ := exec_keeps hi ht
    have hinputs : t.inputs = es.tail := hk.inputs_eq
    rw [← hinputs]
    exact State.settle_of_nil (hk.pending_nil hpending)

/-- A command is offered to the idle block without a fault, and the outside is calm in the first `n` steps. -/
structure State.OffersCalmly (s : State) (c : Command) (n : Nat) : Prop where
  ph_idle : s.ph = .idle
  fault_none : s.fault = none
  pending_nil : s.pending = []
  offer_eq : s.input.offer = some c
  calm : ∀ k, k < n → (s.inputs.getD k {}).Calm

/-- `k` steps from `s`, the first of which accepts `c`, do what the operations `is` do to the latched command, and lead to the phase
`ph`. -/
structure State.StepsRun (s : State) (c : Command) (k : Nat) (is : List Instr) (ph : Phase) : Prop where
  ne_hash : ∀ i ∈ is, ∀ b l d, i ≠ .hash b l d
  steps_eq : steps k s = andThen (runOps is (s.accept c)) fun t => .next (t.inPhase ph (s.inputs.drop k))

theorem runOps_pos {is : List Instr} (his : ∀ i ∈ is, (∀ b l d, i ≠ .hash b l d) ∧ i ≠ .init) {s t : State}
    (h : runOps is s = .next t) : t.pos = s.pos + BitVec.ofNat 32 (is.map Instr.bytesRead).sum := by
  induction is generalizing s with
  | nil => cases h; exact (BitVec.add_zero _).symm
  | cons i is ih =>
    obtain ⟨hi, hinit⟩ := his i (by simp)
    obtain ⟨u, hu, ht⟩ := andThen_eq_next.mp h
    rw [ih (fun j hj => his j (by simp [hj])) ht, exec_pos hi hinit hu, List.map_cons, List.sum_cons, BitVec.ofNat_add,
      BitVec.add_assoc]

/-- After `g` groups `POS` is `8 * g` (R23 b). -/
theorem pos_of_runOps_bulk {s t : State} {len : Word32} {g : Nat} (hg : g ≤ (lenG len).toNat)
    (h : runOps ([.init] ++ bulk g) s = .next t) : t.pos.toNat = 8 * g := by
  have hpos : t.pos = BitVec.ofNat 32 ((bulk g).map Instr.bytesRead).sum :=
    (runOps_pos (s := s.initiated) (fun i hi => by simp [List.eq_of_mem_replicate hi]) h).trans (BitVec.zero_add _)
  have hlen := len.isLt
  rw [lenG_toNat] at hg
  simp only [bulk, List.map_replicate, List.sum_replicate, Instr.bytesRead, smul_eq_mul] at hpos
  rw [hpos, BitVec.toNat_ofNat]
  omega

section
variable {s : State} {c : Command} {n : Nat} (hs : s.OffersCalmly c n)
include hs

/-- The first step accepts the command and performs `INIT`. -/
theorem State.OffersCalmly.run_init (hn : 0 < n) : s.StepsRun c 1 [.init] .p8 := by
  refine ⟨by simp, ?_⟩
  have hcalm : s.input.Calm := by
    rw [(State.RunEnv.refl s).input_eq]
    exact hs.calm 0 hn
  have hsettle : State.settle { (s.begin.accept c).initiated with ph := .p8 } =
      (s.accept c).initiated.inPhase .p8 (s.inputs.drop 1) := by
    rw [State.begin_of_calm hs.pending_nil hcalm, List.drop_one]
    exact State.settle_of_nil hs.pending_nil
  calc steps 1 s
    _ = step s := andThen_next_right _
    _ = .next (State.settle { (s.begin.accept c).initiated with ph := .p8 }) :=
      step_eq_accept hcalm.reset_eq hs.fault_none hs.ph_idle hs.offer_eq
    _ = _ := congrArg _ hsettle

/-- One more step performs the operations `js` that the phase selects, at most one. -/
theorem State.OffersCalmly.run_step {k : Nat} {is js : List Instr} {ph ph' : Phase} (h : s.StepsRun c k is ph) (hk : k < n)
    (hbusy : ph ≠ .idle) (hne : ∀ i ∈ js, ∀ b l d, i ≠ .hash b l d)
    (hjs : ∀ t, runOps is (s.accept c) = .next t → t.len = c.len → ∀ o,
      (selectOp ph t.pos t.len o (s.inputs.getD k {}).take).toList = js ∧ phaseAfter ph t.pos t.len o (s.inputs.getD k {}).take = ph') :
    s.StepsRun c (k + 1) (is ++ js) ph' := by
  refine ⟨fun i hi => (List.mem_append.mp hi).elim (h.ne_hash i) (hne i), ?_⟩
  rw [steps_succ, h.steps_eq, andThen_assoc, runOps_append, andThen_assoc]
  refine andThen_congr fun t ht => ?_
  obtain ⟨m, hkeeps⟩ := runOps_keeps h.ne_hash ht
  obtain ⟨rfl, rfl⟩ := hjs t ht hkeeps.len_eq (s.inputs.getD k {}).offer.isSome
  rw [andThen_next, step_inPhase hbusy (hkeeps.fault_eq.trans hs.fault_none) (hkeeps.pending_nil hs.pending_nil)
    (State.input_of_drop rfl) (hs.calm k hk), List.tail_drop]

/-- A step performs `XOR8` on each full group (R80). -/
theorem State.OffersCalmly.run_groups {g : Nat} (hg : g ≤ (lenG c.len).toNat) (hn : g < n) :
    s.StepsRun c (g + 1) ([.init] ++ bulk g) .p8 := by
  induction g with
  | zero => exact hs.run_init hn
  | succ g ih =>
    rw [bulk, List.replicate_succ', ← List.append_assoc]
    refine hs.run_step (ih (by omega) (by omega)) hn (by decide) (by simp) fun t ht hlen o => ?_
    have hd : groupsDone t.pos t.len = false := by
      rw [Bool.eq_false_iff, ne_eq, groupsDone_iff, pos_of_runOps_bulk (len := c.len) (by omega) ht, hlen]
      rw [lenG_toNat] at hg
      omega
    simp [selectOp, phaseAfter, hd]

/-- In `P4`, `P2` and `P1` a step performs the operation of the phase where its bit of `LEN` is set (R81 to R83). -/
theorem State.OffersCalmly.run_remainder {k : Nat} {is : List Instr} (h : s.StepsRun c k is .p4) (hn : k + 2 < n) :
    s.StepsRun c (k + 3) (is ++ tail c.len) .pf := by
  rw [tail, ← List.append_assoc, ← List.append_assoc]
  have hgate {b : Bool} {i : Instr} (hi : ∀ b l d, i ≠ .hash b l d) : ∀ j ∈ if b then [i] else [], ∀ b l d, j ≠ .hash b l d := by
    cases b <;> simp [hi]
  have hlist (b : Bool) (i : Instr) : (if b then some i else none).toList = if b then [i] else [] := by cases b <;> rfl
  have h2 := hs.run_step (js := if lenT4 c.len then [.xor4] else []) (ph' := .p2) h (by omega) (by decide) (hgate (by simp))
    fun t _ hlen o => ⟨hlen ▸ hlist .., rfl⟩
  have h1 := hs.run_step (js := if lenT2 c.len then [.xor2] else []) (ph' := .p1) h2 (by omega) (by decide) (hgate (by simp))
    fun t _ hlen o => ⟨hlen ▸ hlist .., rfl⟩
  exact hs.run_step h1 (by omega) (by decide) (hgate (by simp)) fun t _ hlen o => ⟨hlen ▸ hlist .., rfl⟩

/-- The steps of `PF`, `PN` and `PB` perform `FINISH` (R90 to R92). -/
theorem State.OffersCalmly.run_finish {k : Nat} {is : List Instr} (h : s.StepsRun c k is .pf) (hn : k + 2 < n) :
    s.StepsRun c (k + 3) (is ++ finish) .done := by
  have hn' := hs.run_step (js := [.fold]) (ph' := .pn) h (by omega) (by decide) (by simp) fun _ _ _ _ => ⟨rfl, rfl⟩
  have hb := hs.run_step (js := [.norm]) (ph' := .pb) hn' (by omega) (by decide) (by simp) fun _ _ _ _ => ⟨rfl, rfl⟩
  have hd := hs.run_step (js := [.blend]) (ph' := .done) hb (by omega) (by decide) (by simp) fun _ _ _ _ => ⟨rfl, rfl⟩
  simpa [Sys2Proof.finish] using hd

/-- `G + 9` steps, the last of which takes the response, perform the expansion of the command (R59, R71). -/
theorem State.OffersCalmly.run_expansion (hn : stepsToDone c.len < n) (htake : (s.inputs.getD (stepsToDone c.len) {}).take = true) :
    s.StepsRun c (stepsToDone c.len + 1) (expansion c.len) .idle := by
  rw [stepsToDone_eq] at hn htake ⊢
  have hgroups := hs.run_groups (Nat.le_refl _) (by omega)
  have hp4 : s.StepsRun c ((lenG c.len).toNat + 2) ([.init] ++ bulk (lenG c.len).toNat ++ []) .p4 := by
    refine hs.run_step hgroups (by omega) (by decide) (by simp) fun t ht hlen o => ?_
    have hd : groupsDone t.pos t.len = true := by
      rw [groupsDone_iff, pos_of_runOps_bulk (Nat.le_refl _) ht, hlen, lenG_toNat]
      omega
    simp [selectOp, phaseAfter, hd]
  rw [List.append_nil] at hp4
  have hdone := hs.run_finish (hs.run_remainder hp4 (by omega)) (by omega)
  exact hs.run_step hdone (by omega) (by decide) (by simp) fun _ _ _ _ => by rw [htake]; exact ⟨rfl, rfl⟩

end

theorem ph_idle_of_runOps_expansion {s t : State} {len : Word32} (h : runOps (expansion len) s = .next t) : t.ph = .idle := by
  rw [expansion, runOps_append, andThen_eq_next] at h
  obtain ⟨u, -, hu⟩ := h
  cases hu
  rfl

/-- A quiet input is calm, so what holds of the listed inputs holds of all. -/
theorem calm_of_take {es : List HostInput} {n k : Nat} (hreset : ∀ e ∈ es.take n, e.reset = false)
    (hquiet : ∀ e ∈ es.take n, e.remap = [] ∧ e.writes = []) (hk : k < n) : (es.getD k {}).Calm := by
  rw [List.getD_eq_getElem?_getD]
  cases hget : es[k]? with
  | none => exact ⟨rfl, rfl, rfl⟩
  | some e =>
    have hmem : e ∈ es.take n := List.mem_of_getElem? (i := k) (by rw [List.getElem?_take_of_lt hk, hget])
    obtain ⟨hremap, hwrites⟩ := hquiet e hmem
    exact ⟨hreset e hmem, hremap, hwrites⟩

/-- Settles O34: the steps perform the operations of the expansion, which leave `PH = IDLE`. -/
theorem stepsAgreeWithHash : Obligations.StepsAgreeWithHash := by
  unfold Obligations.StepsAgreeWithHash
  intro s c hidle hfault hsilent hoffer hreset hquiet htake
  obtain ⟨hpending, -, -⟩ := hsilent
  have hs : s.OffersCalmly c (stepsToDone c.len + 1) :=
    ⟨hidle, hfault, hpending, hoffer, fun k hk => calm_of_take hreset hquiet hk⟩
  rw [(hs.run_expansion (Nat.lt_succ_self _) htake).steps_eq, exec_hash hidle hfault]
  refine andThen_congr fun t ht => congrArg Host.Outcome.next ?_
  rw [State.inPhase, ← ph_idle_of_runOps_expansion ht]

/-! ### The run of a command under the launch premises (R142, R144, R146) -/

/-- A byte read finds a byte exactly where it is answered and memory holds that byte. -/
theorem State.readByte_eq_some {s : State} {a : Nat} {b : Byte} : s.readByte a = some b ↔ s.canRead a ∧ Memory.read s.mem a = some b :=
  Option.ite_none_right_eq_some

/-- An input that names an address neither in a write nor in a remapping leaves its byte. -/
theorem Memory.read_after_other {m : Memory} {e : HostInput} {a : Nat} (hwrites : ∀ x ∈ e.writes.flatten, x.1 ≠ a)
    (hremap : ∀ x ∈ e.remap, x.addr ≠ a) : Memory.read (Memory.after m e) a = Memory.read m a :=
  (Memory.read_overwrites_other _ hwrites).trans (Memory.read_changes_other _ hremap)

section
variable {s : State} {c : Command} {n a : Nat} (hs : s.undisturbed c n) (ha : inWindow c a)
include hs ha

/-- No input after the first names a byte of the window. -/
theorem State.undisturbed_getD {k : Nat} (hpos : 0 < k) (hk : k < n) :
    (∀ x ∈ (s.inputs.getD k {}).writes.flatten, x.1 ≠ a) ∧ ∀ x ∈ (s.inputs.getD k {}).remap, x.addr ≠ a := by
  rw [List.getD_eq_getElem?_getD]
  cases hget : s.inputs[k]? with
  | none => exact ⟨by simp, by simp⟩
  | some e =>
    have hmem : e ∈ (s.inputs.take n).tail :=
      List.mem_of_getElem? (i := k - 1) (by rw [List.getElem?_tail, Nat.sub_add_cancel hpos, List.getElem?_take_of_lt hk, hget])
    obtain ⟨hwrites, hremap⟩ := hs e hmem
    exact ⟨fun x hx h => hwrites x hx (h ▸ ha), fun x hx h => hremap x hx (h ▸ ha)⟩

/-- A byte of the window is readable in each step as it is in the first (R144). -/
theorem State.mem_readableAt_of_undisturbed {k : Nat} (hk : k < n) : a ∈ s.readableAt k ↔ a ∈ s.readableAt 0 := by
  induction k with
  | zero => rfl
  | succ k ih =>
    obtain ⟨-, hremap⟩ := State.undisturbed_getD hs ha (Nat.succ_pos k) hk
    rw [State.readableAt, foldl_take_succ (d := {}) (fun _ => rfl), Addrs.mem_changes_other _ hremap]
    exact ih (by omega)

/-- Memory keeps a byte of the window after the first step. -/
theorem State.read_foldl_after_of_undisturbed {k : Nat} (hk : k < n) :
    Memory.read ((s.inputs.take (k + 1)).foldl Memory.after s.settle.mem) a = Memory.read s.begin.settle.mem a := by
  induction k with
  | zero =>
    rw [foldl_take_succ (d := {}) (fun _ => rfl), ← (State.RunEnv.refl s).input_eq]
    rfl
  | succ k ih =>
    obtain ⟨hwrites, hremap⟩ := State.undisturbed_getD hs ha (Nat.succ_pos k) hk
    rw [foldl_take_succ (d := {}) (fun _ => rfl), Memory.read_after_other hwrites hremap, ih (by omega)]

/-- A read of a byte of the window after the first step meets the byte that was there at the end of that step. -/
theorem State.read_memAt_of_undisturbed {k : Nat} (hpos : 0 < k) (hk : k < n) (j : Nat) :
    Memory.read (s.memAt k j) a = Memory.read s.begin.settle.mem a := by
  obtain ⟨hwrites, hremap⟩ := State.undisturbed_getD hs ha hpos hk
  have hlanded : ∀ x ∈ ((s.inputs.getD k {}).writes.take (j + 1)).flatten, x.1 ≠ a := fun x hx => by
    obtain ⟨l, hl, hxl⟩ := List.mem_flatten.mp hx
    exact hwrites x (List.mem_flatten.mpr ⟨l, List.mem_of_mem_take hl, hxl⟩)
  have hbefore := State.read_foldl_after_of_undisturbed hs ha (k := k - 1) (by omega)
  rw [Nat.sub_add_cancel hpos] at hbefore
  rw [State.memAt, Memory.read_overwrites_other _ hlanded, Memory.read_changes_other _ hremap, hbefore]

end

/-- The window bytes are read in the steps after the acceptance, before `PF` (R71). -/
theorem readStep_bounds {len : Word32} {p : Nat} (hp : p < len.toNat) :
    0 < readStep len.toNat p ∧ readStep len.toNat p < stepsToDone len := by
  unfold readStep stepsToDone
  split_ifs <;> omega

/-- Under the launch premises every read of the run finds the byte of `M` (P1, P2, P5 of R142). -/
theorem State.meets_of_launch {s : State} {c : Command} {M : Nat → Byte} (h : s.begin.settle.launch M c)
    (hs : s.undisturbed c (stepsToDone c.len)) : s.meets c M := by
  obtain ⟨-, -, -, -, hholds⟩ := h
  intro p hp
  have hwindow : inWindow c (c.base + p) := ⟨by omega, by omega⟩
  obtain ⟨hpos, hlt⟩ := readStep_bounds hp
  have hread := hholds p hp
  rw [State.landed_of_nil rfl, State.readByte_eq_some] at hread
  obtain ⟨⟨⟨haw, -⟩, hreadable⟩, hbyte⟩ := hread
  have hfirst : c.base + p ∈ s.readableAt 0 := (State.RunEnv.refl s).begin_readable ▸ hreadable
  refine ⟨⟨haw, hfirst, (State.mem_readableAt_of_undisturbed hs hwindow hlt).mpr hfirst⟩, ?_⟩
  rw [State.read_memAt_of_undisturbed hs hwindow hpos hlt]
  exact hbyte

/-! ### The phases of the run, and what it delivers before `DONE` -/

/-- A row before `DONE` delivers nothing. -/
theorem RowStep.delivers_nothing {e : HostInput} {s u : State} (h : RowStep e s u) (hph : s.ph ≠ .done) :
    u.digest = s.digest ∧ u.responses = s.responses := by
  cases h with
  | ret hdone => exact absurd hdone hph
  | _ => exact ⟨rfl, rfl⟩

/-- A run that has delivered nothing after `k` steps uses up `k` inputs and leaves `DIGEST` and the responses (R73). -/
theorem steps_deliver_nothing {s t : State} {n k : Nat} (hreset : s.noReset n) (hk : k ≤ n)
    (hbefore : ∀ j, j < k → ∃ u, steps j s = .next u ∧ u.ph ≠ .done) (h : steps k s = .next t) :
    t.inputs = s.inputs.drop k ∧ t.digest = s.digest ∧ t.responses = s.responses := by
  induction k generalizing t with
  | zero => cases h; exact ⟨rfl, rfl, rfl⟩
  | succ k ih =>
    obtain ⟨u, hu, hph⟩ := hbefore k (Nat.lt_succ_self k)
    obtain ⟨hinputs, hdigest, hresponses⟩ := ih (by omega) (fun j hj => hbefore j (by omega)) hu
    rw [steps_succ, hu] at h
    obtain ⟨v, rfl, ⟨hr, -⟩ | ⟨-, -, hrow⟩⟩ := step_eq_next h
    · rw [State.input_of_drop hinputs, State.noReset_getD hreset hk] at hr
      cases hr
    · obtain ⟨hd, hresp⟩ := hrow.delivers_nothing hph
      exact ⟨hrow.inputs_eq.trans ((congrArg _ hinputs).trans List.tail_drop), hd.trans hdigest, hresp.trans hresponses⟩

theorem State.Reaches.steps_ne_done {s : State} {c : Command} {k pos : Nat} {ph : Phase} {acc : Word64} (h : s.Reaches c k ph pos acc)
    (hph : ph ≠ .done) : ∃ u, steps k s = .next u ∧ u.ph ≠ .done := by
  obtain ⟨u, hu, -, rfl, -, -⟩ := h
  exact ⟨u, hu, hph⟩

section
variable {s : State} {c : Command} {M : Nat → Byte} (hidle : s.ph = .idle) (hfault : s.fault = none) (hoffer : s.input.offer = some c)
  (hreset : s.noReset (stepsToDone c.len)) (hM : s.meets c M)
include hidle hfault hoffer hreset hM

/-- The stages of the run, phase by phase. -/
theorem State.reaches_stages :
    (∀ g, g ≤ (lenG c.len).toNat → s.Reaches c (g + 1) .p8 (8 * g) (accGroups s.params.byteOrder M c.base g)) ∧
    s.Reaches c ((lenG c.len).toNat + 2) .p4 (posOnEntry c.len .p4) (accGroups s.params.byteOrder M c.base (lenG c.len).toNat) ∧
    s.Reaches c ((lenG c.len).toNat + 3) .p2 (posOnEntry c.len .p2) (accWord s.params.byteOrder M c.base c.len) ∧
    s.Reaches c ((lenG c.len).toNat + 4) .p1 (posOnEntry c.len .p1) (accHalf s.params.byteOrder M c.base c.len) ∧
    s.Reaches c ((lenG c.len).toNat + 5) .pf c.len.toNat (hashAcc s.params.byteOrder M c.base c.len) := by
  have hfirst : s.input.reset = false := by
    rw [(State.RunEnv.refl s).input_eq]
    exact State.noReset_getD hreset (by rw [stepsToDone_eq]; omega)
  have hp8 {g : Nat} := (State.reaches_p8 hidle hfault hoffer hfirst).groups hreset hM (g := g)
  have hp4 := (hp8 (Nat.le_refl _)).p4 hreset
  have hp2 := hp4.p2 hreset hM
  have hp1 := hp2.p1 hreset hM
  exact ⟨fun g => hp8, hp4, hp2, hp1, hp1.pf hreset hM⟩

/-- Before `G + 8` steps the run has not come to `DONE`. -/
theorem State.steps_before_done {k : Nat} (hk : k < stepsToDone c.len) : ∃ u, steps k s = .next u ∧ u.ph ≠ .done := by
  obtain ⟨hp8, hp4, hp2, hp1, hpf⟩ := State.reaches_stages hidle hfault hoffer hreset hM
  have hpn : s.Reaches c ((lenG c.len).toNat + 6) .pn _ _ := hpf.row hreset (by rw [stepsToDone_eq]; omega) (by decide) (by decide)
    fun t _ hph hpos hacc => ⟨_, .fold hph, rfl, hpos, hacc⟩
  have hpb : s.Reaches c ((lenG c.len).toNat + 7) .pb _ _ := hpn.row hreset (by rw [stepsToDone_eq]; omega) (by decide) (by decide)
    fun t _ hph hpos hacc => ⟨_, .norm hph, rfl, hpos, hacc⟩
  rw [stepsToDone_eq] at hk
  have hcases : k = 0 ∨ (k ≠ 0 ∧ k - 1 ≤ (lenG c.len).toNat) ∨ k = (lenG c.len).toNat + 2 ∨ k = (lenG c.len).toNat + 3 ∨
      k = (lenG c.len).toNat + 4 ∨ k = (lenG c.len).toNat + 5 ∨ k = (lenG c.len).toNat + 6 ∨ k = (lenG c.len).toNat + 7 := by omega
  obtain rfl | ⟨hpos, hg⟩ | rfl | rfl | rfl | rfl | rfl | rfl := hcases
  · exact ⟨s, rfl, by simp [hidle]⟩
  · exact Nat.sub_one_add_one hpos ▸ (hp8 _ hg).steps_ne_done (by decide)
  · exact hp4.steps_ne_done (by decide)
  · exact hp2.steps_ne_done (by decide)
  · exact hp1.steps_ne_done (by decide)
  · exact hpf.steps_ne_done (by decide)
  · exact hpn.steps_ne_done (by decide)
  · exact hpb.steps_ne_done (by decide)

end

/-- Settles O35: the reads of the run find the window's bytes (`State.meets_of_launch`), so it goes through its stages to `DONE`, and what
`State.Busy` says there is R37 and R92. -/
theorem runReachesDone : Obligations.RunReachesDone := by
  unfold Obligations.RunReachesDone
  intro s c M hoffer hlaunch hreset hundisturbed
  have hM := State.meets_of_launch hlaunch hundisturbed
  obtain ⟨hidle, hfault, hwf, -, -⟩ := hlaunch
  have hbefore {k : Nat} := State.steps_before_done (s := s) hidle hfault hoffer hreset hM (k := k)
  obtain ⟨-, -, -, -, hpf⟩ := State.reaches_stages (s := s) hidle hfault hoffer hreset hM
  obtain ⟨t, hsteps, hrun, hph, hpos, hacc⟩ := hpf.done hreset
  obtain ⟨-, hdigest, hresponses⟩ := steps_deliver_nothing hreset (Nat.le_refl _) (fun k => hbefore) hsteps
  have hbase : t.base = c.base := hrun.base_eq.trans (Command.base_mod_of_wf hwf)
  refine ⟨⟨t, hsteps, hph, ?_, BitVec.eq_of_toNat_eq hpos, ?_, hdigest, hresponses⟩, fun k => hbefore⟩
  · rw [hrun.busy.res_eq hph, hrun.seed_eq, hrun.env.params_eq, hacc]
    rfl
  · rw [hrun.busy.reads_eq, hbase, hpos]

end Sys2Proof.Machine

/-! ## The accumulate micro-operations and the lanes of `ACC` (41_accumulate.md)

A load is XORed into the lanes that `loadLane` gives its bytes (`lane_shiftLeft_loadWord`). The frames of `XOR4`, `XOR2` and `XOR1` follow from
that, and so does the closed form of `ACC`: along the phases of R71, `LanesPlaced` says what the bytes accumulated so far have left. -/

namespace Sys2Proof.Machine

/-! ### The lanes a load is XORed into (R33) -/

/-- The lane of byte `k` of a load of `n` bytes (R33). -/
def loadLane (bo : ByteOrder) (n k : Nat) : Nat :=
  match bo with
  | .le => k
  | .be => n - 1 - k

theorem loadWord_eq_xorOver (bo : ByteOrder) (M : Nat → Byte) (a : Nat) {n : Nat} (hn : n ≤ 8) :
    loadWord bo M a n = xorOver (fun k => (M (a + k)).setWidth 64 <<< (8 * loadLane bo n k)) n := by
  rw [← assemble_eq_loadWord bo M a hn]
  cases bo with
  | le => exact assemble_le_eq_xorOver (fun k => M (a + k)) n
  | be => exact assemble_be_eq_xorOver (fun k => M (a + k)) n

/-- A zero-extended byte shifted up by `q` lanes stands in lane `q`, bit for bit, and nowhere else. -/
theorem lane_shiftLeft_byte (b : Byte) {q j : Nat} (hj : j < 8) :
    lane (b.setWidth 64 <<< (8 * q)) j = if q = j then b else 0 := by
  split
  case isTrue h =>
    subst h
    apply BitVec.eq_of_getLsbD_eq
    intro i hi
    have h64 : 8 * q + i < 64 := by omega
    rw [getLsbD_lane, BitVec.getLsbD_shiftLeft, BitVec.getLsbD_setWidth]
    simp [hi, h64, show i < 64 by omega]
  case isFalse h =>
    have hb : (b.setWidth 64).toNat < 2 ^ (8 * 1) := by
      rw [BitVec.toNat_setWidth]
      exact Nat.lt_of_le_of_lt (Nat.mod_le ..) b.isLt
    exact lane_shiftLeft_eq_zero hb (by omega)

/-- A load shifted up by `q` lanes, lane by lane: each byte in the one lane that R33 and the shift give it. -/
theorem lane_shiftLeft_loadWord (bo : ByteOrder) (M : Nat → Byte) (a q : Nat) {n j : Nat} (hn : n ≤ 8) (hj : j < 8) :
    lane (loadWord bo M a n <<< (8 * q)) j = xorOver (fun k => if q + loadLane bo n k = j then M (a + k) else 0) n := by
  have hzero : lane ((0 : Word64) <<< (8 * q)) j = 0 := by simp [lane]
  rw [loadWord_eq_xorOver bo M a hn, xorOver_map (fun v => lane (v <<< (8 * q)) j) hzero
    fun u v => by rw [BitVec.shiftLeft_xor_distrib, lane_xor]]
  refine xorOver_congr fun k _ => ?_
  rw [← BitVec.shiftLeft_add, ← Nat.mul_add, Nat.add_comm q, lane_shiftLeft_byte _ hj]

/-- XORing a load of `n` bytes in keeps the lanes from `n` on. -/
theorem lane_xor_loadWord (bo : ByteOrder) (M : Nat → Byte) (a : Nat) {n j : Nat} (hn : n ≤ 8) (hj : n ≤ j) (u : Word64) :
    lane (u ^^^ loadWord bo M a n) j = lane u j := by
  rw [← assemble_eq_loadWord bo M a hn]
  exact lane_xor_of_zero (lane_assemble_eq_zero bo (by simpa using hn) (by simpa using hj))

/-- XORing a byte into lane `q` changes that lane only (R83). -/
theorem lane_xor_shiftLeft_byte (bo : ByteOrder) (M : Nat → Byte) (a q : Nat) {j : Nat} (hj : j < 8) (u : Word64) :
    lane (u ^^^ loadWord bo M a 1 <<< (8 * q)) j = if j = q then lane u j ^^^ M a else lane u j := by
  have hlane : loadLane bo 1 0 = 0 := by cases bo <;> rfl
  rw [lane_xor, lane_shiftLeft_loadWord bo M a q (by omega) hj, xorOver, xorOver, hlane]
  simp only [Nat.add_zero, eq_comm (a := q)]
  split <;> simp

/-! ### What each of them leaves when its bytes are answered (R80 to R83) -/

section
variable {s : State} {M : Nat → Byte}

theorem exec_xor8_of_holds (h : s.holds M s.ea 8) :
    exec .xor8 s = .next (accumulated 8 (loadWord s.params.byteOrder M s.ea 8) s) :=
  exec_xor8_eq_next.mpr ⟨_, State.memRead_of_holds h, by rw [assemble_eq_loadWord _ _ _ (by omega)]⟩

theorem exec_xor4_of_holds (h : s.holds M s.ea 4) :
    exec .xor4 s = .next (accumulated 4 (loadWord s.params.byteOrder M s.ea 4) s) :=
  exec_xor4_eq_next.mpr ⟨_, State.memRead_of_holds h, by rw [assemble_eq_loadWord _ _ _ (by omega)]⟩

theorem exec_xor2_of_holds (h : s.holds M s.ea 2) :
    exec .xor2 s = .next { accumulated 2 (loadWord s.params.byteOrder M s.ea 2) s with boff := boffArmed } :=
  exec_xor2_eq_next.mpr ⟨_, State.memRead_of_holds h, by rw [assemble_eq_loadWord _ _ _ (by omega)]⟩

theorem exec_xor1_of_holds (h : s.holds M s.ea 1) :
    exec .xor1 s = .next (accumulated 1 (loadWord s.params.byteOrder M s.ea 1 <<< s.boff.toNat) s) :=
  exec_xor1_eq_next.mpr ⟨_, State.memRead_of_holds h, by rw [assemble_eq_loadWord _ _ _ (by omega)]⟩

end

/-- Settles O10, by the state that `XOR8` leaves. -/
theorem xor8Completes : Obligations.Xor8Completes := fun _ _ h =>
  ⟨_, exec_xor8_of_holds h, rfl, rfl, rfl, rfl, fun _ ha => State.read_landed_other ha 8⟩

/-- Settles O11: `ACC[63:32]` is lanes 4 to 7, which a load of 4 bytes does not reach. -/
theorem xor4Completes : Obligations.Xor4Completes := fun _ _ h =>
  ⟨_, exec_xor4_of_holds h, rfl,
    extractLsb'_eq_of_lanes (j := 4) (n := 4) fun _ hk _ => lane_xor_loadWord _ _ _ (by omega) hk _,
    rfl, rfl, rfl, fun _ ha => State.read_landed_other ha 4⟩

/-- Settles O12: the bits of `ACC` above 15 are lanes 2 to 7, which a load of 2 bytes does not reach. -/
theorem xor2Completes : Obligations.Xor2Completes := fun _ _ h =>
  ⟨_, exec_xor2_of_holds h, rfl,
    extractLsb'_eq_of_lanes (j := 2) (n := 6) fun _ hk _ => lane_xor_loadWord _ _ _ (by omega) hk _,
    rfl, rfl, rfl, rfl, fun _ ha => State.read_landed_other ha 2⟩

/-- Settles O13: a shift by `BOFF` 0 or 16 is one by 0 or 2 lanes. -/
theorem xor1Completes : Obligations.Xor1Completes := by
  unfold Obligations.Xor1Completes
  intro s M h
  have hlane {q : Nat} (hq : s.boff.toNat = 8 * q) (j : Nat) (hj : j < 8) :
      lane (s.acc ^^^ loadWord s.params.byteOrder M s.ea 1 <<< s.boff.toNat) j =
        if j = q then lane s.acc j ^^^ M s.ea else lane s.acc j :=
    hq ▸ lane_xor_shiftLeft_byte _ M s.ea q hj s.acc
  exact ⟨_, exec_xor1_of_holds h, fun h0 => hlane (q := 0) (congrArg BitVec.toNat h0),
    fun h16 => hlane (q := 2) (congrArg BitVec.toNat h16), rfl, rfl, rfl, fun _ ha => State.read_landed_other ha 1⟩

/-! ### The table of R84, phase by phase -/

section
variable (bo : ByteOrder)

/-- A byte of a full group. -/
theorem accLane_group {len g k : Nat} (hg : g < len / 8) (hk : k < 8) : accLane bo len (8 * g + k) = loadLane bo 8 k := by
  have hlt : 8 * g + k < 8 * (len / 8) := by omega
  have hmod : (8 * g + k) % 8 = k := by omega
  cases bo <;> simp [accLane, loadLane, hlt, hmod]

/-- A byte of the remainder. -/
theorem accLane_tail (len t : Nat) : accLane bo len (8 * (len / 8) + t) = (accTailLanes bo (len % 8)).getD t 0 := by
  unfold accLane
  rw [if_neg (by omega), Nat.add_sub_cancel_left]

/-- The entries of the table for the bytes of `XOR4`. -/
theorem accTailLanes_word : ∀ r, r < 8 → r / 4 % 2 = 1 → ∀ k, k < 4 → (accTailLanes bo r).getD k 0 = loadLane bo 4 k := by
  cases bo <;> decide

/-- The entries of the table for the bytes of `XOR2`. -/
theorem accTailLanes_half : ∀ r, r < 8 → r / 2 % 2 = 1 → ∀ k, k < 2 →
    (accTailLanes bo r).getD (4 * (r / 4 % 2) + k) 0 = loadLane bo 2 k := by
  cases bo <;> decide

/-- The entry of the table for the byte of `XOR1`. -/
theorem accTailLanes_byte : ∀ r, r < 8 → r % 2 = 1 →
    (accTailLanes bo r).getD (4 * (r / 4 % 2) + 2 * (r / 2 % 2)) 0 = 2 * (r / 2 % 2) := by
  cases bo <;> decide

variable {len : Word32}

theorem accLane_word (hT : lenT4 len = true) {k : Nat} (hk : k < 4) :
    accLane bo len.toNat (posOnEntry len .p4 + k) = loadLane bo 4 k := by
  have hbit := lenT4_toNat len
  rw [hT, Bool.toNat_true] at hbit
  rw [posOnEntry, lenG_toNat, accLane_tail]
  exact accTailLanes_word bo _ (by omega) (by omega) k hk

theorem accLane_half (hT : lenT2 len = true) {k : Nat} (hk : k < 2) :
    accLane bo len.toNat (posOnEntry len .p2 + k) = loadLane bo 2 k := by
  have hbit := lenT2_toNat len
  rw [hT, Bool.toNat_true] at hbit
  have hfour : len.toNat / 4 % 2 = len.toNat % 8 / 4 % 2 := by omega
  rw [posOnEntry, lenG_toNat, lenT4_toNat, Nat.add_assoc, accLane_tail, hfour]
  exact accTailLanes_half bo _ (by omega) (by omega) k hk

theorem accLane_byte (hT : lenT1 len = true) : accLane bo len.toNat (posOnEntry len .p1) = 2 * (lenT2 len).toNat := by
  have hbit := lenT1_toNat len
  rw [hT, Bool.toNat_true] at hbit
  have hfour : len.toNat / 4 % 2 = len.toNat % 8 / 4 % 2 := by omega
  have htwo : len.toNat / 2 % 2 = len.toNat % 8 / 2 % 2 := by omega
  rw [posOnEntry, lenG_toNat, lenT4_toNat, lenT2_toNat, Nat.add_assoc, accLane_tail, hfour, htwo]
  exact accTailLanes_byte bo _ (by omega) (by omega)

end

/-- `XOR1` shifts by whole lanes: none, or two after `XOR2` (R14). -/
theorem boffIn_p1_toNat (len : Word32) : (boffIn len .p1).toNat = 8 * (2 * (lenT2 len).toNat) := by
  rw [boffIn]
  cases lenT2 len <;> rfl

/-! ### The closed form of the accumulator (R85) -/

/-- Each lane of `acc` is the XOR of those of the first `n` buffer bytes that R84 places there. -/
def LanesPlaced (bo : ByteOrder) (M : Nat → Byte) (base len : Nat) (acc : Word64) (n : Nat) : Prop :=
  ∀ j, j < 8 → lane acc j = xorOver (fun p => if accLane bo len p = j then M (base + p) else 0) n

/-- Accumulating the next `m` bytes, shifted up by `q` lanes, where R84 places them in the lanes that this reaches. -/
theorem LanesPlaced.load {bo : ByteOrder} {M : Nat → Byte} {base len n m q : Nat} {acc : Word64}
    (h : LanesPlaced bo M base len acc n) (hm : m ≤ 8) (hlane : ∀ k, k < m → accLane bo len (n + k) = q + loadLane bo m k) :
    LanesPlaced bo M base len (acc ^^^ loadWord bo M (base + n) m <<< (8 * q)) (n + m) := by
  intro j hj
  rw [lane_xor, h j hj, lane_shiftLeft_loadWord bo M _ q hm hj, xorOver_add]
  congr 1
  refine xorOver_congr fun k hk => ?_
  rw [hlane k hk, Nat.add_assoc]

/-- Accumulating the next `m` bytes unshifted. -/
theorem LanesPlaced.load_unshifted {bo : ByteOrder} {M : Nat → Byte} {base len n m : Nat} {acc : Word64}
    (h : LanesPlaced bo M base len acc n) (hm : m ≤ 8) (hlane : ∀ k, k < m → accLane bo len (n + k) = loadLane bo m k) :
    LanesPlaced bo M base len (acc ^^^ loadWord bo M (base + n) m) (n + m) := by
  simpa using h.load (q := 0) hm fun k hk => by rw [hlane k hk, Nat.zero_add]

section
variable (bo : ByteOrder) (M : Nat → Byte) (base : Nat) (len : Word32)

theorem lanesPlaced_accGroups {g : Nat} (hg : g ≤ (lenG len).toNat) :
    LanesPlaced bo M base len.toNat (accGroups bo M base g) (8 * g) := by
  induction g with
  | zero => exact fun j _ => BitVec.extractLsb'_zero
  | succ g ih =>
    rw [lenG_toNat] at hg ih
    rw [accGroups_succ, Nat.mul_add_one]
    exact (ih (by omega)).load_unshifted (by omega) fun k hk => accLane_group bo hg hk

theorem lanesPlaced_accWord : LanesPlaced bo M base len.toNat (accWord bo M base len) (posOnEntry len .p2) := by
  have hgroups : LanesPlaced bo M base len.toNat _ (posOnEntry len .p4) := lanesPlaced_accGroups bo M base len (Nat.le_refl _)
  cases hT : lenT4 len with
  | true => simpa [accWord, posOnEntry, hT] using hgroups.load_unshifted (m := 4) (by omega) fun k hk => accLane_word bo hT hk
  | false => simpa [accWord, posOnEntry, hT] using hgroups

theorem lanesPlaced_accHalf : LanesPlaced bo M base len.toNat (accHalf bo M base len) (posOnEntry len .p1) := by
  have hword := lanesPlaced_accWord bo M base len
  cases hT : lenT2 len with
  | true => simpa [accHalf, posOnEntry, hT] using hword.load_unshifted (m := 2) (by omega) fun k hk => accLane_half bo hT hk
  | false => simpa [accHalf, posOnEntry, hT] using hword

theorem lanesPlaced_hashAcc : LanesPlaced bo M base len.toNat (hashAcc bo M base len) len.toNat := by
  have hhalf := lanesPlaced_accHalf bo M base len
  have hend := posOnEntry_p1_add len
  rw [← accByte_eq_hashAcc, accByte]
  cases hT : lenT1 len with
  | true =>
    rw [hT, Bool.toNat_true] at hend
    have hlane (k : Nat) (hk : k < 1) :
        accLane bo len.toNat (posOnEntry len .p1 + k) = 2 * (lenT2 len).toNat + loadLane bo 1 k := by
      obtain rfl : k = 0 := by omega
      rw [Nat.add_zero, accLane_byte bo hT]
      cases bo <;> rfl
    rw [if_pos rfl, boffIn_p1_toNat]
    exact hend ▸ hhalf.load (by omega) hlane
  | false =>
    rw [hT, Bool.toNat_false, Nat.add_zero] at hend
    exact hend ▸ hhalf

end

/-- Settles O39: after `P1` all `LEN` bytes are placed. -/
theorem accumulatorLanes : Obligations.AccumulatorLanes := lanesPlaced_hashAcc

end Sys2Proof.Machine

/-! ## The fold, the normaliser and the blend, and the lanes of the digest (42_finalize.md)

`lane_foldHalves` and `lane_toBe32` say where the two data paths put each lane. The digest's lanes are those of `ACC` moved by both
(`digestLane_eq_be32Lane`), so `lane_hashFunction` follows from the closed form of `ACC` (`lanesPlaced_hashAcc`). -/

namespace Sys2Proof.Machine

/-! ### Lanes of 32-bit values -/

/-- A 32-bit value is its four lanes. -/
theorem eq_of_lanes {u v : Word32} (h : ∀ j, j < 4 → lane u j = lane v j) : u = v := by
  apply BitVec.eq_of_getLsbD_eq
  intro i hi
  have hlane := congrArg (·.getLsbD (i % 8)) (h (i / 8) (by omega))
  simpa only [getLsbD_lane, Nat.div_add_mod, Nat.mod_lt i (by decide : 8 > 0), decide_true, Bool.true_and] using hlane

/-- Lane `j` of the 32 bits from lane `k` on. -/
theorem lane_extractLsb' (v : Word64) (k : Nat) {j : Nat} (hj : j < 4) : lane (v.extractLsb' (8 * k) 32) j = lane v (k + j) := by
  apply BitVec.eq_of_getLsbD_eq
  intro i hi
  have hlt : 8 * j + i < 32 := by omega
  simp [lane, hi, hlt, Nat.mul_add, Nat.add_assoc]

/-- The fold lane by lane (R90). -/
theorem lane_foldHalves (v : Word64) {j : Nat} (hj : j < 4) : lane (foldHalves v) j = lane v j ^^^ lane v (j + 4) := by
  rw [foldHalves, lane_xor, lane_extractLsb' v 0 hj, lane_extractLsb' v 4 hj, Nat.zero_add, Nat.add_comm 4]

theorem foldHalves_xor (u v : Word64) : foldHalves (u ^^^ v) = foldHalves u ^^^ foldHalves v := by
  simp only [foldHalves, BitVec.extractLsb'_xor]
  ac_rfl

/-- Where the normaliser takes lane `j` from, and where it puts it (R91). -/
def be32Lane (bo : ByteOrder) (j : Nat) : Nat :=
  match bo with
  | .le => 3 - j
  | .be => j

theorem be32Lane_lt (bo : ByteOrder) {j : Nat} (hj : j < 4) : be32Lane bo j < 4 := by
  cases bo <;> (simp only [be32Lane]; omega)

theorem be32Lane_be32Lane (bo : ByteOrder) {j : Nat} (hj : j < 4) : be32Lane bo (be32Lane bo j) = j := by
  cases bo with
  | le => simp only [be32Lane]; omega
  | be => rfl

theorem be32Lane_eq_iff (bo : ByteOrder) {i j : Nat} (hi : i < 4) (hj : j < 4) : be32Lane bo i = j ↔ i = be32Lane bo j :=
  ⟨fun h => h ▸ (be32Lane_be32Lane bo hi).symm, fun h => h ▸ be32Lane_be32Lane bo hj⟩

/-- A byte appended below is lane 0, and the other lanes move up by one. -/
theorem lane_append_byte_zero {w : Nat} (v : BitVec w) (b : Byte) : lane (v ++ b) 0 = b := by
  simp [lane, BitVec.extractLsb'_append_eq_right]

theorem lane_append_byte_succ {w : Nat} (v : BitVec w) (b : Byte) (j : Nat) : lane (v ++ b) (j + 1) = lane v j := by
  apply BitVec.eq_of_getLsbD_eq
  intro i hi
  have hge : ¬ 8 * (j + 1) + i < 8 := by omega
  have hsub : 8 * (j + 1) + i - 8 = 8 * j + i := by omega
  rw [getLsbD_lane, getLsbD_lane, BitVec.getLsbD_append, if_neg hge, hsub]

theorem lane_bswap32 (v : Word32) {j : Nat} (hj : j < 4) : lane (bswap32 v) j = lane v (3 - j) := by
  unfold bswap32
  obtain rfl | rfl | rfl | rfl : j = 0 ∨ j = 1 ∨ j = 2 ∨ j = 3 := by omega
  · exact lane_append_byte_zero ..
  · exact (lane_append_byte_succ ..).trans (lane_append_byte_zero ..)
  · exact (lane_append_byte_succ ..).trans ((lane_append_byte_succ ..).trans (lane_append_byte_zero ..))
  · exact (lane_append_byte_succ ..).trans ((lane_append_byte_succ ..).trans
      ((lane_append_byte_succ ..).trans BitVec.extractLsb'_eq_self))

/-- The normaliser lane by lane (R91). -/
theorem lane_toBe32 (bo : ByteOrder) (v : Word32) {j : Nat} (hj : j < 4) : lane (toBe32 bo v) j = lane v (be32Lane bo j) := by
  cases bo with
  | le => exact lane_bswap32 v hj
  | be => rfl

theorem toBe32_toBe32 (bo : ByteOrder) (v : Word32) : toBe32 bo (toBe32 bo v) = v :=
  eq_of_lanes fun _ hj => by rw [lane_toBe32 bo _ hj, lane_toBe32 bo _ (be32Lane_lt bo hj), be32Lane_be32Lane bo hj]

theorem toBe32_xor (bo : ByteOrder) (u v : Word32) : toBe32 bo (u ^^^ v) = toBe32 bo u ^^^ toBe32 bo v :=
  eq_of_lanes fun _ hj => by simp only [lane_xor, lane_toBe32 bo _ hj]

/-! ### The micro-operations (R90 to R92) -/

/-- Settles O14, by the fold lane by lane. -/
theorem foldCompletes : Obligations.FoldCompletes :=
  ⟨fun s => ⟨{ s with fld := foldHalves s.acc }, rfl, fun _ hj => lane_foldHalves s.acc hj, rfl, fun _ => rfl⟩, foldHalves_xor⟩

/-- Settles O15, by the normaliser lane by lane. -/
theorem normCompletes : Obligations.NormCompletes := by
  refine ⟨fun s => ⟨{ s with nrm := toBe32 s.params.byteOrder s.fld }, rfl, fun hle j hj => ?_, fun hbe => ?_, rfl, fun _ => rfl⟩,
    fun bo u v => ⟨toBe32_toBe32 bo u, toBe32_xor bo u v⟩⟩
  · rw [hle, lane_toBe32 .le s.fld hj, be32Lane]
  · rw [hbe, toBe32]

/-- Settles O16: in phase `PB` the invariant says that `RES` is the seed and `NRM` the normalised fold. -/
theorem blendCompletes : Obligations.BlendCompletes := by
  refine fun s => ⟨{ s with res := s.res ^^^ s.nrm }, rfl, rfl, fun hinv hph => ?_, rfl, fun _ => rfl⟩
  have hbusy := hinv.busy (by simp [hph])
  rw [hbusy.res_seed (by simp [hph]), hbusy.nrm_eq (.inl hph)]

/-! ### The table of R93 -/

/-- The table of R93 is that of R84, its lanes folded and normalised. -/
theorem digestTailLanes_eq_be32Lane (bo : ByteOrder) : ∀ r, r < 8 → ∀ t, t < r →
    (digestTailLanes bo r).getD t 0 = be32Lane bo ((accTailLanes bo r).getD t 0 % 4) := by
  cases bo <;> decide

theorem accTailLanes_lt (bo : ByteOrder) : ∀ r, r < 8 → ∀ t, t < r → (accTailLanes bo r).getD t 0 < 8 := by
  cases bo <;> decide

/-- The compact form of a remainder that stands alone. -/
theorem digestTailLanes_eq_compact (bo : ByteOrder) : ∀ r, r < 8 → ∀ t, t < r →
    (digestTailLanes bo r).getD t 0 = digestLaneCompact bo r t := by
  cases bo <;> decide

section
variable (bo : ByteOrder) {len p : Nat}

theorem digestLane_tail (len t : Nat) : digestLane bo len (8 * (len / 8) + t) = (digestTailLanes bo (len % 8)).getD t 0 := by
  rw [digestLane, if_neg (by omega), Nat.add_sub_cancel_left]

/-- The compact form depends on the remainder only. -/
theorem digestLaneCompact_tail (len t : Nat) :
    digestLaneCompact bo len (8 * (len / 8) + t) = digestLaneCompact bo (len % 8) t := by
  have hquot : 4 * (len / 4) = 8 * (len / 8) + 4 * (len % 8 / 4) := by omega
  have hmod : len % 8 % 4 = len % 4 := by omega
  have hfour : (8 * (len / 8) + t) % 4 = t % 4 := by omega
  simp only [digestLaneCompact, hquot, hmod, hfour, Nat.add_lt_add_iff_left, Nat.add_sub_add_left]

/-- A byte of the window is one of a full group or one of the remainder. -/
theorem group_or_tail (hp : p < len) : p < 8 * (len / 8) ∨ ∃ t, t < len % 8 ∧ p = 8 * (len / 8) + t := by
  by_cases h : p < 8 * (len / 8)
  · exact .inl h
  · exact .inr ⟨p - 8 * (len / 8), by omega, by omega⟩

theorem accLane_lt (hp : p < len) : accLane bo len p < 8 := by
  obtain hgroup | ⟨t, ht, rfl⟩ := group_or_tail hp
  · unfold accLane
    rw [if_pos hgroup]
    cases bo <;> dsimp only <;> omega
  · rw [accLane_tail]
    exact accTailLanes_lt bo _ (by omega) t ht

/-- The digest lane is the `ACC` lane, folded and normalised (R93 from R84, R90 and R91). -/
theorem digestLane_eq_be32Lane (hp : p < len) : digestLane bo len p = be32Lane bo (accLane bo len p % 4) := by
  obtain hgroup | ⟨t, ht, rfl⟩ := group_or_tail hp
  · unfold digestLane accLane
    rw [if_pos hgroup, if_pos hgroup]
    cases bo <;> dsimp only [be32Lane] <;> omega
  · rw [digestLane_tail, accLane_tail]
    exact digestTailLanes_eq_be32Lane bo _ (by omega) t ht

theorem digestLane_eq_compact (hp : p < len) : digestLane bo len p = digestLaneCompact bo len p := by
  obtain hgroup | ⟨t, ht, rfl⟩ := group_or_tail hp
  · unfold digestLane digestLaneCompact
    rw [if_pos hgroup, if_pos (by omega)]
  · rw [digestLane_tail, digestLaneCompact_tail]
    exact digestTailLanes_eq_compact bo _ (by omega) t ht

/-- For `LE` one formula holds for the whole window (R94). -/
theorem digestLane_le (hp : p < len) : digestLane .le len p = 3 - p % 4 := by
  rw [digestLane_eq_compact .le hp, digestLaneCompact]
  split <;> omega

/-- The bytes of digest lane `j` are those of the two `ACC` lanes that the fold XORs into it. -/
theorem ite_digestLane_eq (hp : p < len) {j : Nat} (hj : j < 4) (b : Byte) :
    (if digestLane bo len p = j then b else 0) =
      (if accLane bo len p = be32Lane bo j then b else 0) ^^^ (if accLane bo len p = be32Lane bo j + 4 then b else 0) := by
  have hlane : digestLane bo len p = j ↔ accLane bo len p % 4 = be32Lane bo j := by
    rw [digestLane_eq_be32Lane bo hp, be32Lane_eq_iff bo (Nat.mod_lt _ (by decide)) hj]
  have hacc := accLane_lt bo hp
  have hbe := be32Lane_lt bo hj
  rw [if_congr hlane rfl rfl]
  obtain hlow | hhigh | hnone : accLane bo len p = be32Lane bo j ∨ accLane bo len p = be32Lane bo j + 4 ∨
      accLane bo len p % 4 ≠ be32Lane bo j := by omega
  · simp [hlow, Nat.mod_eq_of_lt hbe]
  · simp [hhigh, Nat.mod_eq_of_lt hbe]
  · rw [if_neg hnone, if_neg (by omega), if_neg (by omega)]
    rfl

end

/-! ### The closed forms of the digest (R93, R94) -/

theorem lane_hashFunction (bo : ByteOrder) (M : Nat → Byte) (base : Nat) (len seed : Word32) {j : Nat} (hj : j < 4) :
    lane (hashFunction bo M base len seed) j =
      lane seed j ^^^ xorOver (fun p => if digestLane bo len.toNat p = j then M (base + p) else 0) len.toNat := by
  have hbe := be32Lane_lt bo hj
  have hplaced := lanesPlaced_hashAcc bo M base len
  rw [hashFunction, lane_xor, lane_toBe32 bo _ hj, lane_foldHalves _ hbe, hplaced _ (by omega), hplaced _ (by omega), ← xorOver_xor]
  congr 1
  exact xorOver_congr fun p hp => (ite_digestLane_eq bo hp hj _).symm

/-- Settles O40, by the closed form of the accumulator, folded and normalised. -/
theorem digestLanes : Obligations.DigestLanes :=
  ⟨fun bo M base len seed _ hj => lane_hashFunction bo M base len seed hj, fun bo _ _ hp => digestLane_eq_compact bo hp⟩

/-- A zero-extended byte shifted up by `q` lanes stands in lane `q` of a 32-bit word only. -/
theorem lane_shiftLeft_byte_word (b : Byte) {q j : Nat} (hj : j < 4) :
    lane (b.setWidth 32 <<< (8 * q)) j = if q = j then b else 0 := by
  rw [← lane_shiftLeft_byte b (show j < 8 by omega)]
  apply BitVec.eq_of_getLsbD_eq
  intro i hi
  have hlt : 8 * j + i < 32 := by omega
  simp [lane, hi, hlt, show 8 * j + i < 64 by omega]

/-- Settles O41, lane by lane: for `LE` the byte at `p` stands in lane `3 - p % 4`. -/
theorem littleEndianClosedForm : Obligations.LittleEndianClosedForm := by
  refine fun M base len seed => eq_of_lanes fun j hj => ?_
  rw [lane_hashFunction .le M base len seed hj, lane_xor,
    xorOver_map (fun v : Word32 => lane v j) BitVec.extractLsb'_zero fun u v => lane_xor u v j]
  congr 1
  refine xorOver_congr fun p hp => ?_
  rw [digestLane_le hp, lane_shiftLeft_byte_word _ hj]

end Sys2Proof.Machine

/-! ## Laws of the digest (43_properties.md)

The digest is the seed XORed with one contribution per window byte, a byte in the digest lane of its offset (`hashFunction_eq_windowXor`). The
laws of R101 to R107 are laws of that XOR, `windowXor`: it depends on the window's bytes only, is XOR-linear in them, and splits at multiples
of 4. `HASH` delivers this digest whenever it completes, because then every byte of its window was read (`State.launch_of_exec_hash`). -/

namespace Sys2Proof.Machine

/-! ### The contributions of the window's bytes -/

/-- The XOR over a range as a fold of a list. -/
theorem xorOver_eq_foldl {w : Nat} (f : Nat → BitVec w) (n : Nat) :
    xorOver f n = (List.ofFn fun k : Fin n => f k).foldl (· ^^^ ·) 0 := by
  induction n with
  | zero => rfl
  | succ n ih => rw [xorOver, ih, List.ofFn_succ_last, List.foldl_concat]; rfl

/-- The order of the terms does not matter. -/
theorem xorOver_perm {w n : Nat} {f g : Nat → BitVec w} (σ : Equiv.Perm (Fin n)) (h : ∀ k : Fin n, g k = f (σ k)) :
    xorOver g n = xorOver f n := by
  simp only [xorOver_eq_foldl, h]
  exact (σ.ofFn_comp_perm fun k => f k).foldl_eq 0

/-- Where two terms change by the same value and no other term does, the XOR stays. -/
theorem xorOver_eq_of_same_change {w n i j : Nat} {f g : Nat → BitVec w} (hi : i < n) (hj : j < n) (hij : i ≠ j)
    (hchange : g i ^^^ f i = g j ^^^ f j) (h : ∀ k, k < n → k ≠ i → k ≠ j → g k = f k) : xorOver g n = xorOver f n := by
  have hterm (k : Nat) (hk : k < n) :
      g k ^^^ f k = (if k = i then g i ^^^ f i else 0) ^^^ (if k = j then g i ^^^ f i else 0) := by
    by_cases hki : k = i
    · simp [hki, hij]
    · by_cases hkj : k = j
      · simp [hkj, hij.symm, hchange]
      · simp [hki, hkj, h k hk hki hkj]
  apply BitVec.xor_eq_zero_iff.mp
  rw [← xorOver_xor, xorOver_congr hterm, xorOver_xor, xorOver_single _ hi, xorOver_single _ hj, BitVec.xor_self]

/-- XORing a value in twice changes nothing. -/
theorem xor_xor_same {w : Nat} (u v : BitVec w) : u ^^^ v ^^^ v = u := by
  rw [BitVec.xor_assoc, BitVec.xor_self, BitVec.xor_zero]

/-- A byte in lane `q` of a 32-bit word. -/
def byteInLane (q : Nat) (b : Byte) : Word32 := b.setWidth 32 <<< (8 * q)

theorem lane_byteInLane (q : Nat) (b : Byte) {j : Nat} (hj : j < 4) : lane (byteInLane q b) j = if q = j then b else 0 :=
  lane_shiftLeft_byte_word b hj

theorem byteInLane_zero (q : Nat) : byteInLane q 0 = 0 := by simp [byteInLane]

theorem byteInLane_xor (q : Nat) (b c : Byte) : byteInLane q (b ^^^ c) = byteInLane q b ^^^ byteInLane q c := by
  rw [byteInLane, BitVec.setWidth_xor, BitVec.shiftLeft_xor_distrib]
  rfl

/-- One bit of the byte is one bit of the word. -/
theorem byteInLane_bit (q : Nat) {i : Nat} (hi : i < 8) :
    byteInLane q ((1 <<< i : Nat) : Byte) = ((1 <<< (8 * q + i) : Nat) : Word32) := by
  have hwide : ∀ i, i < 8 → ((1 <<< i : Nat) : Byte).setWidth 32 = ((1 <<< i : Nat) : Word32) := by decide
  rw [byteInLane, hwide i hi]
  apply BitVec.eq_of_toNat_eq
  simp [Nat.shiftLeft_eq, Nat.pow_add, Nat.mul_comm]

/-- What the `n` bytes from `base` up contribute to the digest of a window of `n` bytes (R93). -/
def windowXor (bo : ByteOrder) (M : Nat → Byte) (base n : Nat) : Word32 :=
  xorOver (fun p => byteInLane (digestLane bo n p) (M (base + p))) n

/-- The closed form of the digest for both byte orders (R93). -/
theorem hashFunction_eq_windowXor (bo : ByteOrder) (M : Nat → Byte) (base : Nat) (len seed : Word32) :
    hashFunction bo M base len seed = seed ^^^ windowXor bo M base len.toNat := by
  refine eq_of_lanes fun j hj => ?_
  rw [lane_hashFunction bo M base len seed hj, lane_xor, windowXor,
    xorOver_map (fun v : Word32 => lane v j) BitVec.extractLsb'_zero fun u v => lane_xor u v j]
  exact congrArg _ (xorOver_congr fun p _ => (lane_byteInLane _ _ hj).symm)

section
variable (bo : ByteOrder) {M N : Nat → Byte} {base b c n : Nat}

/-- The digest depends on the window's bytes only, not on where the window is (R100). -/
theorem windowXor_congr (h : ∀ p, p < n → M (b + p) = N (c + p)) : windowXor bo M b n = windowXor bo N c n :=
  xorOver_congr fun p hp => by rw [h p hp]

theorem windowXor_of_zero (h : ∀ p, p < n → M (base + p) = 0) : windowXor bo M base n = 0 :=
  (xorOver_congr fun p hp => by rw [h p hp, byteInLane_zero]).trans xorOver_zero

theorem windowXor_xor (M N : Nat → Byte) (base n : Nat) :
    windowXor bo (fun a => M a ^^^ N a) base n = windowXor bo M base n ^^^ windowXor bo N base n := by
  simp only [windowXor, byteInLane_xor, xorOver_xor]

/-- A memory with the byte `v` at `x` and 0 elsewhere. -/
def singleByte (x : Nat) (v : Byte) (a : Nat) : Byte := if a = x then v else 0

theorem windowXor_singleByte (base : Nat) (v : Byte) {p : Nat} (hp : p < n) :
    windowXor bo (singleByte (base + p) v) base n = byteInLane (digestLane bo n p) v := by
  rw [windowXor, ← xorOver_single (byteInLane (digestLane bo n p) v) hp]
  refine xorOver_congr fun k _ => ?_
  by_cases hk : k = p
  · rw [if_pos hk, hk, singleByte, if_pos rfl]
  · rw [if_neg hk, singleByte, if_neg (by omega), byteInLane_zero]

/-! ### Splitting at multiples of 4 -/

/-- The digest lanes after a multiple of 4 bytes are those of the rest alone (R93). -/
theorem digestLane_add {k p : Nat} (hk : k % 4 = 0) (hp : p < n) : digestLane bo (k + n) (k + p) = digestLane bo n p := by
  have hquot : 4 * ((k + n) / 4) = k + 4 * (n / 4) := by omega
  have hlen : (k + n) % 4 = n % 4 := by omega
  have hlane : (k + p) % 4 = p % 4 := by omega
  rw [digestLane_eq_compact bo (by omega), digestLane_eq_compact bo hp]
  simp only [digestLaneCompact, hquot, hlen, hlane, Nat.add_lt_add_iff_left, Nat.add_sub_add_left]

/-- The digest lanes of the aligned words do not depend on the byte order or the length. -/
theorem digestLane_aligned {p : Nat} (hp : p < 4 * (n / 4)) : digestLane bo n p = 3 - p % 4 := by
  rw [digestLane_eq_compact bo (by omega)]
  exact if_pos hp

theorem windowXor_add {k : Nat} (hk : k % 4 = 0) (M : Nat → Byte) (base n : Nat) :
    windowXor bo M base (k + n) = windowXor bo M base k ^^^ windowXor bo M (base + k) n := by
  rw [windowXor, xorOver_add]
  congr 1
  · refine xorOver_congr fun p hp => ?_
    rw [digestLane_aligned bo (by omega), digestLane_aligned bo (by omega)]
  · refine xorOver_congr fun p hp => ?_
    rw [digestLane_add bo hk hp, Nat.add_assoc]

/-- The aligned words one by one. -/
theorem windowXor_words (M : Nat → Byte) (base m : Nat) :
    windowXor bo M base (4 * m) = xorOver (fun i => windowXor bo M (base + 4 * i) 4) m := by
  induction m with
  | zero => rfl
  | succ m ih => rw [Nat.mul_add_one, windowXor_add bo (Nat.mul_mod_right 4 m), ih, xorOver]

/-- The aligned words and the rest. -/
theorem windowXor_eq_words_xor_rest (M : Nat → Byte) (base n : Nat) :
    windowXor bo M base n =
      xorOver (fun i => windowXor bo M (base + 4 * i) 4) (n / 4) ^^^ windowXor bo M (base + 4 * (n / 4)) (n % 4) := by
  rw [← windowXor_words, ← windowXor_add bo (Nat.mul_mod_right 4 _), Nat.div_add_mod]

end

/-! ### Seed and data (R101, R103) -/

/-- Settles O43: both the contribution of the data and the blend of the seed are XOR-linear. -/
theorem dataLinearity : Obligations.DataLinearity := by
  unfold Obligations.DataLinearity
  intro bo M₁ M₂ base len d₁ d₂
  simp only [hashFunction_eq_windowXor]
  constructor
  · rw [windowXor_xor]
    ac_rfl
  · rw [windowXor_of_zero bo fun _ _ => rfl]
    rfl

/-! ### Splitting (R104) -/

/-- Seed chaining: the digest of the first part is the seed of the second (R104). -/
theorem hashFunction_split (bo : ByteOrder) (M : Nat → Byte) (base : Nat) {len k : Word32} (hk : k.toNat % 4 = 0)
    (hle : k.toNat ≤ len.toNat) (d : Word32) :
    hashFunction bo M base len d = hashFunction bo M (base + k.toNat) (len - k) (hashFunction bo M base k d) := by
  have hrest : (len - k).toNat = len.toNat - k.toNat := BitVec.toNat_sub_of_le hle
  have hlen : len.toNat = k.toNat + (len.toNat - k.toNat) := by omega
  simp only [hashFunction_eq_windowXor, hrest]
  rw [hlen, windowXor_add bo hk, Nat.add_sub_cancel_left, BitVec.xor_assoc]

/-- Settles O44: the seed of a part enters by a XOR; two bytes 1, split after the first, meet in one lane. -/
theorem splittingAtMultiplesOfFour : Obligations.SplittingAtMultiplesOfFour := by
  refine ⟨fun bo M base len k d d₁ d₂ hk hle => ⟨?_, hashFunction_split bo M base hk hle d⟩, fun bo => ⟨fun _ => 1, 0, 2, 1, ?_⟩⟩
  · rw [hashFunction_split bo M base hk hle d]
    simp only [hashFunction_eq_windowXor]
    rw [← xor_xor_same (_ ^^^ _) d₁, ← xor_xor_same (_ ^^^ _) d₂]
    ac_rfl
  · cases bo <;> decide

/-! ### One bit (R105) -/

/-- Settles O45, by linearity: a flipped bit is a memory with that bit alone, XORed in. -/
theorem oneBitFlipsOneBit : Obligations.OneBitFlipsOneBit := by
  unfold Obligations.OneBitFlipsOneBit
  intro bo M base len seed p i hp hi
  have hflip : (fun a => if a = base + p then M a ^^^ (1 <<< i) else M a) = fun a => M a ^^^ singleByte (base + p) (1 <<< i) a := by
    funext a
    by_cases ha : a = base + p <;> simp [singleByte, ha]
  have hlane : digestLane bo len.toNat p < 4 := by
    rw [digestLane_eq_be32Lane bo hp]
    exact be32Lane_lt bo (Nat.mod_lt _ (by decide))
  refine ⟨?_, by omega⟩
  rw [hflip, hashFunction_eq_windowXor, windowXor_xor, windowXor_singleByte bo base _ hp, byteInLane_bit _ hi, ← BitVec.xor_assoc,
    ← hashFunction_eq_windowXor]

/-! ### The byte order (R106) -/

/-- The first byte after the aligned words stands in lane 3 for `LE` only. -/
theorem digestLane_be_rest {n : Nat} (hn : n % 4 ≠ 0) : digestLane .be n (4 * (n / 4)) ≠ 3 := by
  rw [digestLane_eq_compact .be (by omega), digestLaneCompact, if_neg (by omega), Nat.sub_self]
  obtain h | h | h : n % 4 = 1 ∨ n % 4 = 2 ∨ n % 4 = 3 := by omega
  · simp [h]
  · simp [h]
  · simp [h]

/-- Settles O46: only the rest after the aligned words has lanes that depend on the byte order. -/
theorem byteOrderMattersOffMultiplesOfFour : Obligations.ByteOrderMattersOffMultiplesOfFour := by
  refine ⟨fun M base len seed hzero => ?_, fun base len seed hlen => ⟨singleByte (base + 4 * (len.toNat / 4)) 1, fun h => ?_⟩⟩
  · have hrest (bo : ByteOrder) : windowXor bo M (base + 4 * (len.toNat / 4)) (len.toNat % 4) = 0 :=
      windowXor_of_zero bo fun p hp => by
        rw [Nat.add_assoc]
        exact hzero _ (by omega) (by omega)
    have hword (i : Nat) : windowXor .le M (base + 4 * i) 4 = windowXor .be M (base + 4 * i) 4 := rfl
    rw [hashFunction_eq_windowXor, hashFunction_eq_windowXor, windowXor_eq_words_xor_rest, windowXor_eq_words_xor_rest .be, hrest, hrest,
      funext hword]
  · have hlt : 4 * (len.toNat / 4) < len.toNat := by omega
    rw [hashFunction_eq_windowXor, hashFunction_eq_windowXor, BitVec.xor_right_inj, windowXor_singleByte _ base 1 hlt,
      windowXor_singleByte _ base 1 hlt] at h
    have hlane := congrArg (lane · 3) h
    simp only [lane_byteInLane, Nat.lt_add_one, digestLane_le hlt, Nat.mul_mod_right, Nat.sub_zero, if_true,
      if_neg (digestLane_be_rest hlen)] at hlane
    exact absurd hlane (by decide)

/-! ### Collisions (R107) -/

section
variable (bo : ByteOrder) {M M' : Nat → Byte} {base n : Nat}

theorem windowXor_permute_words (σ : Equiv.Perm (Fin (n / 4)))
    (hwords : ∀ (i : Fin (n / 4)) (k : Nat), k < 4 → M' (base + 4 * i + k) = M (base + 4 * (σ i : Nat) + k))
    (hrest : ∀ p, 4 * (n / 4) ≤ p → p < n → M' (base + p) = M (base + p)) :
    windowXor bo M' base n = windowXor bo M base n := by
  rw [windowXor_eq_words_xor_rest, windowXor_eq_words_xor_rest bo M]
  congr 1
  · exact xorOver_perm σ fun i => windowXor_congr bo (hwords i)
  · refine windowXor_congr bo fun p hp => ?_
    rw [Nat.add_assoc]
    exact hrest _ (by omega) (by omega)

theorem windowXor_swap_bytes (M : Nat → Byte) {p q : Nat} (hp : p < 4 * (n / 4)) (hq : q < 4 * (n / 4)) (hpq : p % 4 = q % 4) :
    windowXor bo (fun a => if a = base + p then M (base + q) else if a = base + q then M (base + p) else M a) base n =
      windowXor bo M base n := by
  by_cases hne : p = q
  · subst hne
    refine windowXor_congr bo fun k _ => ?_
    by_cases hk : base + k = base + p <;> simp only [hk, if_true, if_false]
  · refine xorOver_eq_of_same_change (show p < n by omega) (show q < n by omega) hne ?_ fun k _ hkp hkq => ?_
    · dsimp only
      rw [digestLane_aligned bo hp, digestLane_aligned bo hq, hpq, if_pos rfl, if_neg (by omega), if_pos rfl, BitVec.xor_comm]
    · dsimp only
      rw [if_neg (by omega), if_neg (by omega)]

theorem windowXor_clear_words {i j : Nat} (hij : i < j) (hj : j < n / 4)
    (heq : ∀ k, k < 4 → M (base + 4 * i + k) = M (base + 4 * j + k)) (hi0 : ∀ k, k < 4 → M' (base + 4 * i + k) = 0)
    (hj0 : ∀ k, k < 4 → M' (base + 4 * j + k) = 0) (hrest : ∀ p, p / 4 ≠ i → p / 4 ≠ j → M' (base + p) = M (base + p)) :
    windowXor bo M' base n = windowXor bo M base n := by
  rw [windowXor_eq_words_xor_rest, windowXor_eq_words_xor_rest bo M]
  congr 1
  · refine xorOver_eq_of_same_change (hij.trans hj) hj hij.ne ?_ fun k _ hki hkj => windowXor_congr bo fun p hp => ?_
    · rw [windowXor_of_zero bo hi0, windowXor_of_zero bo hj0, windowXor_congr bo heq]
    · rw [Nat.add_assoc]
      exact hrest _ (by omega) (by omega)
  · refine windowXor_congr bo fun p hp => ?_
    rw [Nat.add_assoc]
    exact hrest _ (by omega) (by omega)

/-- Four zero bytes may be put in at a multiple of 4. -/
theorem windowXor_insert_zeros (M : Nat → Byte) {k : Nat} (hk : k % 4 = 0) (hle : k ≤ n) :
    windowXor bo (fun a => if a < base + k then M a else if a < base + k + 4 then 0 else M (a - 4)) base (n + 4) =
      windowXor bo M base n := by
  obtain ⟨m, rfl⟩ := Nat.exists_eq_add_of_le hle
  have hlen : k + m + 4 = k + (4 + m) := by omega
  rw [hlen, windowXor_add bo hk, windowXor_add bo (show 4 % 4 = 0 from rfl), windowXor_add bo hk]
  congr 1
  · exact windowXor_congr bo fun p hp => if_pos (by omega)
  · rw [windowXor_of_zero bo fun p hp => by rw [if_neg (by omega), if_pos (by omega)]]
    refine BitVec.zero_xor.trans (windowXor_congr bo fun p hp => ?_)
    rw [if_neg (by omega), if_neg (by omega)]
    congr 1
    omega

end

/-- Settles O47: none of the four changes the XOR of the contributions, and the seed is the same. -/
theorem collisionsAreReproduced : Obligations.CollisionsAreReproduced := by
  unfold Obligations.CollisionsAreReproduced
  intro bo M M' base len seed
  simp only [hashFunction_eq_windowXor]
  refine ⟨fun σ hwords hrest => ?_, fun p q hp hq hpq => ?_, fun k hk hle hlt => ?_, fun i j hij hj heq => ?_⟩
  · rw [windowXor_permute_words bo σ hwords hrest]
  · rw [windowXor_swap_bytes bo M hp hq hpq]
  · have hlen : (len + 4).toNat = len.toNat + 4 := BitVec.toNat_add_of_lt hlt
    rw [hlen, windowXor_insert_zeros bo M hk hle]
  · rw [windowXor_clear_words bo hij hj heq (fun k hk => if_pos (by omega)) (fun k hk => if_pos (by omega))
      fun p hi hj => if_neg (by omega)]

/-! ### What `HASH` delivers depends on the window and the seed only (R100, R101) -/

/-- The byte that the read of the window byte at address `a` finds in an invocation of `c`, at its moment (log entry 15). -/
def State.windowByte (s : State) (c : Command) (a : Nat) : Byte :=
  (((s.accept c).landed (a - c.base + 1)).readByte a).getD 0

section
variable {s t : State} {c : Command}

/-- Where `HASH` completes, every byte of its window was answered (R41). -/
theorem readByte_ne_none_of_exec_hash (hidle : s.ph = .idle) (hfault : s.fault = none) (hwf : c.wf s.params.aw = true)
    (h : exec (.hash c.base c.len c.seed) s = .next t) {k : Nat} (hk : k < c.len.toNat) :
    (s.accept c).readByte (c.base + k) ≠ none := by
  induction k using Nat.strong_induction_on with
  | h k ih =>
    intro hnone
    have hexec := hashFaultsOutsideValid s c k hidle hfault hwf hk hnone fun j hj => ih j hj (hj.trans hk)
    rw [h] at hexec
    cases hexec

/-- Where `HASH` completes, the launch premises hold, of the bytes that its reads found (R142). -/
theorem State.launch_of_exec_hash (hidle : s.ph = .idle) (hfault : s.fault = none) (hwf : c.wf s.params.aw = true)
    (h : exec (.hash c.base c.len c.seed) s = .next t) : s.launch (s.windowByte c) c := by
  have hread (k : Nat) (hk : k < c.len.toNat) := readByte_ne_none_of_exec_hash hidle hfault hwf h hk
  refine ⟨hidle, hfault, hwf, ?_, fun k hk => ?_⟩
  · by_contra hlt
    have hbase : c.base < 2 ^ s.params.aw := of_decide_eq_true hwf
    refine hread (2 ^ s.params.aw - c.base) (by omega) (State.readByte_of_not_canRead ?_)
    rintro ⟨⟨hin, -⟩, -⟩
    rw [Nat.add_sub_cancel' hbase.le] at hin
    exact Nat.lt_irrefl _ hin
  · have hsome : ((s.accept c).landed (k + 1)).readByte (c.base + k) ≠ none := mt State.readByte_landed_eq_none.mp (hread k hk)
    obtain ⟨b, hb⟩ := Option.ne_none_iff_exists'.mp hsome
    rw [State.windowByte, Nat.add_sub_cancel_left, hb]
    rfl

/-- What `HASH` delivers whenever it completes (R70). -/
theorem digest_of_exec_hash (hidle : s.ph = .idle) (hfault : s.fault = none) (hwf : c.wf s.params.aw = true)
    (h : exec (.hash c.base c.len c.seed) s = .next t) :
    t.digest = c.seed ^^^ windowXor s.params.byteOrder (s.windowByte c) c.base c.len.toNat := by
  obtain ⟨u, hu, hdigest, -⟩ := hashCompletes s c _ (State.launch_of_exec_hash hidle hfault hwf h)
  rw [h] at hu
  cases hu
  rw [hdigest, hashFunction_eq_windowXor]

end

/-- Settles O37: the reads of both invocations find the same bytes. -/
theorem digestDependsOnWindowOnly : Obligations.DigestDependsOnWindowOnly := by
  unfold Obligations.DigestDependsOnWindowOnly
  intro s s' t t' c c' hidle hidle' hfault hfault' hbo hwf hwf' hlen hseed hbytes h h'
  have hwindow : windowXor s.params.byteOrder (s.windowByte c) c.base c.len.toNat =
      windowXor s.params.byteOrder (s'.windowByte c') c'.base c.len.toNat :=
    windowXor_congr _ fun k hk => by
      rw [State.windowByte, State.windowByte, Nat.add_sub_cancel_left, Nat.add_sub_cancel_left, hbytes k hk]
  rw [digest_of_exec_hash hidle hfault hwf h, digest_of_exec_hash hidle' hfault' hwf' h', hwindow, hbo, hlen, hseed]

/-- `BASE` keeps its `AW` bits (log entry 11). -/
theorem exec_hash_base_mod {s : State} (hidle : s.ph = .idle) (hfault : s.fault = none) (base : Nat) (len seed : Word32) :
    exec (.hash (base % 2 ^ s.params.aw) len seed) s = exec (.hash base len seed) s := by
  have haccept : s.accept ⟨base % 2 ^ s.params.aw, len, seed⟩ = s.accept ⟨base, len, seed⟩ := by
    simp only [State.accept, Nat.mod_mod]
  exact (exec_hash hidle hfault ⟨_, len, seed⟩).trans (haccept ▸ (exec_hash hidle hfault ⟨base, len, seed⟩).symm)

/-- The bytes that an invocation reads do not depend on its seed. -/
theorem State.windowByte_seed (s : State) (base : Nat) (len d d' : Word32) :
    s.windowByte ⟨base, len, d⟩ = s.windowByte ⟨base, len, d'⟩ := by
  funext a
  exact congrArg (Option.getD · 0) (State.readByte_congr rfl rfl rfl rfl a)

/-- Settles O42: the seed enters by a XOR, whatever the window contributes. -/
theorem seedLinearity : Obligations.SeedLinearity := by
  refine ⟨fun s t t' base len d d' hidle hfault h h' => ?_, fun bo M base len => ⟨fun d => ?_, ?_⟩⟩
  · have hdigest {seed : Word32} {u : State} (hexec : exec (.hash base len seed) s = .next u) :=
      digest_of_exec_hash (c := ⟨base % 2 ^ s.params.aw, len, seed⟩) hidle hfault
        (decide_eq_true (Nat.mod_lt _ (Nat.two_pow_pos _))) ((exec_hash_base_mod hidle hfault base len seed).trans hexec)
    rw [hdigest h, hdigest h', State.windowByte_seed s _ len d d', BitVec.xor_comm d', ← BitVec.xor_assoc, xor_xor_same]
  · simp [hashFunction_eq_windowXor, BitVec.xor_comm d]
  · refine Function.Involutive.bijective fun d => ?_
    simp only [hashFunction_eq_windowXor, xor_xor_same]

end Sys2Proof.Machine

/-! ## Faults and several instances (60_exceptions.md)

A recorded fault is answered again until a reset (`State.advances_of_fault`). What a move leaves of a system is `System.stepAt_of_getElem?`,
and `System.stepAt_keeps_inv` for those that do not move. That no interleaving shows in one of several instances follows from a relation on
states that differ in memory outside a set of addresses only (`State.AgreesOn`), which every step keeps that reads within that set. -/

namespace Sys2Proof.Machine

/-! ### Steps without a row (R121, R125, R141) -/

/-- Settles O25: waiting in `IDLE` and in `DONE` are rows that leave the block as it is. -/
theorem idleAndDoneWait : Obligations.IdleAndDoneWait := by
  rintro s hreset hfault (⟨hidle, hoffer⟩ | ⟨hdone, htake⟩)
  · exact (RowStep.idleWait (s := s.begin) hidle hoffer).step_eq hreset hfault
  · exact (RowStep.doneWait (s := s.begin) hdone htake).step_eq hreset hfault

theorem step_of_recorded_fault {s : State} {a : Nat} (hfault : s.fault = some a) (hreset : s.input.reset = false) :
    step s = .fault (.outOfBuffer a) := by
  simp [step, stepWith, hreset, hfault]

theorem step_of_reset {s : State} (hreset : s.input.reset = true) : step s = .next s.begin.resetEvent.settle := by
  simp [step, stepWith, hreset]

/-! ### The outcomes of a step (R56, R121) -/

theorem runOps_ne_refused {is : List Instr} (his : ∀ i ∈ is, ∀ b l d, i ≠ .hash b l d) (s : State) (r : Refusal) :
    runOps is s ≠ .refused r := by
  induction is generalizing s with
  | nil => exact nofun
  | cons i is ih =>
    intro h
    rcases andThen_eq_refused.mp h with h | ⟨u, -, hu⟩
    · exact exec_ne_refused (his i (by simp)) s r h
    · exact ih (fun j hj => his j (by simp [hj])) u hu

/-- The command is refused no more than its micro-operations are. -/
theorem exec_hash_ne_refused (b : Nat) (l d : Word32) (s : State) (r : Refusal) : exec (.hash b l d) s ≠ .refused r := by
  by_cases hready : s.ph = .idle ∧ s.fault = none
  · obtain ⟨hidle, hfault⟩ := hready
    rw [exec_hash hidle hfault ⟨b, l, d⟩]
    exact runOps_ne_refused (fun i => ne_hash_of_mem_expansion) _ r
  · rw [exec_hash_refuses (by tauto)]
    exact nofun

/-- A row faults in a phase that reads, at a byte that is not answered. -/
theorem row_fault_reads {e : HostInput} {s : State} {a : Nat} (h : row e s = .fault (.outOfBuffer a)) :
    s.ph ∈ [.p8, .p4, .p2, .p1] ∧ s.readByte a = none := by
  obtain ⟨i, -, hsel, hread⟩ := row_eq_fault h
  obtain ⟨k, hk, -, hnone, -⟩ := State.memRead_error_iff.mp hread
  exact ⟨ph_reads_of_bytesRead hsel (by omega), hnone⟩

/-- Settles O21: a fault is recorded already or is that of the row (`step_eq_fault`); where it lies is what `advanceKeepsInvariant`
says of the state in which the fault is recorded, whose registers are those before the step. -/
theorem stepOutcomes : Obligations.StepOutcomes := by
  refine fun s => ⟨step_ne_refused s, fun i r => ?_, fun a h => ?_⟩
  · cases i with
    | hash b l d => exact exec_hash_ne_refused b l d s r
    | _ => exact exec_ne_refused (by simp) s r
  · obtain ⟨hreset, hcause⟩ := step_eq_fault h
    refine ⟨hreset, hcause.imp_right fun ⟨hfault, hrow⟩ => ⟨hfault, row_fault_reads hrow⟩, fun hinv => ?_⟩
    obtain ⟨-, hrecorded⟩ := advanceKeepsInvariant s hinv
    obtain ⟨hfaulted, hout⟩ := hrecorded a h
    rw [State.advance_of_fault h] at hfaulted hout
    exact ⟨hfaulted.ph_reads, hout, hfaulted.in_window⟩

/-! ### A fault lasts until a reset (R121, R125) -/

theorem State.noReset_recordFault {s : State} {n : Nat} (h : s.noReset (n + 1)) (a : Nat) : (s.recordFault a).noReset n := by
  intro e he
  have htail : (s.inputs.take (n + 1)).tail = s.inputs.tail.take n := List.tail_take_eq_take_tail ..
  exact h e (List.mem_of_mem_tail (htail ▸ he))

/-- After a step that ended in a fault, steps without a reset leave the block as it was, with the fault recorded. -/
theorem State.advances_of_fault {s : State} {a n : Nat} (h : step s = .fault (.outOfBuffer a)) (hreset : s.noReset (n + 1)) :
    s.advances (n + 1) = { s with
      fault := some a, inputs := s.inputs.drop (n + 1), mem := (s.advances (n + 1)).mem,
      readable := (s.advances (n + 1)).readable, pending := [] } := by
  induction n generalizing s with
  | zero =>
    have hone : s.advances 1 = s.recordFault a := State.advance_of_fault h
    rw [hone, List.drop_one]
    rfl
  | succ n ih =>
    have hfirst : s.advances (n + 1 + 1) = (s.recordFault a).advances (n + 1) :=
      congrArg (State.advances (n + 1)) (State.advance_of_fault h)
    have hinput : (s.recordFault a).input = s.inputs.getD 1 {} := State.input_of_drop List.drop_one.symm
    have hagain : step (s.recordFault a) = .fault (.outOfBuffer a) :=
      step_of_recorded_fault rfl (hinput ▸ State.noReset_getD hreset (by omega))
    rw [hfirst, ← List.drop_tail]
    exact ih hagain (State.noReset_recordFault hreset a)

/-- Settles O50: the steps leave the fault recorded (`State.advances_of_fault`), which is answered again or reset. -/
theorem faultLastsUntilReset : Obligations.FaultLastsUntilReset := by
  intro s a n h hreset
  have hstate := State.advances_of_fault h hreset
  have hfault : (s.advances (n + 1)).fault = some a := by rw [hstate]
  have hinput : (s.advances (n + 1)).input = s.inputs.getD (n + 1) {} := State.input_of_drop (by rw [hstate])
  have hresponses : (s.advances (n + 1)).responses = s.responses := by rw [hstate]
  exact ⟨hstate, fun hr => step_of_recorded_fault hfault (by rw [hinput, hr]),
    fun hr => ⟨_, step_of_reset (by rw [hinput, hr]), rfl, rfl, hresponses⟩⟩

/-! ### Moves of a system (R45, R127) -/

theorem System.stepAt_of_getElem? {sys : System} {k : Nat} {s : State} (h : sys.instances[k]? = some s) :
    sys.stepAt k =
      some ⟨(sys.mover s).advance.mem, (sys.mover s).advance.readable, sys.instances.set k (sys.mover s).advance⟩ := by
  simp only [System.stepAt, h]

theorem System.stepAt_of_none {sys : System} {k : Nat} (h : sys.instances[k]? = none) : sys.stepAt k = none := by
  simp only [System.stepAt, h]

theorem getElem?_set_of_some {is : List State} {k : Nat} {s : State} (h : is[k]? = some s) (t : State) : (is.set k t)[k]? = some t :=
  List.getElem?_set_self (List.getElem?_eq_some_iff.mp h).1

/-- Settles O52: what a move leaves is `System.stepAt_of_getElem?`, and a fault is recorded in the mover (`State.advance_of_fault`). -/
theorem faultStopsNoOtherInstance : Obligations.FaultStopsNoOtherInstance := by
  intro sys k s hk
  refine ⟨_, (sys.mover s).advance, System.stepAt_of_getElem? hk, getElem?_set_of_some hk _, rfl, rfl, List.length_set,
    fun j hj => List.getElem?_set_ne hj.symm, fun u hu => State.advance_of_next hu, fun a ha => ?_⟩
  rw [State.advance_of_fault ha]
  exact ⟨rfl, rfl, rfl⟩

theorem State.Inv.advance {s : State} (h : s.Inv) : s.advance.Inv := (advanceKeepsInvariant s h).1

/-- A move of another keeps the invariant of one that does not move. -/
theorem System.stepAt_keeps_inv {sys sys' : System} {k : Nat} {s : State} (h : sys.stepAt k = some sys') (hs : (sys.mover s).Inv) :
    (sys'.mover s).Inv := by
  obtain ⟨haw, hmem, hreadable, hvalid, hreadableHeld, hvalidHeld⟩ := System.stepAt_keeps_env h hs.env
  exact ⟨haw, hmem, hreadable, hvalid, hreadableHeld, hvalidHeld, hs.settled, fun hph => { hs.busy hph with },
    fun a ha => { hs.faulted a ha with }⟩

/-- Settles O54: the mover keeps its own invariant (`State.Inv.advance`), and that of each of the others (`System.stepAt_keeps_inv`). -/
theorem systemKeepsInvariant : Obligations.SystemKeepsInvariant := by
  intro sys sys' k hinv h s hs
  obtain ⟨t, ht, -⟩ := System.stepAt_eq_some h
  obtain rfl := Option.some.inj ((System.stepAt_of_getElem? ht).symm.trans h)
  rcases List.mem_or_eq_of_mem_set hs with hs | rfl
  · exact System.stepAt_keeps_inv h (hinv s hs)
  · exact (hinv t (List.mem_of_getElem? ht)).advance

/-- A block whose inputs are silent moves without a change of memory. -/
theorem System.stepAt_of_silent {sys : System} {k : Nat} {s : State} (h : sys.instances[k]? = some s) (hs : s.silent) :
    sys.stepAt k = some { sys with instances := sys.instances.set k (sys.mover s).advance } := by
  obtain ⟨hpending, hremap, hwrites⟩ := hs
  have henv := (sys.mover s).advance_environment
  have hinput : (sys.mover s).input = s.input := rfl
  rw [State.settle_of_nil (s := sys.mover s) hpending, hinput, Memory.after, hremap, hwrites] at henv
  obtain ⟨hmem, hreadable⟩ := henv
  rw [System.stepAt_of_getElem? h, hmem, hreadable]
  rfl

/-- Settles O38: a silent move changes the mover only, so the other finds what it found before. -/
theorem instancesDoNotInteract : Obligations.InstancesDoNotInteract := by
  intro sys j k hjk hj hk
  cases hs : sys.instances[j]? with
  | none =>
    cases ht : sys.instances[k]? with
    | none =>
      rw [System.stepAt_of_none hs, System.stepAt_of_none ht]
      rfl
    | some t =>
      rw [System.stepAt_of_none hs, System.stepAt_of_silent ht (hk t ht)]
      exact (System.stepAt_of_none ((List.getElem?_set_ne hjk.symm).trans hs)).symm
  | some s =>
    have hfirst := System.stepAt_of_silent hs (hj s hs)
    cases ht : sys.instances[k]? with
    | none =>
      rw [System.stepAt_of_none ht, hfirst]
      exact System.stepAt_of_none ((List.getElem?_set_ne hjk).trans ht)
    | some t =>
      rw [hfirst, System.stepAt_of_silent ht (hk t ht)]
      refine (System.stepAt_of_silent ((List.getElem?_set_ne hjk).trans ht) (hk t ht)).trans
        (Eq.trans ?_ (System.stepAt_of_silent ((List.getElem?_set_ne hjk.symm).trans hs) (hj s hs)).symm)
      exact congrArg (fun is => some { sys with instances := is }) (List.set_comm _ _ hjk)

/-! ### Memories that agree on a set of addresses -/

section
variable {W : Nat → Prop} {m m' : Memory} {r r' : Addrs}

/-- At the addresses of `W` the second memory holds what the first does. -/
def Memory.AgreeOn (W : Nat → Prop) (m m' : Memory) : Prop := ∀ a, W a → Memory.read m' a = Memory.read m a

/-- The second set has the same addresses of `W` as the first. -/
def Addrs.AgreeOn (W : Nat → Prop) (r r' : Addrs) : Prop := ∀ a, W a → (a ∈ r' ↔ a ∈ r)

theorem Memory.AgreeOn.overwrites (h : Memory.AgreeOn W m m') (es : List (Nat × Byte)) :
    Memory.AgreeOn W (Memory.overwrites m es) (Memory.overwrites m' es) := by
  induction es generalizing m m' with
  | nil => exact h
  | cons x es ih => exact ih fun a ha => by rw [Memory.read_overwrite, Memory.read_overwrite, h a ha]

theorem Memory.AgreeOn.changes (h : Memory.AgreeOn W m m') (es : List Remap) :
    Memory.AgreeOn W (Memory.changes m es) (Memory.changes m' es) := by
  induction es generalizing m m' with
  | nil => exact h
  | cons x es ih =>
    refine ih fun a ha => ?_
    by_cases hx : a = x.addr
    · rw [hx, Memory.read_write_same, Memory.read_write_same]
    · rw [Memory.read_write_other _ hx, Memory.read_write_other _ hx, h a ha]

theorem Addrs.AgreeOn.changes (h : Addrs.AgreeOn W r r') (es : List Remap) :
    Addrs.AgreeOn W (Addrs.changes r es) (Addrs.changes r' es) := by
  induction es generalizing r r' with
  | nil => exact h
  | cons x es ih =>
    refine ih fun a ha => ?_
    split <;> simp [h a ha]

end

/-! ### States that agree but for memory outside a set of addresses (R100) -/

/-- The states that are `s` in everything but memory, what is readable and `VALID`, and in these at the addresses of `W`. -/
inductive State.AgreesOn (W : Nat → Prop) (s : State) : State → Prop
  | intro (m : Memory) (r v : Addrs) : Memory.AgreeOn W s.mem m → Addrs.AgreeOn W s.readable r → Addrs.AgreeOn W s.valid v →
      State.AgreesOn W s { s with mem := m, readable := r, valid := v }

section
variable {W : Nat → Prop} {s t u : State}

theorem State.AgreesOn.refl (W : Nat → Prop) (s : State) : s.AgreesOn W s :=
  .intro _ _ _ (fun _ _ => rfl) (fun _ _ => .rfl) (fun _ _ => .rfl)

theorem State.AgreesOn.trans (h : s.AgreesOn W t) (h' : t.AgreesOn W u) : s.AgreesOn W u := by
  obtain ⟨m, r, v, hm, hr, hv⟩ := h
  obtain ⟨m', r', v', hm', hr', hv'⟩ := h'
  exact .intro m' r' v' (fun a ha => (hm' a ha).trans (hm a ha)) (fun a ha => (hr' a ha).trans (hr a ha))
    fun a ha => (hv' a ha).trans (hv a ha)

theorem State.AgreesOn.eq (h : s.AgreesOn W t) : t = { s with mem := t.mem, readable := t.readable, valid := t.valid } := by
  cases h; rfl

theorem State.AgreesOn.landed (h : s.AgreesOn W t) (n : Nat) : (s.landed n).AgreesOn W (t.landed n) := by
  obtain ⟨m, r, v, hm, hr, hv⟩ := h
  exact .intro _ r v (hm.overwrites _) hr hv

theorem State.AgreesOn.settle (h : s.AgreesOn W t) : s.settle.AgreesOn W t.settle := by
  obtain ⟨m, r, v, hm, hr, hv⟩ := h
  exact .intro _ r v (hm.overwrites _) hr hv

theorem State.AgreesOn.begin (h : s.AgreesOn W t) : s.begin.AgreesOn W t.begin := by
  obtain ⟨m, r, v, hm, hr, hv⟩ := h
  exact .intro _ _ v ((hm.overwrites _).changes _) (hr.changes _) hv

theorem State.AgreesOn.resetEvent (h : s.AgreesOn W t) : s.resetEvent.AgreesOn W t.resetEvent := by
  obtain ⟨m, r, v, hm, hr, hv⟩ := h
  exact .intro m r [] hm hr fun _ _ => .rfl

/-- An acceptance takes what is readable as `VALID` (R31). -/
theorem State.AgreesOn.accept (h : s.AgreesOn W t) (c : Command) : (s.accept c).AgreesOn W (t.accept c) := by
  obtain ⟨m, r, v, hm, hr, hv⟩ := h
  exact .intro m r r hm hr hr

theorem State.AgreesOn.recordFault (h : s.AgreesOn W t) (a : Nat) : (s.recordFault a).AgreesOn W (t.recordFault a) := by
  obtain ⟨m, r, v, hm, hr, hv⟩ := h
  exact .intro _ _ v (((hm.overwrites _).changes _).overwrites _) (hr.changes _) hv

theorem State.AgreesOn.latchOffer (h : s.AgreesOn W t) (o : Option Command) : (s.latchOffer o).AgreesOn W (t.latchOffer o) := by
  have hph : t.ph = s.ph := by rw [h.eq]
  by_cases hidle : s.ph = .idle
  · cases o with
    | none => rwa [State.latchOffer_none, State.latchOffer_none]
    | some c =>
      rw [State.latchOffer_idle hidle, State.latchOffer_idle (hph.trans hidle)]
      exact h.accept c
  · rwa [State.latchOffer_busy hidle, State.latchOffer_busy (hph ▸ hidle)]

theorem State.AgreesOn.readByte (h : s.AgreesOn W t) {a : Nat} (ha : W a) : t.readByte a = s.readByte a := by
  obtain ⟨m, r, v, hm, hr, hv⟩ := h
  simp only [State.readByte, State.canRead, State.inValid, hm a ha, hr a ha, hv a ha]

/-- A read of addresses of `W` finds the same bytes, or fails at the same address. -/
theorem State.AgreesOn.memRead (h : s.AgreesOn W t) {a n : Nat} (hW : ∀ j, j < n → W (a + j)) : t.memRead a n = s.memRead a n := by
  induction n generalizing s t a with
  | zero => rfl
  | succ n ih =>
    have hfirst : (t.landed 1).readByte a = (s.landed 1).readByte a := (h.landed 1).readByte (hW 0 (by omega))
    have hrest : (t.landed 1).memRead (a + 1) n = (s.landed 1).memRead (a + 1) n :=
      ih (h.landed 1) fun j hj => by
        rw [Nat.add_assoc, Nat.add_comm 1]
        exact hW (j + 1) (by omega)
    simp only [State.memRead, hfirst, hrest]

end

/-! ### Steps of states that agree -/

/-- Both outcomes are next states that agree, or both are the same fault or refusal. -/
inductive OutsAgreeOn (W : Nat → Prop) : Out → Out → Prop
  | next {s t : State} : s.AgreesOn W t → OutsAgreeOn W (.next s) (.next t)
  | fault (r : Fault) : OutsAgreeOn W (.fault r) (.fault r)
  | refused (r : Refusal) : OutsAgreeOn W (.refused r) (.refused r)

section
variable {W : Nat → Prop} {s t : State}

theorem OutsAgreeOn.andThen {o o' : Out} {f : State → Out} (h : OutsAgreeOn W o o')
    (hf : ∀ s t, s.AgreesOn W t → OutsAgreeOn W (f s) (f t)) : OutsAgreeOn W (andThen o f) (andThen o' f) := by
  cases h with
  | next h => exact hf _ _ h
  | fault r => exact .fault r
  | refused r => exact .refused r

theorem State.AgreesOn.accumulate (h : s.AgreesOn W t) {n : Nat} (hW : ∀ j, j < n → W (s.ea + j)) (place : List Byte → Word64) :
    OutsAgreeOn W (accumulate n place s) (accumulate n place t) := by
  have hea : t.ea = s.ea := by rw [h.eq]; rfl
  have hread : t.memRead t.ea n = s.memRead s.ea n := by rw [hea, h.memRead hW]
  rw [Machine.accumulate, Machine.accumulate, hread]
  cases s.memRead s.ea n with
  | error a => exact .fault _
  | ok bytes =>
    obtain ⟨m, r, v, hm, hr, hv⟩ := h
    exact .next (.intro _ r v (hm.overwrites _) hr hv)

/-- A micro-operation that reads addresses of `W` only. -/
theorem State.AgreesOn.exec (h : s.AgreesOn W t) {i : Instr} (hi : ∀ b l d, i ≠ .hash b l d)
    (hW : ∀ j, j < i.bytesRead → W (s.ea + j)) : OutsAgreeOn W (exec i s) (exec i t) := by
  have hacc {n : Nat} (hn : ∀ j, j < n → W (s.ea + j)) (place : List Byte → Word64) := h.accumulate hn place
  obtain ⟨m, r, v, hm, hr, hv⟩ := h
  cases i with
  | hash b l d => exact absurd rfl (hi b l d)
  | init | fold | norm | blend | ret => exact .next (.intro m r v hm hr hv)
  | xor8 | xor4 | xor1 => exact hacc hW _
  | xor2 =>
    refine (hacc hW _).andThen fun s t h => ?_
    obtain ⟨m, r, v, hm, hr, hv⟩ := h
    exact .next (.intro m r v hm hr hv)

variable (hbusy : s.ph ≠ .idle → s.Busy)
  (hwindow : s.ph ≠ .idle → ∀ i, i < s.len.toNat → W (s.base + i))
include hbusy hwindow

/-- What the row of an invocation in progress reads is in its window. -/
theorem State.reads_window {o : Option Command} {b k : Bool} {i : Instr} (hsel : selectOp s.ph s.pos s.len b k = some i) :
    ∀ j, j < i.bytesRead → W ((s.latchOffer o).ea + j) := by
  intro j hj
  have hph : s.ph ≠ .idle := by
    intro hidle
    have hreads := ph_reads_of_bytesRead hsel (by omega)
    simp [hidle] at hreads
  have hle := (hbusy hph).pos_add_bytesRead_le hph hsel
  rw [State.latchOffer_busy hph, State.ea, Nat.add_assoc]
  exact hwindow hph _ (by omega)

theorem State.AgreesOn.row (h : s.AgreesOn W t) (e : HostInput) : OutsAgreeOn W (row e s) (row e t) := by
  have hlatch := h.latchOffer e.offer
  obtain ⟨m, r, v, hm, hr, hv⟩ := h
  simp only [Machine.row]
  cases hsel : selectOp s.ph s.pos s.len e.offer.isSome e.take with
  | none => exact .next (.intro m r v hm hr hv)
  | some i =>
    refine (hlatch.exec (ne_hash_of_selectOp hsel) (State.reads_window hbusy hwindow hsel)).andThen fun s t h => ?_
    obtain ⟨m, r, v, hm, hr, hv⟩ := h
    exact .next (.intro m r v hm hr hv)

theorem State.AgreesOn.stepWith (h : s.AgreesOn W t) (e : HostInput) : OutsAgreeOn W (stepWith e s) (stepWith e t) := by
  have hfault : t.fault = s.fault := by rw [h.eq]
  rw [Machine.stepWith, Machine.stepWith, hfault]
  split
  · exact .next h.resetEvent
  · split
    · exact .fault _
    · exact h.row hbusy hwindow e

/-- A step of an invocation whose window is in `W` has the same outcome, and leaves states that agree. -/
theorem State.AgreesOn.step (h : s.AgreesOn W t) : OutsAgreeOn W (step s) (step t) := by
  have hinput : t.input = s.input := by rw [h.eq]; rfl
  rw [Machine.step, Machine.step, hinput]
  have hbegin : s.begin.ph ≠ .idle → s.begin.Busy := fun hph => { hbusy hph with }
  exact (h.begin.stepWith hbegin hwindow s.input).andThen fun _ _ h => .next h.settle

theorem State.AgreesOn.advance (h : s.AgreesOn W t) : s.advance.AgreesOn W t.advance := by
  have hstep := h.step hbusy hwindow
  rw [State.advance, State.advance]
  generalize Machine.step s = o, Machine.step t = o' at hstep
  cases hstep with
  | next h => exact h
  | refused r => exact h
  | fault r =>
    obtain ⟨a⟩ := r
    exact h.recordFault a

end

/-! ### A block within its windows, beside others that spare them (R100, R127, R144) -/

/-- A step goes on with a reset, a recorded fault or a row of R71. -/
theorem State.advance_cases (s : State) :
    s.advance = s.begin.resetEvent.settle ∨ (∃ a, s.advance = s.recordFault a) ∨
      ∃ u, RowStep s.input s.begin u ∧ s.advance = u.settle := by
  cases h : step s with
  | refused r => exact absurd h (step_ne_refused s r)
  | fault r =>
    obtain ⟨a⟩ := r
    exact .inr (.inl ⟨a, State.advance_of_fault h⟩)
  | next t =>
    rw [State.advance_of_next h]
    obtain ⟨u, rfl, ⟨-, rfl⟩ | ⟨-, -, hrow⟩⟩ := step_eq_next h
    · exact .inl rfl
    · exact .inr (.inr ⟨u, hrow, rfl⟩)

/-- A step uses up its input, leaves no write of another agent over and keeps the parameters. -/
theorem State.advance_frame (s : State) : s.advance.params = s.params ∧ s.advance.inputs = s.inputs.tail ∧ s.advance.pending = [] := by
  obtain h | ⟨a, h⟩ | ⟨u, hrow, h⟩ := s.advance_cases
  · rw [h]
    exact ⟨rfl, rfl, rfl⟩
  · rw [h]
    exact ⟨rfl, rfl, rfl⟩
  · obtain ⟨n, hk⟩ := hrow.keepsMemory
    rw [h]
    exact ⟨hk.params_eq, hrow.inputs_eq, rfl⟩

/-- The command of an invocation in progress after a row was in progress before it, or is accepted in it. -/
theorem RowStep.command_cases {e : HostInput} {s u : State} (h : RowStep e s u) (hu : u.ph ≠ .idle) :
    (s.ph ≠ .idle ∧ u.base = s.base ∧ u.len = s.len) ∨
      ∃ c, e.offer = some c ∧ u.base = c.base % 2 ^ s.params.aw ∧ u.len = c.len := by
  by_cases hidle : s.ph = .idle
  · cases h with
    | idleWait => exact absurd hidle hu
    | accept c _ hoffer => exact .inr ⟨c, hoffer, rfl, rfl⟩
    | group _ hph | groupsEnd hph | word _ hph | noWord hph | half _ hph | noHalf hph | byte _ hph | noByte hph | fold hph | norm hph
    | blend hph | doneWait hph | ret hph => simp [hidle] at hph
  · obtain ⟨hbase, hlen, -⟩ := h.command_eq hidle
    exact .inl ⟨hidle, hbase, hlen⟩

/-- What holds of a quiet input and of the inputs to come holds of the next. -/
theorem State.input_of_forall {P : HostInput → Prop} {s : State} (hquiet : P {}) (h : ∀ e ∈ s.inputs, P e) : P s.input := by
  cases hs : s.inputs with
  | nil => rwa [State.input_nil hs]
  | cons e es =>
    rw [State.input_cons hs]
    exact h e (by simp [hs])

/-- `W` holds the window of the command that is offered, if one is, for the address width `aw` (R31; log entry 11). -/
def HostInput.Within (W : Nat → Prop) (aw : Nat) (e : HostInput) : Prop :=
  ∀ c, e.offer = some c → ∀ i, i < c.len.toNat → W (c.base % 2 ^ aw + i)

/-- The input leaves the addresses of `W` alone (R144). -/
def HostInput.Spares (W : Nat → Prop) (e : HostInput) : Prop := (∀ x ∈ e.writes.flatten, ¬ W x.1) ∧ ∀ x ∈ e.remap, ¬ W x.addr

/-- `W` holds the windows of the commands of the block, that of the invocation in progress and those that are offered (R31). -/
structure State.Within (W : Nat → Prop) (s : State) : Prop where
  window : s.ph ≠ .idle → ∀ i, i < s.len.toNat → W (s.base + i)
  offers : ∀ e ∈ s.inputs, e.Within W s.params.aw

/-- The inputs of the block, and the writes that come with it, leave the addresses of `W` alone (R144). -/
structure State.Spares (W : Nat → Prop) (s : State) : Prop where
  pending : ∀ x ∈ s.pending.flatten, ¬ W x.1
  inputs : ∀ e ∈ s.inputs, e.Spares W

section
variable {W : Nat → Prop} {s : State}

theorem State.Within.advance (h : s.Within W) : s.advance.Within W := by
  obtain ⟨hparams, hinputs, -⟩ := s.advance_frame
  refine ⟨fun hph => ?_, fun e he => ?_⟩
  · obtain hs | ⟨a, hs⟩ | ⟨u, hrow, hs⟩ := s.advance_cases
    · rw [hs] at hph
      exact absurd rfl hph
    · rw [hs] at hph ⊢
      exact h.window hph
    · rw [hs] at hph ⊢
      obtain ⟨hbusy, hbase, hlen⟩ | ⟨c, hoffer, hbase, hlen⟩ := hrow.command_cases hph
      · rw [State.settle_base, State.settle_len, hbase, hlen]
        exact h.window hbusy
      · rw [State.settle_base, State.settle_len, hbase, hlen]
        exact State.input_of_forall (P := HostInput.Within W s.params.aw) nofun h.offers c hoffer
  · rw [hparams]
    exact h.offers e (List.mem_of_mem_tail (hinputs ▸ he))

theorem State.Spares.advance (h : s.Spares W) : s.advance.Spares W := by
  obtain ⟨-, hinputs, hpending⟩ := s.advance_frame
  exact ⟨by simp [hpending], fun e he => h.inputs e (List.mem_of_mem_tail (hinputs ▸ he))⟩

/-- A step of a block that spares `W` leaves memory at its addresses. -/
theorem State.Spares.agreeOn (h : s.Spares W) :
    Memory.AgreeOn W s.mem s.advance.mem ∧ Addrs.AgreeOn W s.readable s.advance.readable := by
  obtain ⟨hmem, hreadable⟩ := s.advance_environment
  obtain ⟨hwrites, hremap⟩ := State.input_of_forall (P := HostInput.Spares W) ⟨by simp, by simp⟩ h.inputs
  have hne {b a : Nat} (hb : ¬ W b) (ha : W a) : b ≠ a := fun hab => hb (hab ▸ ha)
  refine ⟨fun a ha => ?_, fun a ha => ?_⟩
  · rw [hmem, Memory.after, Memory.read_overwrites_other _ fun x hx => hne (hwrites x hx) ha,
      Memory.read_changes_other _ fun x hx => hne (hremap x hx) ha]
    exact Memory.read_overwrites_other _ fun x hx => hne (h.pending x hx) ha
  · rw [hreadable, Addrs.mem_changes_other _ fun x hx => hne (hremap x hx) ha]

end

/-! ### The interleaving does not show in one of the instances (R100, R127) -/

/-- Number `k` of the instances is `u` in the one system and `v` in the other, where nothing but its own moves has happened: the two
agree on `W`, which holds its windows, and the other instances of the first spare `W`. -/
structure System.Alike (W : Nat → Prop) (k : Nat) (sys alone : System) (u v : State) : Prop where
  get_eq : sys.instances[k]? = some u
  get_alone : alone.instances[k]? = some v
  agrees : (alone.mover v).AgreesOn W (sys.mover u)
  inv : (alone.mover v).Inv
  within : (alone.mover v).Within W
  others : ∀ j t, j ≠ k → sys.instances[j]? = some t → (sys.mover t).Spares W

section
variable {W : Nat → Prop} {k : Nat} {sys alone sys' alone' : System} {u v : State}

/-- Number `k` moves in both systems. -/
theorem System.Alike.move (h : System.Alike W k sys alone u v) (hs : sys.stepAt k = some sys') (ha : alone.stepAt k = some alone') :
    System.Alike W k sys' alone' (sys.mover u).advance (alone.mover v).advance := by
  obtain rfl := Option.some.inj ((System.stepAt_of_getElem? h.get_eq).symm.trans hs)
  obtain rfl := Option.some.inj ((System.stepAt_of_getElem? h.get_alone).symm.trans ha)
  exact {
    get_eq := getElem?_set_of_some h.get_eq _
    get_alone := getElem?_set_of_some h.get_alone _
    agrees := h.agrees.advance h.inv.busy h.within.window
    inv := h.inv.advance
    within := h.within.advance
    others := fun j t hj ht => { h.others j t hj ((List.getElem?_set_ne hj.symm).symm.trans ht) with } }

/-- Another of the instances moves in the first system. -/
theorem System.Alike.otherMoves (h : System.Alike W k sys alone u v) {j : Nat} (hj : j ≠ k) (hs : sys.stepAt j = some sys') :
    System.Alike W k sys' alone u v := by
  obtain ⟨t, ht, -⟩ := System.stepAt_eq_some hs
  obtain rfl := Option.some.inj ((System.stepAt_of_getElem? ht).symm.trans hs)
  have hspares := h.others j t hj ht
  obtain ⟨hmem, hreadable⟩ := hspares.agreeOn
  exact { h with
    get_eq := (List.getElem?_set_ne hj).trans h.get_eq
    agrees := h.agrees.trans (.intro _ _ u.valid hmem hreadable fun _ _ => .rfl)
    others := fun i t' hi ht' => by
      by_cases hij : i = j
      · subst hij
        obtain rfl := Option.some.inj ((getElem?_set_of_some ht _).symm.trans ht')
        exact { hspares.advance with }
      · exact { h.others i t' hi ((List.getElem?_set_ne (Ne.symm hij)).symm.trans ht') with } }

end

/-- A schedule leaves number `k` alike to where only its own moves are made. -/
theorem System.Alike.run {W : Nat → Prop} {k : Nat} (sched : List Nat) {sys alone : System} {u v : State}
    (h : System.Alike W k sys alone u v) :
    ∃ u' v', System.Alike W k (System.run sched sys) (System.run (sched.filter fun i => decide (i = k)) alone) u' v' := by
  induction sched generalizing sys alone u v with
  | nil => exact ⟨u, v, h⟩
  | cons j js ih =>
    by_cases hj : j = k
    · subst hj
      have hs := System.stepAt_of_getElem? h.get_eq
      have ha := System.stepAt_of_getElem? h.get_alone
      rw [List.filter_cons_of_pos (by simp), System.run, System.run, hs, ha]
      exact ih (h.move hs ha)
    · rw [List.filter_cons_of_neg (by simpa using hj), System.run]
      cases hs : sys.stepAt j with
      | none => exact ih h
      | some sys' => exact ih (h.otherMoves hj hs)

/-- Settles O55: at first both systems are the same, and `System.Alike` leaves memory, what is readable and `VALID` to differ only. -/
theorem interleavingAffectsNoDigest : Obligations.InterleavingAffectsNoDigest := by
  intro W sys sched k s hk hinv hwindow hoffers hothers
  have hstart : System.Alike W k sys sys s s := {
    get_eq := hk
    get_alone := hk
    agrees := .refl W _
    inv := hinv
    within := ⟨hwindow, hoffers⟩
    others := fun j t hj ht => let ⟨hpending, hinputs⟩ := hothers j t hj ht; ⟨hpending, hinputs⟩ }
  obtain ⟨u, v, h⟩ := hstart.run sched
  refine ⟨u, v, h.get_eq, h.get_alone, ?_⟩
  exact congrArg (fun x : State => { x with mem := u.mem, readable := u.readable }) h.agrees.eq

end Sys2Proof.Machine

/-! ## The reset event, and a caller that changes memory during an invocation (70_reset_and_hazards.md)

A row of R71 reads the bytes from `POS` on that `readStep` gives to its step (`State.Busy.pos_le_iff`, `State.Busy.lt_pos_add_iff`, with the
rows of a run counted by `rowNumber`). So a run completes rows up to the one that reads the first byte that is not answered. -/

namespace Sys2Proof.Machine

/-- Settles O27, by the state that a reset leaves. -/
theorem resetAbandons : Obligations.ResetAbandons :=
  fun _ hreset => ⟨_, step_of_reset hreset, rfl, rfl, rfl, rfl, rfl, rfl, rfl⟩

/-! ### Remappings (R144) -/

theorem Memory.changes_append (es fs : List Remap) :
    ∀ m : Memory, Memory.changes m (es ++ fs) = Memory.changes (Memory.changes m es) fs := by
  induction es with
  | nil => intro m; rfl
  | cons x es ih => intro m; exact ih _

theorem Addrs.changes_append (es fs : List Remap) :
    ∀ r : Addrs, Addrs.changes r (es ++ fs) = Addrs.changes (Addrs.changes r es) fs := by
  induction es with
  | nil => intro r; rfl
  | cons x es ih => intro r; exact ih _

section
variable {before after : List Remap} {x : Remap} (hlast : ∀ y ∈ after, y.addr ≠ x.addr)
include hlast

/-- The last remapping of an address gives its byte. -/
theorem Memory.read_changes_last (m : Memory) : Memory.read (Memory.changes m (before ++ x :: after)) x.addr = some x.byte := by
  rw [Memory.changes_append, Memory.changes, Memory.read_changes_other _ hlast, Memory.read_write_same]

/-- The last remapping of an address says whether it is readable. -/
theorem Addrs.mem_changes_last (r : Addrs) : x.addr ∈ Addrs.changes r (before ++ x :: after) ↔ x.readable = true := by
  rw [Addrs.changes_append, Addrs.changes, Addrs.mem_changes_other _ hlast]
  split <;> simp [*]

end

/-- Settles O53: a step, whatever its outcome, makes of memory what its input says (`State.advance_environment`). -/
theorem remappingsTakeEffectInEveryPhase : Obligations.RemappingsTakeEffectInEveryPhase := by
  intro s before after x hremap hlast
  obtain ⟨hmem, hreadable⟩ := s.advance_environment
  rw [hmem, hreadable, Memory.after, hremap]
  refine ⟨Addrs.mem_changes_last hlast _, fun hwrites => ?_⟩
  rw [Memory.read_overwrites_other _ hwrites, Memory.read_changes_last hlast]

/-! ### The bytes that a row reads (R71) -/

/-- How many bytes the row of a phase reads. -/
def readsOfRow (pos len : Word32) : Phase → Nat
  | .p8 => if groupsDone pos len then 0 else 8
  | .p4 => 4 * (lenT4 len).toNat
  | .p2 => 2 * (lenT2 len).toNat
  | .p1 => (lenT1 len).toNat
  | .idle => 0
  | .pf => 0
  | .pn => 0
  | .pb => 0
  | .done => 0

/-- The number of the step of a run, counted from the acceptance as step 0, that performs the row of a phase, with this `POS` in `P8`. -/
def rowNumber (pos len : Word32) : Phase → Nat
  | .idle => 0
  | .p8 => pos.toNat / 8 + 1
  | .p4 => len.toNat / 8 + 2
  | .p2 => len.toNat / 8 + 3
  | .p1 => len.toNat / 8 + 4
  | .pf => len.toNat / 8 + 5
  | .pn => len.toNat / 8 + 6
  | .pb => len.toNat / 8 + 7
  | .done => len.toNat / 8 + 8

/-- A row reads what the micro-operation reads that it selects. -/
theorem readsOfRow_eq (ph : Phase) (pos len : Word32) (o k : Bool) :
    (selectOp ph pos len o k).elim 0 Instr.bytesRead = readsOfRow pos len ph := by
  have hgate (b : Bool) (i : Instr) : (if b then some i else none).elim 0 Instr.bytesRead = i.bytesRead * b.toNat := by
    cases b <;> simp
  cases ph with
  | p8 => simp only [selectOp, readsOfRow]; split <;> rfl
  | idle | p4 | p2 | p1 | done => simp [selectOp, readsOfRow, hgate, Instr.bytesRead]
  | pf | pn | pb => rfl

/-- A row of an invocation in progress faults exactly when its read does. -/
theorem row_eq_fault_iff {e : HostInput} {s : State} (hbusy : s.ph ≠ .idle) {a : Nat} :
    row e s = .fault (.outOfBuffer a) ↔ s.memRead s.ea (readsOfRow s.pos s.len s.ph) = .error a := by
  rw [← readsOfRow_eq s.ph s.pos s.len e.offer.isSome e.take]
  constructor
  · intro h
    obtain ⟨i, -, hsel, hread⟩ := row_eq_fault h
    rwa [hsel]
  · intro h
    cases hsel : selectOp s.ph s.pos s.len e.offer.isSome e.take with
    | none => rw [hsel] at h; cases h
    | some i =>
      rw [hsel] at h
      rw [row_eq_exec hsel rfl (State.latchOffer_busy hbusy _), (exec_eq_fault (ne_hash_of_selectOp hsel)).mpr h, andThen_fault]

section
variable {s : State} (hb : s.Busy) (hbusy : s.ph ≠ .idle) {p : Nat} (hp : p < s.len.toNat)
include hb hbusy hp

/-- The byte at offset `p` is still to be read when the row's step is not past the one that reads it. -/
theorem State.Busy.pos_le_iff : s.pos.toNat ≤ p ↔ rowNumber s.pos s.len s.ph ≤ readStep s.len.toNat p := by
  have hentry := hb.pos_entry
  unfold readStep
  cases hph : s.ph with
  | idle => exact absurd hph hbusy
  | p8 =>
    obtain ⟨hmod, hle⟩ := hb.pos_p8 hph
    rw [lenG_toNat] at hle
    simp only [rowNumber]
    split_ifs <;> omega
  | p4 | p2 | p1 | pf | pn | pb | done =>
    rw [hentry (by simp [hph]), hph]
    simp only [posOnEntry, rowNumber, lenG_toNat, lenT4_toNat, lenT2_toNat]
    split_ifs <;> omega

/-- The byte at offset `p` is read by the end of the row when the row's step is not before the one that reads it. -/
theorem State.Busy.lt_pos_add_iff :
    p < s.pos.toNat + readsOfRow s.pos s.len s.ph ↔ readStep s.len.toNat p ≤ rowNumber s.pos s.len s.ph := by
  have hentry := hb.pos_entry
  unfold readStep
  cases hph : s.ph with
  | idle => exact absurd hph hbusy
  | p8 =>
    obtain ⟨hmod, hle⟩ := hb.pos_p8 hph
    rw [lenG_toNat] at hle
    have hd := groupsDone_iff (pos := s.pos) (len := s.len)
    simp only [readsOfRow, rowNumber, hd]
    split_ifs <;> omega
  | p4 | p2 | p1 | pf | pn | pb | done =>
    rw [hentry (by simp [hph]), hph]
    simp only [posOnEntry, readsOfRow, rowNumber, lenG_toNat, lenT4_toNat, lenT2_toNat, lenT1_toNat]
    split_ifs <;> omega

end

/-- Before `DONE` each row leads to the next one. -/
theorem RowStep.rowNumber_succ {e : HostInput} {s u : State} (h : RowStep e s u) (hb : s.Busy) (hbusy : s.ph ≠ .idle)
    (hdone : s.ph ≠ .done) : rowNumber u.pos u.len u.ph = rowNumber s.pos s.len s.ph + 1 := by
  cases h with
  | idleWait hph | accept _ hph => exact absurd hph hbusy
  | doneWait hph | ret hph => exact absurd hph hdone
  | group bytes hph hd =>
    have hle := hb.pos_add_bytesRead_le (o := false) (k := false) (i := .xor8) hbusy (by simp [selectOp, hph, hd])
    have hpos := accumulated_pos_toNat (assemble s.params.byteOrder bytes) hle
    rw [accumulated_ph, hph]
    simp only [rowNumber, Instr.bytesRead] at hpos ⊢
    omega
  | groupsEnd hph hd => simp only [rowNumber, hph, groupsDone_iff.mp hd]
  | word _ hph | noWord hph | half _ hph | noHalf hph | byte _ hph | noByte hph | fold hph | norm hph | blend hph =>
    rw [hph]
    rfl

/-! ### The first byte of a run that is not answered (R41, R144) -/

/-- In a run that accepts `c`, the byte at offset `p` of the window is the first that is not answered. -/
structure State.StopsAt (s : State) (c : Command) (p : Nat) : Prop where
  offset_lt : p < c.len.toNat
  unanswered : ¬ s.answers c p
  answered : ∀ q, q < p → s.answers c q

/-- `t` is reached after `k` steps of a run that accepts `c`, and its next row is that of step `k`. -/
structure State.AtRow (s : State) (c : Command) (k : Nat) (t : State) : Prop where
  steps_eq : steps k s = .next t
  running : s.Running c k t
  inv : t.Inv
  busy : t.ph ≠ .idle
  row_eq : rowNumber t.pos c.len t.ph = k

section
variable {s t : State} {c : Command} {k p : Nat} (h : s.AtRow c k t)
include h

theorem State.AtRow.pos_le_iff (hp : p < c.len.toNat) : t.pos.toNat ≤ p ↔ k ≤ readStep c.len.toNat p := by
  have hiff := h.running.busy.pos_le_iff h.busy (h.running.len_eq ▸ hp)
  rwa [h.running.len_eq, h.row_eq] at hiff

theorem State.AtRow.lt_pos_add_iff (hp : p < c.len.toNat) :
    p < t.pos.toNat + readsOfRow t.pos c.len t.ph ↔ readStep c.len.toNat p ≤ k := by
  have hiff := h.running.busy.lt_pos_add_iff h.busy (h.running.len_eq ▸ hp)
  rwa [h.running.len_eq, h.row_eq] at hiff

/-- Where the row faults, and that it does so (R41). -/
theorem State.AtRow.row_eq_fault_iff {a : Nat} : Machine.row t.input t.begin = .fault (.outOfBuffer a) ↔
    ∃ j, j < readsOfRow t.pos c.len t.ph ∧ a = t.begin.ea + j ∧ t.begin.readByte a = none ∧
      ∀ i, i < j → t.begin.readByte (t.begin.ea + i) ≠ none := by
  rw [Machine.row_eq_fault_iff (s := t.begin) h.busy, State.memRead_error_iff, ← h.running.len_eq]
  rfl

theorem State.AtRow.reset_eq (hreset : s.noReset (stepsToDone c.len)) (hk : k < stepsToDone c.len) : t.input.reset = false := by
  rw [h.running.env.input_eq]
  exact State.noReset_getD hreset hk

theorem State.AtRow.ne_done (hk : k < stepsToDone c.len) : t.ph ≠ .done := by
  intro hph
  have hnumber := h.row_eq
  simp only [hph, rowNumber, stepsToDone] at hnumber hk
  omega

/-- A row that completes before `DONE` leads on to that of the next step. -/
theorem State.AtRow.next {u : State} (hreset : s.noReset (stepsToDone c.len)) (hk : k < stepsToDone c.len)
    (hrow : RowStep t.input t.begin u) : s.AtRow c (k + 1) u.settle := by
  have hstep : step t = .next u.settle := hrow.step_eq (h.reset_eq hreset hk) h.running.fault_eq
  have hsucc := hrow.rowNumber_succ { h.running.busy with } h.busy (h.ne_done hk)
  obtain ⟨-, hlen, -⟩ := hrow.command_eq h.busy
  have hlen' : u.len = c.len := hlen.trans h.running.len_eq
  have hnumber : rowNumber u.pos c.len u.ph = k + 1 := by
    rw [← h.row_eq, ← hlen', hsucc, hlen]
    rfl
  have hbusy : u.ph ≠ .idle := fun hph => by simp [hph, rowNumber] at hnumber
  exact {
    steps_eq := by rw [steps_succ, h.steps_eq]; exact hstep
    running := h.running.row hrow h.busy hbusy
    inv := (stepKeepsInvariant t _ h.inv hstep).1
    busy := hbusy
    row_eq := hnumber }

variable (hwf : c.wf s.params.aw = true)
include hwf

theorem State.AtRow.ea_eq : t.begin.ea = c.base + t.pos.toNat :=
  congrArg (· + t.pos.toNat) (h.running.base_eq.trans (Command.base_mod_of_wf hwf))

/-- A byte read of the row finds nothing exactly when the run does not answer that byte. -/
theorem State.AtRow.readByte_eq_none {j : Nat} (hj : j < readsOfRow t.pos c.len t.ph) (hlt : t.pos.toNat + j < c.len.toNat) :
    t.begin.readByte (t.begin.ea + j) = none ↔ ¬ s.answers c (t.pos.toNat + j) := by
  have hle := h.pos_le_iff hlt
  have hge := h.lt_pos_add_iff hlt
  have hk : readStep c.len.toNat (t.pos.toNat + j) = k := by omega
  rw [h.ea_eq hwf, Nat.add_assoc, State.readByte_eq_none h.inv.env.begin.readable_held, State.answers, hk, ← h.running.valid_eq,
    ← h.running.env.begin_readable, ← h.running.env.params_eq, ← and_assoc]
  rfl

variable (hstop : s.StopsAt c p)
include hstop

/-- The row that R71 has read the first byte that is not answered faults there. -/
theorem State.AtRow.row_fault (hk : k = readStep c.len.toNat p) : Machine.row t.input t.begin = .fault (.outOfBuffer (c.base + p)) := by
  obtain ⟨hp, hun, hans⟩ := hstop
  have hle := (h.pos_le_iff hp).mpr (by omega)
  have hlt := (h.lt_pos_add_iff hp).mpr (by omega)
  obtain ⟨j, rfl⟩ := Nat.exists_eq_add_of_le hle
  refine h.row_eq_fault_iff.mpr ⟨j, by omega, by rw [h.ea_eq hwf, Nat.add_assoc], ?_, fun i hi => ?_⟩
  · rw [← Nat.add_assoc, ← h.ea_eq hwf]
    exact (h.readByte_eq_none hwf (by omega) hp).mpr hun
  · rw [ne_eq, h.readByte_eq_none hwf (by omega) (by omega), not_not]
    exact hans _ (by omega)

/-- A row of an earlier step completes. -/
theorem State.AtRow.row_next (hk : k < readStep c.len.toNat p) : ∃ u, RowStep t.input t.begin u := by
  obtain ⟨hp, -, hans⟩ := hstop
  have hbefore := h.lt_pos_add_iff hp
  cases hrow : Machine.row t.input t.begin with
  | next u => exact ⟨u, rowStep_of_row hrow⟩
  | refused r => exact absurd hrow (row_ne_refused _ _ r)
  | fault r =>
    obtain ⟨a⟩ := r
    obtain ⟨j, hj, rfl, hnone, -⟩ := h.row_eq_fault_iff.mp hrow
    exact absurd (hans _ (by omega)) ((h.readByte_eq_none hwf hj (by omega)).mp hnone)

end

/-- The first step accepts the command, and the run is at the row of step 1 (R72). -/
theorem State.atRow_of_accept {s : State} {c : Command} (hinv : s.Inv) (hidle : s.ph = .idle) (hfault : s.fault = none)
    (hoffer : s.input.offer = some c) (hreset : s.input.reset = false) : ∃ t, s.AtRow c 1 t := by
  obtain ⟨t, hsteps, hrun, hph, hpos, -⟩ := State.reaches_p8 hidle hfault hoffer hreset
  have hstep : step s = .next t := (andThen_next_right _).symm.trans hsteps
  exact ⟨t, hsteps, hrun, (stepKeepsInvariant s t hinv hstep).1, by simp [hph], by simp [hph, rowNumber, hpos]⟩

/-- Settles O56: the rows before that of the first byte that is not answered complete (`State.AtRow.row_next`), that one faults
(`State.AtRow.row_fault`), and none of them is that of `DONE`. -/
theorem runFaultsAtUnreadableByte : Obligations.RunFaultsAtUnreadableByte := by
  intro s c p hinv hidle hfault hoffer hwf hreset hp hun hans
  have hstop : s.StopsAt c p := ⟨hp, hun, hans⟩
  obtain ⟨hpos, hlt⟩ := readStep_bounds hp
  have hfirst : s.input.reset = false := by
    rw [(State.RunEnv.refl s).input_eq]
    exact State.noReset_getD hreset (by omega)
  have hrows {k : Nat} (hk : k + 1 ≤ readStep c.len.toNat p) : ∃ t, s.AtRow c (k + 1) t := by
    induction k with
    | zero => exact State.atRow_of_accept hinv hidle hfault hoffer hfirst
    | succ k ih =>
      obtain ⟨t, ht⟩ := ih (by omega)
      obtain ⟨u, hu⟩ := ht.row_next hwf hstop hk
      exact ⟨_, ht.next hreset (by omega) hu⟩
  have hbefore {k : Nat} (hk : k ≤ readStep c.len.toNat p) : ∃ u, steps k s = .next u ∧ u.ph ≠ .done := by
    cases k with
    | zero => exact ⟨s, rfl, by simp [hidle]⟩
    | succ k =>
      obtain ⟨t, ht⟩ := hrows hk
      exact ⟨t, ht.steps_eq, ht.ne_done (by omega)⟩
  refine ⟨?_, fun k hk => ?_⟩
  · obtain ⟨t, ht⟩ := hrows (k := readStep c.len.toNat p - 1) (by omega)
    rw [Nat.sub_add_cancel hpos] at ht
    rw [steps_succ, ht.steps_eq, andThen_next, step_eq_row (ht.reset_eq hreset hlt) ht.running.fault_eq,
      ht.row_fault hwf hstop rfl, andThen_fault]
  · obtain ⟨u, hu, hdone⟩ := hbefore hk
    obtain ⟨-, -, hresponses⟩ := steps_deliver_nothing hreset (by omega) (fun j hj => hbefore (by omega)) hu
    exact ⟨u, hu, hdone, hresponses⟩

end Sys2Proof.Machine
